-- ==== Sys2Proof/Syntax.lean ====
section
/-! DEFINITION. The command set of KSG (30_encoding.md R92, R99): the three commands and nothing else. -/

namespace Sys2Proof

/-- A legal command. A command carries no operand: each one is read from the registers at
acceptance (R94). -/
inductive Instr where
  /-- 43_generate.md R195. -/
  | generate
  /-- 40_threshold.md R115. -/
  | threshold
  /-- 41_keystream.md R146. -/
  | keystream
  deriving DecidableEq, Repr

end Sys2Proof
end

