-- ==== Sys2Proof/Word.lean ====
section
/-! DEFINITION. The word types of KSG (00_scope.md R6). -/

namespace Sys2Proof

/-- `u8`: a byte of host memory, of a block or of a Unit. -/
abbrev Byte := BitVec 8

/-- `u16`: a lane, the Threshold, an accumulator. -/
abbrev U16 := BitVec 16

/-- One register of the window (R20), a command word (R90). -/
abbrev U32 := BitVec 32

/-- A 64-bit operand or a host bus address (R5, R94). -/
abbrev U64 := BitVec 64

/-- A Key, a Counter or a block (R9). -/
abbrev U128 := BitVec 128

end Sys2Proof
end

