-- ==== Sys2Proof/WellFormed.lean ====
section
/-! DEFINITION. Which command words are well formed (30_encoding.md R90, R91, R95). An `Instr` has no
fields, so no `Instr` is ill formed; what can be ill formed is the CMD32 word a host writes. -/

namespace Sys2Proof

/-- The fields of the one command format, CMD32 (R90). -/
structure Cmd32 where
  /-- Bits 7:0. -/
  op  : BitVec 8
  /-- Bits 31:8, reserved. -/
  rsv : BitVec 24
  deriving DecidableEq, Repr

/-- R91, first half: the reserved bits are 0. -/
def Cmd32.rsvIsZero (c : Cmd32) : Bool := c.rsv == 0

/-- R91, second half: OP is one of the three opcodes of R92. -/
def Cmd32.opIsAssigned (c : Cmd32) : Bool := c.op == 0x01 || c.op == 0x02 || c.op == 0x03

/-- R91: a legal command word. -/
def Cmd32.wellFormed (c : Cmd32) : Bool := c.rsvIsZero && c.opIsAssigned

/-- R94: a command has no immediate and no register number, so there is nothing in it to check. -/
def Instr.wellFormed : Instr → Bool
  | .generate  => true
  | .threshold => true
  | .keystream => true

end Sys2Proof
end

