-- ==== Sys2Proof/Decode.lean ====
section
/-! DEFINITION. Decoding a command word (30_encoding.md R90 to R92, R95), total and rejecting by name, and
after it the encoder (R98). -/

namespace Sys2Proof

/-- Why a sequence of bytes names no command. -/
inductive DecodeError where
  /-- R90: a command is one whole 32-bit word, and this is not four bytes. -/
  | notOneWord
  /-- R91: `w[31:8] ≠ 0`. -/
  | reservedBits
  /-- R92: OP is one of the 253 reserved opcodes. -/
  | reservedOpcode (op : BitVec 8)
  deriving DecidableEq, Repr

/-- What decoding answers. -/
inductive Decoded where
  | command (i : Instr)
  | illegal (e : DecodeError)
  deriving DecidableEq, Repr

/-- The fields of a word (R90). -/
def fieldsOf (w : U32) : Cmd32 :=
  { op := w.extractLsb' 0 8, rsv := w.extractLsb' 8 24 }

/-- The opcode map (R92). -/
def opcodeMap (op : BitVec 8) : Option Instr :=
  if op = 0x01 then some .generate
  else if op = 0x02 then some .threshold
  else if op = 0x03 then some .keystream
  else none

/-- Decode a word (R91): RSV must be 0 and OP one of the map's. -/
def decodeWord (w : U32) : Decoded :=
  let c := fieldsOf w
  if c.rsv ≠ 0 then .illegal .reservedBits
  else match opcodeMap c.op with
    | some i => .command i
    | none   => .illegal (.reservedOpcode c.op)

/-- The word whose bytes, lowest address first, are these (20_memory.md R62: bits 7:0 at the lowest). -/
def wordOfBytes (b0 b1 b2 b3 : Byte) : U32 := b3 ++ b2 ++ b1 ++ b0

/-- The bytes of a word, lowest address first (R62). -/
def bytesOfWord (w : U32) : List Byte :=
  [w.extractLsb' 0 8, w.extractLsb' 8 8, w.extractLsb' 16 8, w.extractLsb' 24 8]

/-- Decode the bytes of a CMD write. -/
def decode : List Byte → Decoded
  | [b0, b1, b2, b3] => decodeWord (wordOfBytes b0 b1 b2 b3)
  | _                => .illegal .notOneWord

/-- The command that a decoding names, if it names one. -/
def Decoded.instr? : Decoded → Option Instr
  | .command i => some i
  | .illegal _ => none

/-- The host's fixed name: the command the decoder reads from the word `w` of `nbits` bits, every bit
above them 0, laid out as the register window lays out a word. -/
def decodeTableWord (nbits w : Nat) : Option Instr :=
  (decode (bytesOfWord (BitVec.ofNat 32 (w % 2 ^ nbits)))).instr?

/-! ## The encoder -/

/-- The opcode of a command (R92). -/
def opcode : Instr → BitVec 8
  | .generate  => 0x01
  | .threshold => 0x02
  | .keystream => 0x03

/-- The command word of a command (R98): OP in bits 7:0, RSV = 0. -/
def encode (i : Instr) : U32 := (0 : BitVec 24) ++ opcode i

end Sys2Proof
end

