-- ==== Sys2Proof/Config.lean ====
section
/-! DEFINITION. What an implementation or its platform fixes (00_scope.md R5, 93_implementation_defined.md
P1 to P6), and the one source of free values. -/

namespace Sys2Proof.Config

/-- R5 `UNIT_BYTES`. -/
def unitBytes : Nat := 16

/-- R5 `LANES`. -/
def lanes : Nat := 8

/-- R5 `SUBITER`. -/
def subIter : Nat := 16

/-- The constant ID reads (10_state.md R21). -/
def idValue : U32 := 0x4B534731

/-- Spec default of `DELTA` (R5). -/
def defaultDelta : U128 := 0xBB67AE8584CAA73B3C6EF372FE94F82B

/-- Spec default of `STEP` (R5). -/
def defaultStep : U128 := 0x9E3779B97F4A7C15F39CC0605CEDC835

/-- Spec default of `EPS`, 2^-23 (R191), counted in units of 2^-149 (log 12). -/
def defaultEps : Nat := 2 ^ 126

/-- One reason for host memory to refuse a write transaction. A list of these is the platform predicate
`Admit` (20_memory.md R68) as plain data (log 13). -/
inductive AdmitRule where
  /-- Refuses every transaction that touches one of the bytes `first .. last`. -/
  | touching (first last : Nat)
  /-- Refuses the transactions of exactly `len` bytes that start at `addr`. -/
  | exactly (addr len : Nat)
  deriving DecidableEq, Repr

/-- The parameters of R5 that no step changes. `W` is not among them: it is the number of engines that
the state holds (log 14). -/
structure Params where
  /-- P4, the offset between stream A and stream B. -/
  delta   : U128
  /-- P5, the Counter's increment. -/
  step    : U128
  /-- P3, in units of 2^-149: every binary32 value is a whole number of them (log 12). -/
  eps     : Nat
  /-- P2, where the register window lies on the host's bus. -/
  regBase : U64
  /-- P6, what host memory refuses. -/
  refuse  : List AdmitRule
  deriving DecidableEq, Repr

/-- The spec's defaults. `REG_BASE` and `Admit` are OPEN: 0 and "always" here (DESIGN CHOICE, log 1). -/
def Params.default : Params :=
  { delta := defaultDelta, step := defaultStep, eps := defaultEps, regBase := 0, refuse := [] }

/-- What the spec asks of the constants: P5 "a model should require STEP odd"; Δ is "distinct from the
per-iteration step" (41_keystream.md R136). -/
def Params.wellFormed (c : Params) : Bool := c.step.getLsbD 0 && c.delta != c.step

/-- The free values of the model: the outcome of the `n`-th choice that the spec leaves open and that
the state does not already settle (93_implementation_defined.md U4, U6, U7, U15; log 3). It has no
body, so no proof can see an outcome. -/
opaque freeChoice : Nat → Nat

end Sys2Proof.Config
end

