-- ==== Sys2Proof/Machine/State.lean ====
section
/-! DEFINITION. The state of KSG (10_state.md), of the host memory it writes (20_memory.md), and of the
outside world's pending accesses; the reasons a step can stop; the state after reset (R240). Every
type here is plain data. -/

namespace Sys2Proof.Machine

/-- FAULT_CAUSE.CODE (60_exceptions.md R210). Codes 7 to 15 are never raised (93 U9), so they have no
constructor. -/
inductive Cause where
  | none | illegalCmd | probRange | sizeAlign | unitRange | addrWrap | busError
  deriving DecidableEq, Repr

/-- The four flags of STATUS (R24). -/
structure Status where
  /-- R25. -/
  busy    : Bool
  /-- R26. -/
  done    : Bool
  /-- R27. -/
  fault   : Bool
  /-- R28. -/
  overrun : Bool
  deriving DecidableEq, Repr

/-- The fault record: FAULT_CAUSE (R39) and FAULT_ADDR (R40). -/
structure FaultRecord where
  code : Cause
  /-- FAULT_CAUSE.OP: bits 7:0 of the command word that faulted. -/
  op   : Byte
  addr : U64
  deriving DecidableEq, Repr

/-- The operand registers only the host writes (R23, R30, R32 to R38). THRESH is not among them: commands
write it too (R31). -/
structure Operands where
  /-- CTRL.CTR_MODE: false = RESTART, true = OFFSET (R23). -/
  ctrMode : Bool
  prob : U32
  seedLo : U32
  seedHi : U32
  seed1Lo : U32
  seed1Hi : U32
  outAddrLo : U32
  outAddrHi : U32
  outSizeLo : U32
  outSizeHi : U32
  shardUnitsLo : U32
  shardUnitsHi : U32
  ksStartLo : U32
  ksStartHi : U32
  ksLimitLo : U32
  ksLimitHi : U32
  ctr0w0 : U32
  ctr0w1 : U32
  ctr0w2 : U32
  ctr0w3 : U32
  deriving DecidableEq, Repr

/-- The command snapshot (R42), under the names of R42. -/
structure Snapshot where
  op    : Instr
  /-- The binary32 pattern of `p`. -/
  p     : U32
  /-- The Threshold `T`. -/
  t     : U16
  /-- The Key `K`. -/
  key   : U128
  /-- `OUT`. -/
  out   : U64
  /-- `N`. -/
  size  : U64
  /-- `S`. -/
  shardUnits : U64
  /-- CTR_MODE: true = OFFSET. -/
  mode  : Bool
  start : U64
  limit : U64
  ctr0  : U128
  deriving DecidableEq, Repr

/-- A shard `(a, b, ctr0)`: the Units `[start, limit)` and the Counter they start from (R43, R171). -/
structure Shard where
  start : Nat
  limit : Nat
  ctr0  : U128
  deriving DecidableEq, Repr

/-- An engine (R44): idle, or running a shard of which it has written the first `u` Units. -/
inductive Engine where
  | idle
  | running (shard : Shard) (u : Nat)
  deriving DecidableEq, Repr

/-- The fill agent of a degenerate GENERATE (R43, 43_generate.md R193): the fill byte and the next chunk. -/
structure FillAgent where
  byte : Byte
  k    : Nat
  deriving DecidableEq, Repr

/-- `pending_fault` (R43, 60_exceptions.md R213). -/
structure PendingFault where
  code : Cause
  addr : U64
  deriving DecidableEq, Repr

/-- What the outside world may do (42_shard.md R174, 70_reset_and_hazards.md R240, R250). The bytes of an
access stand in address order, lowest first, so that no byte order of the host's own enters (R63). -/
inductive HostEvent where
  /-- The host reads `n` bytes from `addr` on: the window (R64) or host memory. -/
  | read (addr : U64) (n : Nat)
  /-- The host writes these bytes from `addr` on. -/
  | write (addr : U64) (bytes : List Byte)
  /-- The host's WAIT (30_encoding.md R96): it reads STATUS again and again until BUSY = 0. -/
  | wait
  /-- The platform asserts reset (R240). -/
  | reset
  deriving DecidableEq, Repr

/-- What an access answers. A byte `none` is one that the model holds no value for: nothing has written
it (log 2). -/
inductive BusReply where
  | data (bytes : List (Option Byte))
  | written
  /-- R64: the bus-error response. -/
  | busError
  deriving DecidableEq, Repr

/-- The named registers of the window (R20). -/
inductive Reg where
  | id | numEngines | ctrl | status | cmd | prob | thresh
  | seedLo | seedHi | seed1Lo | seed1Hi | outAddrLo | outAddrHi | outSizeLo | outSizeHi
  | shardUnitsLo | shardUnitsHi | ksStartLo | ksStartHi | ksLimitLo | ksLimitHi
  | ctr0w0 | ctr0w1 | ctr0w2 | ctr0w3 | faultCause | faultAddrLo | faultAddrHi
  deriving DecidableEq, Repr

/-- Host memory (20_memory.md R60): the bytes that have been written, addresses strictly rising. -/
abbrev Memory := List Host.Cell

/-- The whole state. -/
structure State where
  /-- STATUS (R24). -/
  status   : Status
  /-- FAULT_CAUSE and FAULT_ADDR (R39, R40). -/
  record   : FaultRecord
  /-- THRESH.T (R31). -/
  thresh   : U16
  /-- The operand registers. -/
  regs     : Operands
  /-- The command snapshot (R42). -/
  snap     : Option Snapshot
  /-- The shards not yet handed to an engine (R43). -/
  queue    : List Shard
  /-- `pending_fault` (R43). -/
  pending  : Option PendingFault
  /-- The fill agent, `none` when it is stopped (R43). -/
  fill     : Option FillAgent
  /-- The engines 0 .. W-1 (R44); there are W of them (R22). -/
  engines  : List Engine
  /-- Host memory (R60). -/
  mem      : Memory
  /-- The parameters (R5); no step changes them. -/
  cfg      : Config.Params
  /-- The model's own: what the outside world does next, oldest first (R79, log 4). -/
  bus      : List HostEvent
  /-- The model's own: what each access answered, newest first (log 4). -/
  replies  : List BusReply
  /-- The model's own: host memory when the running command was accepted (R73, log 9). -/
  before   : Memory
  /-- The model's own: what the host wrote into the running command's target range (R73, log 10). -/
  raced    : Memory
  /-- The model's own: the outcomes of the next open choices, as far as they are settled (log 3). -/
  choices  : List Nat
  /-- The model's own: how many free values have been drawn (log 3). -/
  draws    : Nat
  deriving DecidableEq, Repr

/-- Why the machine stops. KSG's own faults are not here: they are a next state (R214). -/
inductive Fault where
  /-- Raised by a host access to host memory that would pass the last address, 2^64 - 1 (R60); safe: the
  model stops where the host's own memory system decides (log 6). -/
  | hostAccessPastMemory
  deriving DecidableEq, Repr

/-- Why a command is refused. -/
inductive Refusal where
  /-- Raised by an arm of `exec` for a command that has no meaning yet; safe: the machine stops. No arm
  raises it now. -/
  | notModelled (mnemonic : String)
  deriving DecidableEq, Repr

/-- The outcome of a meaning or of a step. -/
abbrev Result := Host.Outcome State Fault Refusal

/-- STATUS after reset (R24). -/
def Status.reset : Status := { busy := false, done := false, fault := false, overrun := false }

/-- The fault record while FAULT = 0 (R39, R40). -/
def FaultRecord.clear : FaultRecord := { code := .none, op := 0, addr := 0 }

/-- The operand registers after reset (R20). -/
def Operands.reset : Operands :=
  { ctrMode := false, prob := 0, seedLo := 0, seedHi := 0, seed1Lo := 0, seed1Hi := 0,
    outAddrLo := 0, outAddrHi := 0, outSizeLo := 0, outSizeHi := 0, shardUnitsLo := 0,
    shardUnitsHi := 0, ksStartLo := 0, ksStartHi := 0, ksLimitLo := 0, ksLimitHi := 0,
    ctr0w0 := 0, ctr0w1 := 0, ctr0w2 := 0, ctr0w3 := 0 }

/-- The state right after reset of a KSG with `w` engines and the parameters `cfg` (R240, R242), with no
byte of host memory known and no access pending. -/
def State.resetOf (cfg : Config.Params) (w : Nat) : State :=
  { status := .reset, record := .clear, thresh := 0, regs := .reset, snap := none, queue := [],
    pending := none, fill := none, engines := List.replicate w .idle, mem := [], cfg := cfg,
    bus := [], replies := [], before := [], raced := [], choices := [], draws := 0 }

/-- The state right after reset, with the spec's default constants and, for the OPEN parameters, one
engine, `REG_BASE` = 0 and a host memory that admits everything (DESIGN CHOICE, log 1). -/
def State.reset : State := State.resetOf .default 1

end Sys2Proof.Machine
end

