-- ==== Sys2Proof/Machine/Ops.lean ====
section
/-! DEFINITION. The shared operations over bytes, host memory, the admission predicate and the command
state: dropping a command, accepting one, fault entry and its end. -/

namespace Sys2Proof.Machine

/-! ## Bytes (00_scope.md R9) -/

/-- `bytes(X)[i]` (R9): byte 0 is the least significant. -/
def byteOf (x : U128) (i : Nat) : Byte := x.extractLsb' (8 * i) 8

/-- `bytes(X)` (R9). -/
def bytesOf (x : U128) : List Byte := (List.range 16).map (byteOf x)

/-- The number whose base-256 digits, least significant first, are the bytes. -/
def natOfBytes : List Byte → Nat
  | []      => 0
  | b :: bs => b.toNat + 256 * natOfBytes bs

/-- `fromBytes` (R9), the inverse of `bytesOf`. -/
def fromBytes (bs : List Byte) : U128 := BitVec.ofNat 128 (natOfBytes bs)

/-! ## Host memory (20_memory.md R60) -/

/-- The canonical form: addresses strictly rising, each below 2^64. A byte that is not listed has no
value, so no entry can equal it (log 2). -/
def Memory.wf : Memory → Bool
  | []                      => true
  | [c]                     => decide (c.1 < 2 ^ 64)
  | c :: d :: rest          => decide (c.1 < d.1) && Memory.wf (d :: rest)

/-- The byte at an address; `none` for one that nothing has written (log 2). -/
def memRead : Memory → Nat → Option Byte
  | [], _        => none
  | c :: rest, a => if a = c.1 then some c.2 else memRead rest a

/-- Store one byte. -/
def memWrite : Memory → Nat → Byte → Memory
  | [], a, b        => [(a, b)]
  | c :: rest, a, b =>
    if a < c.1 then (a, b) :: c :: rest
    else if a = c.1 then (a, b) :: rest
    else c :: memWrite rest a b

/-- Take a byte's value away. -/
def memErase (m : Memory) (a : Nat) : Memory := m.filter fun c => c.1 != a

/-- Make a byte read as `v`: store it, or take its value away. -/
def memPut (m : Memory) (a : Nat) : Option Byte → Memory
  | some b => memWrite m a b
  | none   => memErase m a

/-- `MemWrite(a, n, bytes)` once it is admitted (00_scope.md R7): `bytes[i]` at `a + i`. -/
def memWriteBytes : Memory → Nat → List Byte → Memory
  | m, _, []      => m
  | m, a, b :: bs => memWriteBytes (memWrite m a b) (a + 1) bs

/-- Does this rule refuse the transaction of `n` bytes at `a`? -/
def ruleRefuses (a n : Nat) : Config.AdmitRule → Bool
  | .touching first last => decide (a ≤ last ∧ first < a + n)
  | .exactly addr len    => decide (a = addr ∧ n = len)

/-- `Admit(a, n)` (20_memory.md R68). Host memory ends at address 2^64 - 1 (R60), so a transaction that
would pass it is not admitted (log 7). -/
def admits (c : Config.Params) (a n : Nat) : Bool :=
  decide (a + n ≤ 2 ^ 64) && c.refuse.all (fun r => !(ruleRefuses a n r))

/-! ## Open choices (42_shard.md R175, log 3) -/

/-- Settle one choice among `n` possibilities: by the choices the state already holds, else, where there
is more than one possibility, by a free value. Answers the index and the state that has consumed it. -/
def choose (n : Nat) (s : State) : Nat × State :=
  match s.choices with
  | c :: cs => (c % n, { s with choices := cs })
  | []      =>
    if n ≤ 1 then (0, s)
    else (Config.freeChoice s.draws % n, { s with draws := s.draws + 1 })

/-! ## Commands (10_state.md R29, 30_encoding.md R93) -/

/-- R29: is a CMD write dropped in this state? -/
def blocked (s : State) : Bool := s.status.busy || s.status.fault

/-- R29: the CMD write is dropped and OVERRUN set; nothing else changes. -/
def dropCommand (s : State) : State := { s with status := { s.status with overrun := true } }

/-- R29: a decoded CMD write runs only where it is not dropped (R216, step 1). -/
def unlessBlocked (s run : State) : State := if blocked s then dropCommand s else run

/-- R93, the accepting branch, up to the op's own writes: DONE <- 0, BUSY <- 1, the snapshot taken. The
memory the command finds is noted for the races of R73 (log 9). -/
def accept (sn : Snapshot) (s : State) : State :=
  { s with
    status := { s.status with busy := true, done := false }
    snap := some sn, before := s.mem, raced := [] }

/-! ## Fault entry and the end of a fault (60_exceptions.md R214, R217) -/

/-- R214: fault entry, in one step. -/
def faultEntry (code : Cause) (op : Byte) (faddr : U64) (s : State) : State :=
  { s with
    queue := [], engines := s.engines.map (fun _ => .idle), fill := none, pending := none
    status := { s.status with busy := false, done := false, fault := true }
    record := { code := code, op := op, addr := faddr }
    snap := none, before := [], raced := [] }

/-- R217, the return from a fault: writing 1 to STATUS.FAULT clears FAULT, FAULT_CAUSE and FAULT_ADDR
together (R27). -/
def clearFault (s : State) : State :=
  { s with status := { s.status with fault := false }, record := .clear }

/-- R211: a CMD write that is not dropped and names no command. -/
def illegalCommand (w : U32) (s : State) : State :=
  unlessBlocked s (faultEntry .illegalCmd (fieldsOf w).op 0 s)

/-- R176: the completion of a command. -/
def completeCommand (s : State) : State :=
  { s with
    status := { s.status with busy := false, done := true }
    fill := none, snap := none, before := [], raced := [] }

/-- R240: the reset event. Host memory keeps its bytes, the parameters and the number of engines are the
hardware's, and what the outside world does next is not KSG's (log 16). -/
def platformReset (s : State) : State :=
  { s with
    status := .reset, record := .clear, thresh := 0, regs := .reset
    snap := none, queue := [], pending := none, fill := none
    engines := s.engines.map (fun _ => .idle), before := [], raced := [] }

end Sys2Proof.Machine
end

