-- ==== Sys2Proof/Machine/Operands.lean ====
section
/-! DEFINITION. The operands of a command: their assembly from the registers (30_encoding.md R94), and
the binary32 reading of PROB (00_scope.md R8). -/

namespace Sys2Proof.Machine

/-! ## binary32 (R8) -/

/-- The value of a binary32 pattern, counted in units of 2^-149 (every finite binary32 value is a whole
number of them). Both zeros are the real number 0. -/
inductive Binary32 where
  | nan
  | negInf
  | posInf
  | real (units : Int)
  deriving DecidableEq, Repr

/-- The sign bit of a binary32 pattern. -/
def signOf (bits : U32) : Bool := bits.getLsbD 31

/-- The exponent field of a binary32 pattern. -/
def exponentOf (bits : U32) : Nat := (bits.extractLsb' 23 8).toNat

/-- The fraction field of a binary32 pattern. -/
def fractionOf (bits : U32) : Nat := (bits.extractLsb' 0 23).toNat

/-- The magnitude of a finite pattern in units of 2^-149: subnormal where the exponent field is 0, else
with the implicit leading bit. -/
def magnitudeOf (bits : U32) : Nat :=
  if exponentOf bits = 0 then fractionOf bits
  else (2 ^ 23 + fractionOf bits) * 2 ^ (exponentOf bits - 1)

/-- `f32(bits)` (R8). -/
def f32 (bits : U32) : Binary32 :=
  if exponentOf bits = 255 then
    if fractionOf bits ≠ 0 then .nan else if signOf bits then .negInf else .posInf
  else .real (if signOf bits then -(magnitudeOf bits : Int) else (magnitudeOf bits : Int))

/-- The real number 1 in units of 2^-149. -/
def oneUnits : Nat := 2 ^ 149

/-! ## Assembly (R94) -/

def seedOf (r : Operands) : U64 := r.seedHi ++ r.seedLo
def seed1Of (r : Operands) : U64 := r.seed1Hi ++ r.seed1Lo

/-- `K = seed1 ++ seed` (41_keystream.md R131). -/
def keyOf (r : Operands) : U128 := seed1Of r ++ seedOf r

def outOf (r : Operands) : U64 := r.outAddrHi ++ r.outAddrLo
def outSizeOf (r : Operands) : U64 := r.outSizeHi ++ r.outSizeLo
def shardUnitsOf (r : Operands) : U64 := r.shardUnitsHi ++ r.shardUnitsLo
def startOf (r : Operands) : U64 := r.ksStartHi ++ r.ksStartLo
def limitOf (r : Operands) : U64 := r.ksLimitHi ++ r.ksLimitLo

/-- `CTR0 = CTR0_3 ++ CTR0_2 ++ CTR0_1 ++ CTR0_0` (R38). -/
def ctr0Of (r : Operands) : U128 := r.ctr0w3 ++ r.ctr0w2 ++ r.ctr0w1 ++ r.ctr0w0

/-- The snapshot of R42. It copies every operand register: the fields that the command does not read are
not meaningful, and nothing reads them (log 11). -/
def takeSnapshot (op : Instr) (s : State) : Snapshot :=
  { op := op, p := s.regs.prob, t := s.thresh, key := keyOf s.regs, out := outOf s.regs,
    size := outSizeOf s.regs, shardUnits := shardUnitsOf s.regs, mode := s.regs.ctrMode,
    start := startOf s.regs, limit := limitOf s.regs, ctr0 := ctr0Of s.regs }

/-- ADDR_WRAP's condition, `OUT + N > 2^64`, computed exactly (60_exceptions.md R212). -/
def wraps (r : Operands) : Bool := decide (2 ^ 64 < (outOf r).toNat + (outSizeOf r).toNat)

end Sys2Proof.Machine
end

