-- ==== Sys2Proof/Machine/Flags.lean ====
section
/-! DEFINITION. The registers of the window as words (10_state.md R20 to R41): STATUS and its
write-one-to-clear flags, FAULT_CAUSE, and the read and the write of every register. No command computes
a condition code (R24). -/

namespace Sys2Proof.Machine

/-- A flag as a word with that one bit. -/
def flagBit (b : Bool) (i : Nat) : U32 := if b then BitVec.ofNat 32 (2 ^ i) else 0

/-- STATUS as it reads (R24): bits 31:4 are reserved and read 0. -/
def statusWord (f : Status) : U32 :=
  flagBit f.busy 0 ||| flagBit f.done 1 ||| flagBit f.fault 2 ||| flagBit f.overrun 3

/-- The codes of R210. -/
def causeCode : Cause → BitVec 4
  | .none       => 0
  | .illegalCmd => 1
  | .probRange  => 2
  | .sizeAlign  => 3
  | .unitRange  => 4
  | .addrWrap   => 5
  | .busError   => 6

/-- FAULT_CAUSE as it reads (R39): CODE in 3:0, OP in 15:8, the rest reserved. -/
def causeWord (r : FaultRecord) : U32 :=
  (0 : BitVec 16) ++ r.op ++ (0 : BitVec 4) ++ causeCode r.code

/-- A host write to STATUS (R24 to R28): BUSY is read only; a 1 in DONE, FAULT or OVERRUN clears it,
and with FAULT its record (R27). -/
def writeStatus (d : U32) (s : State) : State :=
  let s1 := { s with
    status := { s.status with
      done    := s.status.done && !d.getLsbD 1
      overrun := s.status.overrun && !d.getLsbD 3 } }
  if d.getLsbD 2 then clearFault s1 else s1

/-- The offset of each register (R20). -/
def regOffset : Reg → Nat
  | .id => 0x00 | .numEngines => 0x04 | .ctrl => 0x08 | .status => 0x0C
  | .cmd => 0x10 | .prob => 0x14 | .thresh => 0x18
  | .seedLo => 0x20 | .seedHi => 0x24 | .seed1Lo => 0x28 | .seed1Hi => 0x2C
  | .outAddrLo => 0x30 | .outAddrHi => 0x34 | .outSizeLo => 0x38 | .outSizeHi => 0x3C
  | .shardUnitsLo => 0x40 | .shardUnitsHi => 0x44 | .ksStartLo => 0x48 | .ksStartHi => 0x4C
  | .ksLimitLo => 0x50 | .ksLimitHi => 0x54
  | .ctr0w0 => 0x60 | .ctr0w1 => 0x64 | .ctr0w2 => 0x68 | .ctr0w3 => 0x6C
  | .faultCause => 0x70 | .faultAddrLo => 0x78 | .faultAddrHi => 0x7C

/-- The register at an aligned offset of the window (R20); none at the reserved offsets 0x1C, 0x58, 0x5C
and 0x74 (R41). -/
def regAt : Nat → Option Reg
  | 0x00 => some .id | 0x04 => some .numEngines | 0x08 => some .ctrl | 0x0C => some .status
  | 0x10 => some .cmd | 0x14 => some .prob | 0x18 => some .thresh
  | 0x20 => some .seedLo | 0x24 => some .seedHi | 0x28 => some .seed1Lo | 0x2C => some .seed1Hi
  | 0x30 => some .outAddrLo | 0x34 => some .outAddrHi
  | 0x38 => some .outSizeLo | 0x3C => some .outSizeHi
  | 0x40 => some .shardUnitsLo | 0x44 => some .shardUnitsHi
  | 0x48 => some .ksStartLo | 0x4C => some .ksStartHi
  | 0x50 => some .ksLimitLo | 0x54 => some .ksLimitHi
  | 0x60 => some .ctr0w0 | 0x64 => some .ctr0w1 | 0x68 => some .ctr0w2 | 0x6C => some .ctr0w3
  | 0x70 => some .faultCause | 0x78 => some .faultAddrLo | 0x7C => some .faultAddrHi
  | _ => none

/-- What a register reads as (R20 to R40). -/
def regRead (r : Reg) (s : State) : U32 :=
  match r with
  | .id           => Config.idValue
  | .numEngines   => BitVec.ofNat 32 s.engines.length
  | .ctrl         => flagBit s.regs.ctrMode 0
  | .status       => statusWord s.status
  | .cmd          => 0
  | .prob         => s.regs.prob
  | .thresh       => s.thresh.setWidth 32
  | .seedLo       => s.regs.seedLo
  | .seedHi       => s.regs.seedHi
  | .seed1Lo      => s.regs.seed1Lo
  | .seed1Hi      => s.regs.seed1Hi
  | .outAddrLo    => s.regs.outAddrLo
  | .outAddrHi    => s.regs.outAddrHi
  | .outSizeLo    => s.regs.outSizeLo
  | .outSizeHi    => s.regs.outSizeHi
  | .shardUnitsLo => s.regs.shardUnitsLo
  | .shardUnitsHi => s.regs.shardUnitsHi
  | .ksStartLo    => s.regs.ksStartLo
  | .ksStartHi    => s.regs.ksStartHi
  | .ksLimitLo    => s.regs.ksLimitLo
  | .ksLimitHi    => s.regs.ksLimitHi
  | .ctr0w0       => s.regs.ctr0w0
  | .ctr0w1       => s.regs.ctr0w1
  | .ctr0w2       => s.regs.ctr0w2
  | .ctr0w3       => s.regs.ctr0w3
  | .faultCause   => causeWord s.record
  | .faultAddrLo  => s.record.addr.extractLsb' 0 32
  | .faultAddrHi  => s.record.addr.extractLsb' 32 32

/-- What a host write to a register other than CMD does (R20): RO registers ignore it, RW ones store the
bits of their fields, STATUS clears flags. The write to CMD is the command itself (R29), which the bus
hands to `exec`. -/
def regWrite (r : Reg) (d : U32) (s : State) : State :=
  match r with
  | .id           => s
  | .numEngines   => s
  | .ctrl         => { s with regs := { s.regs with ctrMode := d.getLsbD 0 } }
  | .status       => writeStatus d s
  | .cmd          => s
  | .prob         => { s with regs := { s.regs with prob := d } }
  | .thresh       => { s with thresh := d.extractLsb' 0 16 }
  | .seedLo       => { s with regs := { s.regs with seedLo := d } }
  | .seedHi       => { s with regs := { s.regs with seedHi := d } }
  | .seed1Lo      => { s with regs := { s.regs with seed1Lo := d } }
  | .seed1Hi      => { s with regs := { s.regs with seed1Hi := d } }
  | .outAddrLo    => { s with regs := { s.regs with outAddrLo := d } }
  | .outAddrHi    => { s with regs := { s.regs with outAddrHi := d } }
  | .outSizeLo    => { s with regs := { s.regs with outSizeLo := d } }
  | .outSizeHi    => { s with regs := { s.regs with outSizeHi := d } }
  | .shardUnitsLo => { s with regs := { s.regs with shardUnitsLo := d } }
  | .shardUnitsHi => { s with regs := { s.regs with shardUnitsHi := d } }
  | .ksStartLo    => { s with regs := { s.regs with ksStartLo := d } }
  | .ksStartHi    => { s with regs := { s.regs with ksStartHi := d } }
  | .ksLimitLo    => { s with regs := { s.regs with ksLimitLo := d } }
  | .ksLimitHi    => { s with regs := { s.regs with ksLimitHi := d } }
  | .ctr0w0       => { s with regs := { s.regs with ctr0w0 := d } }
  | .ctr0w1       => { s with regs := { s.regs with ctr0w1 := d } }
  | .ctr0w2       => { s with regs := { s.regs with ctr0w2 := d } }
  | .ctr0w3       => { s with regs := { s.regs with ctr0w3 := d } }
  | .faultCause   => s
  | .faultAddrLo  => s
  | .faultAddrHi  => s

end Sys2Proof.Machine
end

