-- ==== Sys2Proof/Machine/Threshold.lean ====
section
/-! DEFINITION. The threshold comparator and the THRESHOLD command (40_threshold.md). -/

namespace Sys2Proof.Machine

/-- R110 on a non-negative value of `units` × 2^-149: `floor(65535 × p + 1/2)` with the product exact,
so that a tie goes up. -/
def roundThreshold (units : Nat) : Nat := (2 * 65535 * units + oneUnits) / (2 * oneUnits)

/-- `ComputeThreshold(p)` (R110). It is not defined outside `[0, 1]`, and no command asks for it there
(R115, 43_generate.md R192). -/
def computeThreshold (p : U32) : U16 := BitVec.ofNat 16 (roundThreshold (magnitudeOf p))

/-- `Decide(lane, T)` (R112): unsigned comparison, true for the bit 1. -/
def decideLane (lane t : U16) : Bool := decide (lane.toNat ≤ t.toNat)

/-- THRESHOLD's range check (R115): p is no NaN and `0 <= p <= 1`, exactly; −0 passes. -/
def inUnitInterval (p : U32) : Bool :=
  match f32 p with
  | .real m => decide (0 ≤ m ∧ m ≤ (oneUnits : Int))
  | .nan    => false
  | .negInf => false
  | .posInf => false

/-- The acceptance of a THRESHOLD (R115), in a state that does not drop the write. -/
def acceptThreshold (s : State) : State :=
  if inUnitInterval s.regs.prob then
    { accept (takeSnapshot .threshold s) s with thresh := computeThreshold s.regs.prob }
  else faultEntry .probRange (opcode .threshold) 0 s

/-- THRESHOLD (R115), in the step of its CMD write. Its completion is a later step (42_shard.md R176). -/
def execThreshold (s : State) : Result := .next (unlessBlocked s (acceptThreshold s))

end Sys2Proof.Machine
end

