-- ==== Sys2Proof/Machine/Keystream.lean ====
section
/-! DEFINITION. The keystream generator, the bit-packer and the KEYSTREAM command (41_keystream.md). -/

namespace Sys2Proof.Machine

/-! ## The AES round (R132 to R134) -/

/-- The S-box table of R132, rows 0 to 7 (row = high nibble). -/
def sboxRowsLow : List (List Byte) :=
  [[0x63, 0x7c, 0x77, 0x7b, 0xf2, 0x6b, 0x6f, 0xc5, 0x30, 0x01, 0x67, 0x2b, 0xfe, 0xd7, 0xab, 0x76],
   [0xca, 0x82, 0xc9, 0x7d, 0xfa, 0x59, 0x47, 0xf0, 0xad, 0xd4, 0xa2, 0xaf, 0x9c, 0xa4, 0x72, 0xc0],
   [0xb7, 0xfd, 0x93, 0x26, 0x36, 0x3f, 0xf7, 0xcc, 0x34, 0xa5, 0xe5, 0xf1, 0x71, 0xd8, 0x31, 0x15],
   [0x04, 0xc7, 0x23, 0xc3, 0x18, 0x96, 0x05, 0x9a, 0x07, 0x12, 0x80, 0xe2, 0xeb, 0x27, 0xb2, 0x75],
   [0x09, 0x83, 0x2c, 0x1a, 0x1b, 0x6e, 0x5a, 0xa0, 0x52, 0x3b, 0xd6, 0xb3, 0x29, 0xe3, 0x2f, 0x84],
   [0x53, 0xd1, 0x00, 0xed, 0x20, 0xfc, 0xb1, 0x5b, 0x6a, 0xcb, 0xbe, 0x39, 0x4a, 0x4c, 0x58, 0xcf],
   [0xd0, 0xef, 0xaa, 0xfb, 0x43, 0x4d, 0x33, 0x85, 0x45, 0xf9, 0x02, 0x7f, 0x50, 0x3c, 0x9f, 0xa8],
   [0x51, 0xa3, 0x40, 0x8f, 0x92, 0x9d, 0x38, 0xf5, 0xbc, 0xb6, 0xda, 0x21, 0x10, 0xff, 0xf3, 0xd2]]

/-- The S-box table of R132, rows 8 to F. -/
def sboxRowsHigh : List (List Byte) :=
  [[0xcd, 0x0c, 0x13, 0xec, 0x5f, 0x97, 0x44, 0x17, 0xc4, 0xa7, 0x7e, 0x3d, 0x64, 0x5d, 0x19, 0x73],
   [0x60, 0x81, 0x4f, 0xdc, 0x22, 0x2a, 0x90, 0x88, 0x46, 0xee, 0xb8, 0x14, 0xde, 0x5e, 0x0b, 0xdb],
   [0xe0, 0x32, 0x3a, 0x0a, 0x49, 0x06, 0x24, 0x5c, 0xc2, 0xd3, 0xac, 0x62, 0x91, 0x95, 0xe4, 0x79],
   [0xe7, 0xc8, 0x37, 0x6d, 0x8d, 0xd5, 0x4e, 0xa9, 0x6c, 0x56, 0xf4, 0xea, 0x65, 0x7a, 0xae, 0x08],
   [0xba, 0x78, 0x25, 0x2e, 0x1c, 0xa6, 0xb4, 0xc6, 0xe8, 0xdd, 0x74, 0x1f, 0x4b, 0xbd, 0x8b, 0x8a],
   [0x70, 0x3e, 0xb5, 0x66, 0x48, 0x03, 0xf6, 0x0e, 0x61, 0x35, 0x57, 0xb9, 0x86, 0xc1, 0x1d, 0x9e],
   [0xe1, 0xf8, 0x98, 0x11, 0x69, 0xd9, 0x8e, 0x94, 0x9b, 0x1e, 0x87, 0xe9, 0xce, 0x55, 0x28, 0xdf],
   [0x8c, 0xa1, 0x89, 0x0d, 0xbf, 0xe6, 0x42, 0x68, 0x41, 0x99, 0x2d, 0x0f, 0xb0, 0x54, 0xbb, 0x16]]

/-- `SBOX[b]` (R132). -/
def sbox (b : Byte) : Byte :=
  ((sboxRowsLow ++ sboxRowsHigh).getD (b.toNat / 16) []).getD (b.toNat % 16) 0

/-- SubBytes (R132). -/
def subBytes (s : List Byte) : List Byte := s.map sbox

/-- ShiftRows (R133): `s'[r + 4c] = s[r + 4((c + r) mod 4)]`. -/
def shiftRows (s : List Byte) : List Byte :=
  (List.range 16).map fun i => s.getD (i % 4 + 4 * ((i / 4 + i % 4) % 4)) 0

/-- `xtime` (R133). -/
def xtime (a : Byte) : Byte := (a <<< 1) ^^^ (if a.getLsbD 7 then 0x1B else 0)

/-- `mul2` (R133). -/
def mul2 (a : Byte) : Byte := xtime a

/-- `mul3` (R133). -/
def mul3 (a : Byte) : Byte := xtime a ^^^ a

/-- `a × x^i` in GF(2^8) modulo x^8+x^4+x^3+x+1 (R132, R133). -/
def gfShift (a : Byte) : Nat → Byte
  | 0     => a
  | i + 1 => xtime (gfShift a i)

/-- The product in GF(2^8) modulo x^8+x^4+x^3+x+1, as the sum of `a × x^i` over the bits `i` of `b`
(R132). It is not part of the round: it says what the S-box table is. -/
def gfMul (a b : Byte) : Byte :=
  (List.range 8).foldl (fun acc i => if b.getLsbD i then acc ^^^ gfShift a i else acc) 0

/-- Bit `i` of the affine map of R132 applied to `c`. -/
def affineBit (c : Byte) (i : Nat) : Bool :=
  (((c.getLsbD i ^^ c.getLsbD ((i + 4) % 8)) ^^ c.getLsbD ((i + 5) % 8))
    ^^ c.getLsbD ((i + 6) % 8)) ^^ c.getLsbD ((i + 7) % 8) ^^ (0x63 : Byte).getLsbD i

/-- One column of MixColumns (R133). -/
def mixColumn (a0 a1 a2 a3 : Byte) : List Byte :=
  [mul2 a0 ^^^ mul3 a1 ^^^ a2 ^^^ a3,
   a0 ^^^ mul2 a1 ^^^ mul3 a2 ^^^ a3,
   a0 ^^^ a1 ^^^ mul2 a2 ^^^ mul3 a3,
   mul3 a0 ^^^ a1 ^^^ a2 ^^^ mul2 a3]

/-- MixColumns (R133), column by column. -/
def mixColumns : List Byte → List Byte
  | a0 :: a1 :: a2 :: a3 :: rest => mixColumn a0 a1 a2 a3 ++ mixColumns rest
  | _                            => []

/-- The block function (R134): the round key first, by XOR, then substitution and diffusion. -/
def aesRound (d rk : U128) : U128 :=
  fromBytes (mixColumns (shiftRows (subBytes (bytesOf (d ^^^ rk)))))

/-! ## Counter, blocks and lanes (R135 to R137) -/

/-- `CTR(n) = CTR0 + n × STEP`, mod 2^128 (R135). -/
def counter (c : Config.Params) (ctr0 : U128) (n : Nat) : U128 :=
  ctr0 + BitVec.ofNat 128 n * c.step

/-- `Block(K, CTR0, n, s)` (R136): stream A where `streamB` is false, stream B where it is true. -/
def block (c : Config.Params) (key ctr0 : U128) (n : Nat) (streamB : Bool) : U128 :=
  if streamB then aesRound c.delta (key + c.delta + counter c ctr0 n)
  else aesRound 0 (key + counter c ctr0 n)

/-- `lane_l(X) = X[16l+15:16l]` (R137). -/
def lane (x : U128) (l : Nat) : U16 := x.extractLsb' (16 * l) 16

/-- `Decide8(X, T)` (40_threshold.md R114): element `l` is the decision of lane `l`. -/
def decide8 (x : U128) (t : U16) : List Bool :=
  (List.range Config.lanes).map fun l => decideLane (lane x l) t

/-! ## Bit assembly and packing (R138 to R141) -/

/-- `X(u, t)`, the block of sub-iteration `t` of Unit `u` (R138). -/
def subBlock (c : Config.Params) (key ctr0 : U128) (u t : Nat) : U128 :=
  block c key ctr0 (8 * u + t / 2) (t % 2 == 1)

/-- The 16 blocks of Unit `u`, in the order of their sub-iterations (R138). -/
def unitBlocks (c : Config.Params) (key ctr0 : U128) (u : Nat) : List U128 :=
  (List.range Config.subIter).map (subBlock c key ctr0 u)

/-- One assignment of R139, `ACC[l][15 − k] <- d`, on an accumulator whose bit `15 − k` is still 0. -/
def setAccBit (acc : U16) (k : Nat) (d : Bool) : U16 :=
  if d then acc ||| ((1 : U16) <<< (15 - k)) else acc

/-- R139's loop over the sub-iterations for the accumulator of lane `l`, from sub-iteration `k` on. -/
def accumulate (t : U16) (l : Nat) : List U128 → Nat → U16 → U16
  | [], _, acc      => acc
  | x :: xs, k, acc => accumulate t l xs (k + 1) (setAccBit acc k (decideLane (lane x l) t))

/-- `ACC[l]` after the blocks of a Unit (R139). -/
def accumulator (blocks : List U128) (t : U16) (l : Nat) : U16 := accumulate t l blocks 0 0

/-- R140: the eight accumulators as 16 bytes, each high byte first. -/
def packAccumulators (accs : List U16) : List Byte :=
  accs.flatMap fun a => [a.extractLsb' 8 8, a.extractLsb' 0 8]

/-- The bytes of a Unit from its 16 blocks (R139, R140). -/
def packBlocks (blocks : List U128) (t : U16) : List Byte :=
  packAccumulators ((List.range Config.lanes).map (accumulator blocks t))

/-- `UnitBytes(K, CTR0, u, T)` (R140). -/
def unitBytes (c : Config.Params) (key ctr0 : U128) (u : Nat) (t : U16) : List Byte :=
  packBlocks (unitBlocks c key ctr0 u) t

/-- `Keystream(K, CTR0, T, n)` (R141): Units 0 .. n-1, joined in order. -/
def keystreamBytes (c : Config.Params) (key ctr0 : U128) (t : U16) (n : Nat) : List Byte :=
  (List.range n).flatMap fun u => unitBytes c key ctr0 u t

/-! ## The source's pipelined form (R143) -/

/-- The two working round keys of the source's loop (R143). -/
structure RoundKeys where
  rka : U128
  rkb : U128
  deriving DecidableEq, Repr

/-- The round keys an invocation starts with (R143). -/
def pipeStart (c : Config.Params) (key ctr0 : U128) : RoundKeys :=
  { rka := key + ctr0, rkb := key + c.delta + ctr0 }

/-- "After every pair of cipher-state evaluations" both round keys advance (R143). -/
def pipeAdvance (c : Config.Params) (k : RoundKeys) : RoundKeys :=
  { rka := k.rka + c.step, rkb := k.rkb + c.step }

/-- `j` rounds of the loop's body, four states a round: the blocks in the order they are decided, and
the round keys after them (R143). -/
def pipeRounds (c : Config.Params) : Nat → RoundKeys → List U128 × RoundKeys
  | 0, k     => ([], k)
  | j + 1, k =>
    let k1 := pipeAdvance c k
    let rest := pipeRounds c j (pipeAdvance c k1)
    (aesRound 0 k.rka :: aesRound c.delta k.rkb
      :: aesRound 0 k1.rka :: aesRound c.delta k1.rkb :: rest.1, rest.2)

/-- One outer iteration: the bytes of one Unit and the round keys it leaves (R143). -/
def pipeUnit (c : Config.Params) (t : U16) (k : RoundKeys) : List Byte × RoundKeys :=
  let r := pipeRounds c 4 k
  (packBlocks r.1 t, r.2)

/-- The source's loop over `n` Units (R143). -/
def pipeInvocation (c : Config.Params) (t : U16) : Nat → RoundKeys → List Byte
  | 0, _     => []
  | n + 1, k => (pipeUnit c t k).1 ++ pipeInvocation c t n (pipeUnit c t k).2

/-! ## The KEYSTREAM command (R146) -/

/-- UNIT_RANGE's condition, computed exactly (60_exceptions.md R212). -/
def badUnitRange (r : Operands) : Bool :=
  decide ((limitOf r).toNat < (startOf r).toNat ∨ (outSizeOf r).toNat < 16 * (limitOf r).toNat)

/-- KEYSTREAM's work: one shard, or none where `start = limit` (R146, 90_conflicts.md C14). -/
def keystreamQueue (r : Operands) : List Shard :=
  if (startOf r).toNat < (limitOf r).toNat then
    [{ start := (startOf r).toNat, limit := (limitOf r).toNat, ctr0 := ctr0Of r }]
  else []

/-- The acceptance of a KEYSTREAM (R146), in a state that does not drop the write. -/
def acceptKeystream (s : State) : State :=
  if wraps s.regs then faultEntry .addrWrap (opcode .keystream) 0 s
  else if badUnitRange s.regs then faultEntry .unitRange (opcode .keystream) 0 s
  else { accept (takeSnapshot .keystream s) s with queue := keystreamQueue s.regs }

/-- KEYSTREAM (R146), in the step of its CMD write. Its dispatch, Unit and completion steps follow
(42_shard.md R173 to R176). -/
def execKeystream (s : State) : Result := .next (unlessBlocked s (acceptKeystream s))

end Sys2Proof.Machine
end

