-- ==== Sys2Proof/Machine/Generate.lean ====
section
/-! DEFINITION. The entry point: the class of p, the shard plan, and the GENERATE command
(43_generate.md, 42_shard.md R170 to R172). -/

namespace Sys2Proof.Machine

/-- The class of p (R190, R192). -/
inductive ProbClass where
  | low | high | range | normal
  deriving DecidableEq, Repr

/-- `class(p)` (R192), with exact comparisons in the order of the rule. A NaN fails every comparison;
−infinity is below and +infinity above every real (00_scope.md R8). -/
def classify (eps : Nat) (p : U32) : ProbClass :=
  match f32 p with
  | .negInf => .low
  | .posInf => .range
  | .nan    => .range
  | .real m =>
    if m ≤ (eps : Int) then .low
    else if m - (oneUnits : Int) ≤ (eps : Int) ∧ (oneUnits : Int) - m ≤ (eps : Int) then .high
    else if (oneUnits : Int) + (eps : Int) < m then .range
    else .normal

/-- The shard plan (42_shard.md R171) as ranges of Units. -/
def shardRanges (units shardUnits : Nat) : List (Nat × Nat) :=
  if units = 0 then []
  else if shardUnits = 0 ∨ units ≤ shardUnits then [(0, units)]
  else (List.range ((units + shardUnits - 1) / shardUnits)).map fun k =>
    (k * shardUnits, min ((k + 1) * shardUnits) units)

/-- `ctr0(a)`, the initial Counter of the shard that starts at Unit `a` (42_shard.md R172). -/
def shardCounter (c : Config.Params) (offset : Bool) (a : Nat) : U128 :=
  if offset then BitVec.ofNat 128 (8 * a) * c.step else 0

/-- The queue of a keystream-path GENERATE (R195). -/
def generateQueue (c : Config.Params) (offset : Bool) (units shardUnits : Nat) : List Shard :=
  (shardRanges units shardUnits).map fun r =>
    { start := r.1, limit := r.2, ctr0 := shardCounter c offset r.1 }

/-- The accepting step of a degenerate GENERATE: the fill agent starts with its byte (R193, R195). -/
def acceptFill (byte : Byte) (s : State) : State :=
  { accept (takeSnapshot .generate s) s with fill := some { byte := byte, k := 0 } }

/-- The accepting step of a keystream-path GENERATE (R195): THRESH is written and the shards queued. The
snapshot holds the Threshold that was computed (40_threshold.md R111). -/
def acceptShards (s : State) : State :=
  let t := computeThreshold s.regs.prob
  { accept { takeSnapshot .generate s with t := t } s with
    thresh := t
    queue := generateQueue s.cfg s.regs.ctrMode ((outSizeOf s.regs).toNat / 16) (shardUnitsOf s.regs).toNat }

/-- The acceptance of a GENERATE (R195), with its checks in the order of 60_exceptions.md R216. -/
def acceptGenerate (s : State) : State :=
  if wraps s.regs then faultEntry .addrWrap (opcode .generate) 0 s
  else match classify s.cfg.eps s.regs.prob with
    | .low    => acceptFill 0x00 s
    | .high   => acceptFill 0xFF s
    | .range  => faultEntry .probRange (opcode .generate) 0 s
    | .normal =>
      if (outSizeOf s.regs).toNat % 16 ≠ 0 then faultEntry .sizeAlign (opcode .generate) 0 s
      else acceptShards s

/-- GENERATE (R195), in the step of its CMD write. Its chunk steps, or its dispatch and Unit steps, and
its completion follow (42_shard.md R173 to R176). -/
def execGenerate (s : State) : Result := .next (unlessBlocked s (acceptGenerate s))

end Sys2Proof.Machine
end

