-- ==== Sys2Proof/Machine/Dispatch.lean ====
section
/-! DEFINITION. One arm per command: the effect of the CMD write of that command's word (10_state.md R29,
30_encoding.md R93). -/

namespace Sys2Proof.Machine

def exec (i : Instr) (s : State) : Host.Outcome State Fault Refusal :=
  match i with
  | .generate => Sys2Proof.Machine.execGenerate s
  | .threshold => Sys2Proof.Machine.execThreshold s
  | .keystream => Sys2Proof.Machine.execKeystream s

end Sys2Proof.Machine
end

