-- ==== Sys2Proof/Machine/Coordinator.lean ====
section
/-! DEFINITION. The target range of a running command and the bytes it writes there, and the steps of
KSG's own agents: dispatch, the Unit step, the chunk step, completion and fault entry (42_shard.md
R173 to R178, 41_keystream.md R145, 43_generate.md R193, 60_exceptions.md R213, R214). -/

namespace Sys2Proof.Machine

/-! ## What a command writes (R196, R178, R193) -/

/-- The target range `[first, past)` (R196). THRESHOLD writes no host memory (20_memory.md R61). -/
def targetRange (sn : Snapshot) : Nat × Nat :=
  match sn.op with
  | .generate  => (sn.out.toNat, sn.out.toNat + sn.size.toNat)
  | .threshold => (sn.out.toNat, sn.out.toNat)
  | .keystream => (sn.out.toNat + 16 * sn.start.toNat, sn.out.toNat + 16 * sn.limit.toNat)

/-- Is the host address `x` in the target range? -/
def inTarget (sn : Snapshot) (x : Nat) : Bool :=
  decide ((targetRange sn).1 ≤ x ∧ x < (targetRange sn).2)

/-- The first Unit of the shard that Unit `g` falls into under the plan of R171. -/
def shardStart (units shardUnits g : Nat) : Nat :=
  if shardUnits = 0 ∨ units ≤ shardUnits then 0 else g / shardUnits * shardUnits

/-- The Unit `g` of a keystream-path GENERATE (R178). -/
def generateUnit (c : Config.Params) (sn : Snapshot) (g : Nat) : List Byte :=
  let a := shardStart (sn.size.toNat / 16) sn.shardUnits.toNat g
  unitBytes c sn.key (shardCounter c sn.mode a) (g - a) sn.t

/-- The byte that the command gives the host address `x`: R178 and R193 for GENERATE, R146 for
KEYSTREAM; none outside the target range. -/
def commandByte (c : Config.Params) (sn : Snapshot) (x : Nat) : Option Byte :=
  if inTarget sn x then
    let i := x - sn.out.toNat
    match sn.op with
    | .threshold => none
    | .keystream => some ((unitBytes c sn.key sn.ctr0 (i / 16 - sn.start.toNat) sn.t).getD (i % 16) 0)
    | .generate  =>
      match classify c.eps sn.p with
      | .low    => some 0x00
      | .high   => some 0xFF
      | .range  => none
      | .normal => some ((generateUnit c sn (i / 16)).getD (i % 16) 0)
  else none

/-! ## Races with the host (20_memory.md R73, log 9, log 10) -/

/-- What a byte of the target range that the host wrote may hold when the command is over (R73(b), 93 U7):
the host's value or the command's. Where the command did not complete (`early`), what the byte was before
the command is a possibility too, and for a byte that had no value then, that is to have none (log 2, 10). -/
def raceWriteOptions (early : Bool) (sn : Snapshot) (c : Host.Cell) (s : State) : List (Option Byte) :=
  some c.2 :: ((commandByte s.cfg sn c.1).toList.map some
    ++ (if early then [memRead s.before c.1] else []))

/-- One raced byte is settled. -/
def settleRace (early : Bool) (sn : Snapshot) (c : Host.Cell) (s : State) : State :=
  let opts := raceWriteOptions early sn c s
  let pick := choose opts.length s
  { pick.2 with mem := memPut pick.2.mem c.1 (opts.getD pick.1 (some c.2)) }

/-- Every raced byte of the list is settled. -/
def settleRaces (early : Bool) (sn : Snapshot) : List Host.Cell → State → State
  | [], s        => s
  | c :: rest, s => settleRaces early sn rest (settleRace early sn c s)

/-- The races of the running command, settled; a state with no command is left as it is. -/
def endRaces (early : Bool) (s : State) : State :=
  match s.snap with
  | some sn => settleRaces early sn s.raced s
  | none    => s

/-! ## The steps of KSG's agents -/

/-- A step of the machine: the host's (or the platform's), or one of KSG's agents' (R174). -/
inductive Move where
  /-- The next pending event of the outside world. -/
  | host
  /-- R173: engine `e` gets shard `j` of the queue. -/
  | dispatch (e j : Nat)
  /-- 41_keystream.md R145: engine `e` writes its next Unit. -/
  | unit (e : Nat)
  /-- 43_generate.md R193: the fill agent writes its next chunk. -/
  | chunk
  /-- R176. -/
  | complete
  /-- 60_exceptions.md R214, for a pending fault. -/
  | takeFault
  deriving DecidableEq, Repr

/-- R173: engine `e` takes shard `j` out of the queue. -/
def dispatchStep (e j : Nat) (s : State) : State :=
  match s.queue[j]? with
  | some sh => { s with queue := s.queue.eraseIdx j, engines := s.engines.set e (.running sh 0) }
  | none    => s

/-- 60_exceptions.md R213: the refused transaction at `a` stores nothing; the first one is recorded. -/
def recordRefused (a : Nat) (s : State) : State :=
  match s.pending with
  | none   => { s with pending := some { code := .busError, addr := BitVec.ofNat 64 a } }
  | some _ => s

/-- The address of the Unit that an engine writes next, `OUT + 16 × g` (R145). -/
def unitAddr (sn : Snapshot) (sh : Shard) (u : Nat) : Nat := sn.out.toNat + 16 * (sh.start + u)

/-- What becomes of an engine that has just written Unit `u` of its shard (R145). -/
def afterUnit (sh : Shard) (u : Nat) : Engine :=
  if sh.start + (u + 1) = sh.limit then .idle else .running sh (u + 1)

/-- The Unit step of engine `e` (R145, R213). -/
def unitStep (e : Nat) (s : State) : State :=
  match s.snap, s.engines[e]? with
  | some sn, some (.running sh u) =>
    let a := unitAddr sn sh u
    if admits s.cfg a 16 then
      { s with
        mem := memWriteBytes s.mem a (unitBytes s.cfg sn.key sh.ctr0 u sn.t)
        engines := s.engines.set e (afterUnit sh u) }
    else recordRefused a { s with engines := s.engines.set e .idle }
  | _, _ => s

/-- How many chunks the fill of `n` bytes takes, `ceil(n / 16)` (R193). -/
def chunkCount (n : Nat) : Nat := (n + 15) / 16

/-- The length of chunk `k` of a fill of `n` bytes (R193). -/
def chunkLength (n k : Nat) : Nat := min 16 (n - 16 * k)

/-- The chunk step of the fill agent (R193, R213). -/
def chunkStep (s : State) : State :=
  match s.snap, s.fill with
  | some sn, some f =>
    let a := sn.out.toNat + 16 * f.k
    let n := chunkLength sn.size.toNat f.k
    if admits s.cfg a n then
      { s with
        mem := memWriteBytes s.mem a (List.replicate n f.byte)
        fill := some { f with k := f.k + 1 } }
    else recordRefused a { s with fill := none }
  | _, _ => s

/-- R176. -/
def completeStep (s : State) : State := completeCommand (endRaces false s)

/-- R214, the coordinator's step for a pending fault. FAULT_CAUSE.OP is the opcode of the running
command (R210). -/
def takeFaultStep (s : State) : State :=
  match s.snap, s.pending with
  | some sn, some p => faultEntry p.code (opcode sn.op) p.addr (endRaces true s)
  | _, _            => s

/-! ## Which steps are enabled (R175) -/

def Engine.isIdle : Engine → Bool
  | .idle        => true
  | .running _ _ => false

/-- R145: an engine that has a Unit left to write. -/
def Engine.hasUnit : Engine → Bool
  | .idle         => false
  | .running sh u => decide (sh.start + u < sh.limit)

/-- The engines for which a test holds, by number. -/
def enginesWhere (test : Engine → Bool) (s : State) : List Nat :=
  (List.range s.engines.length).filter fun e => test (s.engines.getD e .idle)

/-- R173: any idle engine and any shard of the queue. -/
def dispatchMoves (s : State) : List Move :=
  (enginesWhere Engine.isIdle s).flatMap fun e =>
    (List.range s.queue.length).map fun j => .dispatch e j

/-- R145. -/
def unitMoves (s : State) : List Move := (enginesWhere Engine.hasUnit s).map .unit

/-- R193: has the fill agent a chunk left? -/
def fillHasChunk (sn : Snapshot) (s : State) : Bool :=
  match s.fill with
  | some f => decide (f.k < chunkCount sn.size.toNat)
  | none   => false

/-- R193. -/
def chunkMoves (sn : Snapshot) (s : State) : List Move :=
  if fillHasChunk sn s then [.chunk] else []

/-- R176: nothing is left to do. -/
def workDone (sn : Snapshot) (s : State) : Bool :=
  s.status.busy && s.queue.isEmpty && s.engines.all Engine.isIdle && !fillHasChunk sn s

/-- R176. -/
def completeMoves (sn : Snapshot) (s : State) : List Move :=
  if workDone sn s then [.complete] else []

/-- The enabled steps of KSG's agents. While a fault is pending only fault entry is enabled (R213). -/
def agentMoves (s : State) : List Move :=
  match s.snap with
  | none    => []
  | some sn =>
    match s.pending with
    | some _ => [.takeFault]
    | none   => dispatchMoves s ++ unitMoves s ++ chunkMoves sn s ++ completeMoves sn s

end Sys2Proof.Machine
end

