-- ==== Sys2Proof/Machine/Bus.lean ====
section
/-! DEFINITION. The host's and the platform's steps: accesses to the register window (20_memory.md R64,
10_state.md R20 to R41), the host's own memory accesses (R73), WAIT (30_encoding.md R96) and reset
(70_reset_and_hazards.md R240, R241); and the choice of the next step (42_shard.md R175). -/

namespace Sys2Proof.Machine

/-! ## The register window -/

/-- The offset of a bus address from REG_BASE. -/
def windowOffset (c : Config.Params) (addr : U64) : Nat := (addr - c.regBase).toNat

/-- R64: a naturally aligned 32-bit access to the window. -/
def registerAccess (c : Config.Params) (addr : U64) (n : Nat) : Bool :=
  decide (n = 4 ∧ windowOffset c addr < 128 ∧ windowOffset c addr % 4 = 0)

/-- Does one of the `n` bytes of an access lie in the window? -/
def touchesWindow (c : Config.Params) (addr : U64) (n : Nat) : Bool :=
  (List.range n).any fun i =>
    decide (addr.toNat + i < 2 ^ 64 ∧ windowOffset c (addr + BitVec.ofNat 64 i) < 128)

/-- What a register access reads at an offset; a reserved offset reads 0 (R41). -/
def readOffset (off : Nat) (s : State) : U32 :=
  match regAt off with
  | some r => regRead r s
  | none   => 0

/-- A host write of `w` to CMD (R29): a legal word runs its command, any other takes ILLEGAL_CMD (R211);
each drops the write where R29 says so. -/
def commandWrite (w : U32) (s : State) : Result :=
  match decode (bytesOfWord w) with
  | .command i => exec i s
  | .illegal _ => .next (illegalCommand w s)

/-- What a register access writes at an offset; a write to a reserved offset is ignored (R41). -/
def writeOffset (off : Nat) (w : U32) (s : State) : Result :=
  match regAt off with
  | some .cmd => commandWrite w s
  | some r    => .next (regWrite r w s)
  | none      => .next s

/-! ## The host's own memory accesses -/

/-- The possible answers to a host read of a byte of the running command's target range (R73(a), 93 U6):
the value before the command, the command's, and the host's own where it wrote one (log 9). -/
def raceReadOptions (sn : Snapshot) (x : Nat) (s : State) : List (Option Byte) :=
  memRead s.before x
    :: ((commandByte s.cfg sn x).toList.map some ++ (memRead s.raced x).toList.map some)

/-- A host read of one byte of host memory. -/
def hostReadByte (x : Nat) (s : State) : Option Byte × State :=
  match s.snap with
  | none    => (memRead s.mem x, s)
  | some sn =>
    if inTarget sn x then
      let opts := raceReadOptions sn x s
      let pick := choose opts.length s
      (opts.getD pick.1 none, pick.2)
    else (memRead s.mem x, s)

/-- A host read of `n` bytes from `x` on, byte by byte (R67: atomic only per byte). -/
def hostReadBytes : Nat → Nat → State → List (Option Byte) × State
  | _, 0, s     => ([], s)
  | x, n + 1, s =>
    let b := hostReadByte x s
    let rest := hostReadBytes (x + 1) n b.2
    (b.1 :: rest.1, rest.2)

/-- The bytes of a host write that fall into the running command's target range (R73(b)). -/
def raceWrite (sn : Snapshot) : Memory → Nat → List Byte → Memory
  | m, _, []      => m
  | m, x, b :: bs => raceWrite sn (if inTarget sn x then memWrite m x b else m) (x + 1) bs

/-- A host write of bytes from `x` on. -/
def hostWriteBytes (x : Nat) (bytes : List Byte) (s : State) : State :=
  { s with
    mem := memWriteBytes s.mem x bytes
    raced := match s.snap with
      | some sn => raceWrite sn s.raced x bytes
      | none    => s.raced }

/-! ## Events -/

/-- An access is answered. -/
def answer (r : BusReply) (s : State) : State := { s with replies := r :: s.replies }

/-- The reply to a register read: four bytes, the lowest first (R62). -/
def wordReply (w : U32) : BusReply := .data ((bytesOfWord w).map some)

/-- A host read (R64; log 6, log 8). A read of host memory is always answered with data (DESIGN CHOICE, log
21). -/
def hostRead (addr : U64) (n : Nat) (s : State) : Result :=
  if registerAccess s.cfg addr n then
    .next (answer (wordReply (readOffset (windowOffset s.cfg addr) s)) s)
  else if touchesWindow s.cfg addr n then .next (answer .busError s)
  else if 2 ^ 64 < addr.toNat + n then .fault .hostAccessPastMemory
  else
    let r := hostReadBytes addr.toNat n s
    .next (answer (.data r.1) r.2)

/-- A host write (R64; log 6, log 8). DESIGN CHOICE (log 21): `Admit` (20_memory.md R68, R70) is asked for
KSG's transactions only; a host write to host memory is always stored, whatever `cfg.refuse` says. Whether
the platform refuses the host's own writes as well, the spec leaves open. -/
def hostWrite (addr : U64) (bytes : List Byte) (s : State) : Result :=
  if registerAccess s.cfg addr bytes.length then
    writeOffset (windowOffset s.cfg addr)
      (wordOfBytes (bytes.getD 0 0) (bytes.getD 1 0) (bytes.getD 2 0) (bytes.getD 3 0))
      (answer .written s)
  else if touchesWindow s.cfg addr bytes.length then .next (answer .busError s)
  else if 2 ^ 64 < addr.toNat + bytes.length then .fault .hostAccessPastMemory
  else .next (answer .written (hostWriteBytes addr.toNat bytes s))

/-- One read of the host's WAIT (30_encoding.md R96): it waits on while BUSY = 1. -/
def hostWait (s : State) : State :=
  let s1 := answer (wordReply (regRead .status s)) s
  if s.status.busy then { s1 with bus := .wait :: s1.bus } else s1

/-- The reset step (R240), at any time (R241). -/
def resetStep (s : State) : State := platformReset (endRaces true s)

/-- One event of the outside world. -/
def hostEvent (ev : HostEvent) (s : State) : Result :=
  match ev with
  | .read addr n      => hostRead addr n s
  | .write addr bytes => hostWrite addr bytes s
  | .wait             => .next (hostWait s)
  | .reset            => .next (resetStep s)

/-- The next pending event happens (R79: in order). -/
def hostStep (s : State) : Result :=
  match s.bus with
  | ev :: rest => hostEvent ev { s with bus := rest }
  | []         => .next s

/-! ## The next step (42_shard.md R175) -/

/-- The outside world's step, where it has one pending. -/
def hostMoves (s : State) : List Move := if s.bus.isEmpty then [] else [.host]

/-- Every enabled step. -/
def moves (s : State) : List Move := hostMoves s ++ agentMoves s

/-- The effect of a step. -/
def runMove (m : Move) (s : State) : Result :=
  match m with
  | .host         => hostStep s
  | .dispatch e j => .next (dispatchStep e j s)
  | .unit e       => .next (unitStep e s)
  | .chunk        => .next (chunkStep s)
  | .complete     => .next (completeStep s)
  | .takeFault    => .next (takeFaultStep s)

/-- The step that comes next, any enabled one (R175, log 3), and the state in which that choice is settled;
none where none is enabled. -/
def nextMove (s : State) : Option (Move × State) :=
  match moves s with
  | []      => none
  | m :: ms =>
    let pick := choose (ms.length + 1) s
    some ((m :: ms).getD pick.1 m, pick.2)

/-- The next step is taken. With none enabled, KSG is idle and the outside world silent: nothing changes
(60_exceptions.md R226). -/
def takeStep (s : State) : Result :=
  match nextMove s with
  | none   => .next s
  | some p => runMove p.1 p.2

/-! ## Placing a command word -/

/-- The offset of CMD (10_state.md R29). -/
def cmdOffset : U64 := 0x10

/-- The host's write of a word to CMD, as a bus event (30_encoding.md R96, CMDW). -/
def cmdEvent (c : Config.Params) (w : U32) : HostEvent :=
  .write (c.regBase + cmdOffset) (bytesOfWord w)

/-- The state in which the host's next event is the write of `w` to CMD and the very next step is that
event: the host's event stands first among the enabled steps, and the settled choice 0 takes it. -/
def placeCommand (w : U32) (s : State) : State :=
  { s with bus := cmdEvent s.cfg w :: s.bus, choices := 0 :: s.choices }

end Sys2Proof.Machine
end

