-- ==== Sys2Proof/Machine/HostAssembly.lean ====
section
/-! DEFINITION. The host's assembly lines, their expansions, their encoding, and the bus events they are
(30_encoding.md R96 to R98). -/

namespace Sys2Proof.Machine

/-- The registers of WR64 (R97): every pair of a `_LO` and a `_HI` register of R20. A write to the pair
FAULT_ADDR is ignored, because its registers are RO (R40). -/
inductive Reg64 where
  | seed | seed1 | outAddr | outSize | shardUnits | ksStart | ksLimit | faultAddr
  deriving DecidableEq, Repr

/-- A line of a host program (R96) or a pseudo-instruction (R97). -/
inductive HostLine where
  | wr (r : Reg) (v : U32)
  | rd (r : Reg)
  | cmd (i : Instr)
  | cmdw (w : U32)
  | wait
  | clr (done fault overrun : Bool)
  | wr64 (r : Reg64) (v : U64)
  | wr128 (v : U128)
  | gen (pbits : U32) (seed seed1 out n : U64) (s : Option U64) (mode : Option U32)
  | ks (start limit : U64) (ctr0 : U128)
  | thr (pbits : U32)
  deriving DecidableEq, Repr

/-- One record of an encoded program (R98): `W off=data`, `R off`, or the host's loop WAIT. -/
inductive BusRecord where
  | w (off : Nat) (data : U32)
  | r (off : Nat)
  | poll
  deriving DecidableEq, Repr

/-- The two registers of a pair, `_LO` first (R97). -/
def reg64Halves : Reg64 → Reg × Reg
  | .seed       => (.seedLo, .seedHi)
  | .seed1      => (.seed1Lo, .seed1Hi)
  | .outAddr    => (.outAddrLo, .outAddrHi)
  | .outSize    => (.outSizeLo, .outSizeHi)
  | .shardUnits => (.shardUnitsLo, .shardUnitsHi)
  | .ksStart    => (.ksStartLo, .ksStartHi)
  | .ksLimit    => (.ksLimitLo, .ksLimitHi)
  | .faultAddr  => (.faultAddrLo, .faultAddrHi)

/-- A register write (R96, R98). -/
def recordWr (r : Reg) (v : U32) : BusRecord := .w (regOffset r) v

/-- WR64 (R97). -/
def recordsWr64 (r : Reg64) (v : U64) : List BusRecord :=
  [recordWr (reg64Halves r).1 (v.extractLsb' 0 32), recordWr (reg64Halves r).2 (v.extractLsb' 32 32)]

/-- WR128 CTR0 (R97). -/
def recordsWr128 (v : U128) : List BusRecord :=
  [recordWr .ctr0w0 (v.extractLsb' 0 32), recordWr .ctr0w1 (v.extractLsb' 32 32),
   recordWr .ctr0w2 (v.extractLsb' 64 32), recordWr .ctr0w3 (v.extractLsb' 96 32)]

/-- CMD (R96). -/
def recordCmd (i : Instr) : BusRecord := recordWr .cmd (encode i)

/-- The encoding of a line (R96 to R98). -/
def encodeLine : HostLine → List BusRecord
  | .wr r v      => [recordWr r v]
  | .rd r        => [.r (regOffset r)]
  | .cmd i       => [recordCmd i]
  | .cmdw w      => [recordWr .cmd w]
  | .wait        => [.poll]
  | .clr d f o   => [recordWr .status (flagBit d 1 ||| flagBit f 2 ||| flagBit o 3)]
  | .wr64 r v    => recordsWr64 r v
  | .wr128 v     => recordsWr128 v
  | .gen pbits seed seed1 out n s mode =>
    recordWr .prob pbits :: recordsWr64 .seed seed ++ recordsWr64 .seed1 seed1
      ++ recordsWr64 .outAddr out ++ recordsWr64 .outSize n ++ recordsWr64 .shardUnits (s.getD 0)
      ++ [recordWr .ctrl (mode.getD 0), recordCmd .generate, .poll]
  | .ks start limit ctr0 =>
    recordsWr64 .ksStart start ++ recordsWr64 .ksLimit limit ++ recordsWr128 ctr0
      ++ [recordCmd .keystream, .poll]
  | .thr pbits   => [recordWr .prob pbits, recordCmd .threshold, .poll]

/-- The bus event of a record, at `REG_BASE + off` (R96). -/
def recordEvent (c : Config.Params) : BusRecord → HostEvent
  | .w off data => .write (c.regBase + BitVec.ofNat 64 off) (bytesOfWord data)
  | .r off      => .read (c.regBase + BitVec.ofNat 64 off) 4
  | .poll       => .wait

/-- The bus events of a host program (R98). -/
def programEvents (c : Config.Params) (p : List HostLine) : List HostEvent :=
  (p.flatMap encodeLine).map (recordEvent c)

end Sys2Proof.Machine
end

