-- ==== Sys2Proof/Machine/Step.lean ====
section
/-! DEFINITION. One step of the machine (42_shard.md R175), and the placing of a command word where the
next step takes it up. -/

namespace Sys2Proof.Machine

/-- One atomic step of one agent (R175), the host's among them. -/
def step (s : State) : Host.Outcome State Fault Refusal := takeStep s

/-- The state whose very next step is the host's write to CMD of the word `w` of `nbits` bits, every bit
above them 0 (log 5). -/
def State.withFetchWord (s : State) (nbits w : Nat) : State :=
  placeCommand (BitVec.ofNat 32 (w % 2 ^ nbits)) s

end Sys2Proof.Machine
end

