-- ==== Sys2Proof/Safety.lean ====
section
/-! DEFINITION. The terms claims are stated in: the machine invariant, the launch premise (70 R251), the
host's duty (70 R244), the run of a command to its end (70 R248), and its step bound (70 R249). -/

namespace Sys2Proof.Machine

/-! ## The invariant -/

/-- A shard that belongs to the running command: it is not empty, and every byte its engine will write is
the byte the command gives that address (42_shard.md R178, 41_keystream.md R146). -/
structure ShardFits (c : Config.Params) (sn : Snapshot) (sh : Shard) : Prop where
  nonempty : sh.start < sh.limit
  bytes : ∀ g j, sh.start ≤ g → g < sh.limit → j < 16 →
    commandByte c sn (sn.out.toNat + 16 * g + j)
      = some ((unitBytes c sn.key sh.ctr0 (g - sh.start) sn.t).getD j 0)

/-- An engine that is idle, or runs a fitting shard with a Unit left (10_state.md R44). -/
def EngineFits (c : Config.Params) (sn : Snapshot) : Engine → Prop
  | .idle         => True
  | .running sh u => ShardFits c sn sh ∧ sh.start + u < sh.limit

/-- What holds while a command with snapshot `sn` runs. -/
structure Running (s : State) (sn : Snapshot) : Prop where
  /-- R25, R26, R27: BUSY is 1, DONE and FAULT are 0. -/
  flags : s.status.busy = true ∧ s.status.done = false ∧ s.status.fault = false
  /-- 20_memory.md R69: the target range lies inside the address space. -/
  space : (targetRange sn).2 ≤ 2 ^ 64
  queue : ∀ sh ∈ s.queue, ShardFits s.cfg sn sh
  engines : ∀ e ∈ s.engines, EngineFits s.cfg sn e
  /-- 43_generate.md R193: a running fill is inside its range, and its byte is the command's. -/
  fill : ∀ f, s.fill = some f → sn.op = .generate ∧ f.k ≤ chunkCount sn.size.toNat ∧
    ∀ x, inTarget sn x = true → commandByte s.cfg sn x = some f.byte
  /-- 60_exceptions.md R213: only BUS_ERROR becomes pending, at an address of the target range. -/
  pending : ∀ p, s.pending = some p → p.code = .busError ∧ inTarget sn p.addr.toNat = true
  /-- 20_memory.md R73: only bytes of the target range can be raced for. -/
  raced : ∀ c ∈ s.raced, inTarget sn c.1 = true

/-- What holds while no command runs (60_exceptions.md R226): nothing is left of the last one. -/
structure Resting (s : State) : Prop where
  busy : s.status.busy = false
  queue : s.queue = []
  engines : ∀ e ∈ s.engines, e = .idle
  fill : s.fill = none
  pending : s.pending = none
  before : s.before = []
  raced : s.raced = []

/-- The invariant of the machine. -/
structure MachineInv (s : State) : Prop where
  memForm : Memory.wf s.mem = true
  beforeForm : Memory.wf s.before = true
  racedForm : Memory.wf s.raced = true
  /-- W >= 1 (R22). -/
  hasEngine : s.engines ≠ []
  resting : s.snap = none → Resting s
  running : ∀ sn, s.snap = some sn → Running s sn
  /-- R39, R40: the record is clear exactly while FAULT = 0. -/
  recordClear : s.status.fault = false → s.record = .clear
  recordSet : s.status.fault = true → s.record.code ≠ .none ∧ s.status.done = false
  /-- R40: FAULT_ADDR is 0 unless the fault is a BUS_ERROR. -/
  faultAddr : s.record.code ≠ .busError → s.record.addr = 0

/-! ## Premises of claims -/

/-- `CleanEntry` (70 R251) but for its last point, that every operand register holds what the host meant:
a claim states those values itself. -/
structure CleanEntry (s : State) : Prop where
  busy : s.status.busy = false
  fault : s.status.fault = false
  overrun : s.status.overrun = false
  queue : s.queue = []
  pending : s.pending = none
  engines : ∀ e ∈ s.engines, e = .idle
  fill : s.fill = none

/-- Does an access of `n` bytes at `addr` keep off the target range? An access to the register window
reaches no host memory (log 8). -/
def accessKeepsOff (c : Config.Params) (sn : Snapshot) (addr : U64) (n : Nat) : Prop :=
  touchesWindow c addr n = true ∨ ∀ i, i < n → inTarget sn (addr.toNat + i) = false

/-- The host's duty towards a running command (70 R244), and no reset (70 R248). -/
def KeepsOff (c : Config.Params) (sn : Snapshot) : HostEvent → Prop
  | .read addr n      => accessKeepsOff c sn addr n
  | .write addr bytes => accessKeepsOff c sn addr bytes.length
  | .wait             => True
  | .reset            => False

/-! ## The run of a command -/

/-- The state after `n` steps, BUSY being 1 before each of them. -/
def runWhileBusy : Nat → State → Option State
  | 0, s     => some s
  | n + 1, s =>
    if s.status.busy then
      match step s with
      | .next t    => runWhileBusy n t
      | .fault _   => none
      | .refused _ => none
    else none

/-- In each of the next `n` steps that is the outside world's, what it does keeps its duty. What it has
pending beyond those steps is free: a host that waits for the end and then reads the result (70 R243)
keeps its duty for the run. -/
def KeepsDuty (sn : Snapshot) : Nat → State → Prop
  | 0, _     => True
  | n + 1, s =>
    (∀ s' ev, nextMove s = some (.host, s') → s.bus.head? = some ev → KeepsOff s.cfg sn ev) ∧
    ∀ t, step s = .next t → KeepsDuty sn n t

/-- The command `i` is written in `s`, which does not drop it, and accepted with the snapshot `sn`; for
the run the host keeps to its duty and no reset comes (70 R251); and some number of steps later, BUSY
having been 1 all along, the machine is in `t`. The steps between are any that the schedule takes
(42_shard.md R175). -/
def CommandReaches (i : Instr) (s : State) (sn : Snapshot) (t : State) : Prop :=
  MachineInv s ∧ blocked s = false ∧ ∃ s1 n, exec i s = .next s1 ∧ s1.snap = some sn ∧
    KeepsDuty sn n s1 ∧ runWhileBusy n s1 = some t

/-- The same, and `t` is the end of the command: the first state in which BUSY = 0 (70 R248). -/
def CommandEnds (i : Instr) (s : State) (sn : Snapshot) (t : State) : Prop :=
  CommandReaches i s sn t ∧ t.status.busy = false

/-- Nothing the outside world has pending writes. -/
def HostWritesNothing (s : State) : Prop := ∀ addr bytes, HostEvent.write addr bytes ∉ s.bus

/-- Nothing the outside world has pending writes the host address `x`. -/
def HostLeavesByte (s : State) (x : Nat) : Prop :=
  ∀ addr bytes, HostEvent.write addr bytes ∈ s.bus →
    x < addr.toNat ∨ addr.toNat + bytes.length ≤ x

/-! ## Termination (70 R249) -/

/-- Is the next step one of KSG's own agents? -/
def ksgStepNext (s : State) : Bool :=
  match nextMove s with
  | none              => false
  | some (.host, _)   => false
  | some _            => true

/-- How many of the next `n` steps, as long as BUSY = 1, are KSG's own (70 R249 counts these, and lets any
number of host steps come between). -/
def ksgSteps : Nat → State → Nat
  | 0, _     => 0
  | n + 1, s =>
    if s.status.busy then
      (ksgStepNext s).toNat +
        match step s with
        | .next t    => ksgSteps n t
        | .fault _   => 0
        | .refused _ => 0
    else 0

/-- Weak fairness (42_shard.md R175) of the run from `s` on while BUSY = 1: a step of KSG's agents that is
enabled at some point of the run is taken at it or later, or is at some later point not enabled any
more, or the run ends. -/
def WeaklyFair (s : State) : Prop :=
  ∀ n t m, runWhileBusy n s = some t → t.status.busy = true → m ∈ agentMoves t →
    ∃ k u, runWhileBusy (n + k) s = some u ∧
      (u.status.busy = false ∨ m ∉ agentMoves u ∨ ∃ u', nextMove u = some (m, u'))

/-- The bound of 70 R249 on KSG's own steps of an accepted command. -/
def stepBound (i : Instr) (s : State) : Nat :=
  match i with
  | .threshold => 1
  | .keystream => 1 + ((limitOf s.regs).toNat - (startOf s.regs).toNat) + 1
  | .generate  =>
    match classify s.cfg.eps s.regs.prob with
    | .normal =>
      (shardRanges ((outSizeOf s.regs).toNat / 16) (shardUnitsOf s.regs).toNat).length
        + (outSizeOf s.regs).toNat / 16 + 1
    | .low    => chunkCount (outSizeOf s.regs).toNat + 1
    | .high   => chunkCount (outSizeOf s.regs).toNat + 1
    | .range  => 0

end Sys2Proof.Machine
end

