-- ==== Sys2Proof/Certificates/Slice0/Obligations.lean ====
section
/-! DEFINITION. The statements for the provers, each with the rule of spec/ it formalises. A statement
holds for every schedule: the enabled step that comes next is never assumed. -/

open Sys2Proof Sys2Proof.Machine

/-! ## Encoding (30_encoding.md) -/

/-- R91: a word is legal iff RSV = 0 and OP is assigned, a legal word names one command, and any other
word faults ILLEGAL_CMD (code 1, OP = w[7:0], FAULT_ADDR 0) unless it is dropped. -/
def Obligations.LegalWordsAndIllegalOnes : Prop :=
  ∀ w : U32,
    ((∃ i, decode (bytesOfWord w) = .command i) ↔
      (w.extractLsb' 8 24 = 0 ∧
        (w.extractLsb' 0 8 = 0x01 ∨ w.extractLsb' 0 8 = 0x02 ∨ w.extractLsb' 0 8 = 0x03))) ∧
    ((∀ i, decode (bytesOfWord w) ≠ .command i) →
      ∀ s, s.status.busy = false → s.status.fault = false →
        commandWrite w s = .next (faultEntry .illegalCmd (w.extractLsb' 0 8) 0 s))

/-- Decoding the encoding of every command gives the command back, and a word that decodes to a command
is that command's encoding (R91, R98). -/
def Obligations.DecodeEncodeRoundTrip : Prop :=
  (∀ i, decode (bytesOfWord (encode i)) = .command i ∧
    decodeTableWord 32 (encode i).toNat = some i) ∧
  ∀ w i, decode (bytesOfWord w) = .command i → w = encode i

/-- R98's table of encodings, and one word of each kind that R95 reserves. -/
def Obligations.EncodingTableDecodes : Prop :=
  decodeWord 0b00000000000000000000000000000001 = .command .generate ∧
  decodeWord 0b00000000000000000000000000000010 = .command .threshold ∧
  decodeWord 0b00000000000000000000000000000011 = .command .keystream ∧
  decodeWord 0x00000000 = .illegal (.reservedOpcode 0x00) ∧
  decodeWord 0x00000004 = .illegal (.reservedOpcode 0x04) ∧
  decodeWord 0x00000101 = .illegal .reservedBits

/-- A step runs the decoded command: with the host's CMD write of a word that decodes to `i` placed next,
the step is `exec i` of the state in which that write has been taken off the bus and answered. The second
clause says it of the host's step wherever it comes. The bus and the placing are the model's (log 4, 5).
-/
def Obligations.StepRunsTheDecodedCommand : Prop :=
  (∀ (s : State) (w : U32) (i : Instr), decode (bytesOfWord w) = .command i →
    step (placeCommand w s) = exec i (answer .written s)) ∧
  (∀ (s : State) (nbits w : Nat) (i : Instr), decodeTableWord nbits w = some i →
    step (s.withFetchWord nbits w) = exec i (answer .written s)) ∧
  ∀ (s : State) (w : U32) (i : Instr) (rest : List HostEvent),
    s.bus = cmdEvent s.cfg w :: rest → decode (bytesOfWord w) = .command i →
    runMove .host s = exec i (answer .written { s with bus := rest })

/-- R29: while BUSY or FAULT is 1 a CMD write is dropped, OVERRUN is set and nothing else changes;
otherwise the word is decoded and run, or faulted as ILLEGAL_CMD. CMD reads 0. -/
def Obligations.CommandWriteDroppedOrDecoded : Prop :=
  (∀ (w : U32) (i : Instr) (s : State), (s.status.busy = true ∨ s.status.fault = true) →
    writeOffset 0x10 w s = .next { s with status := { s.status with overrun := true } } ∧
    exec i s = .next { s with status := { s.status with overrun := true } }) ∧
  (∀ (w : U32) (s : State), s.status.busy = false → s.status.fault = false →
    (∀ i, decode (bytesOfWord w) = .command i → writeOffset 0x10 w s = exec i s) ∧
    (∀ e, decode (bytesOfWord w) = .illegal e →
      writeOffset 0x10 w s = .next (faultEntry .illegalCmd (w.extractLsb' 0 8) 0 s))) ∧
  ∀ s : State, readOffset 0x10 s = 0

/-! ## THRESHOLD and the comparator (40_threshold.md) -/

/-- R115, acceptance: for every p with `0 <= p <= 1` (m units of 2^-149, −0 included), THRESHOLD writes
to THRESH the T of R110, `T = floor(65535 × p + 1/2)`, sets BUSY, clears DONE, takes the snapshot, and
changes nothing else. The fields `before` and `raced` are the model's (log 9, 10). -/
def Obligations.ThresholdIsAccepted : Prop :=
  ∀ (s : State) (m : Int), s.status.busy = false → s.status.fault = false →
    f32 s.regs.prob = .real m → 0 ≤ m → m ≤ 2 ^ 149 →
    ∃ T : U16,
      ((T.toNat : Int) * 2 ^ 150 ≤ 2 * 65535 * m + 2 ^ 149 ∧
        2 * 65535 * m + 2 ^ 149 < ((T.toNat : Int) + 1) * 2 ^ 150) ∧
      exec .threshold s = .next { s with
        thresh := T
        status := { s.status with busy := true, done := false }
        snap := some (takeSnapshot .threshold s)
        before := s.mem
        raced := [] }

/-- R115, R212: THRESHOLD faults PROB_RANGE, with OP = 0x02, for NaN, for ±infinity, for p < 0 and for
p > 1; THRESH keeps its value. -/
def Obligations.ThresholdFaultsOutsideUnitInterval : Prop :=
  ∀ s : State, s.status.busy = false → s.status.fault = false →
    (∀ m, f32 s.regs.prob = .real m → m < 0 ∨ 2 ^ 149 < m) →
    exec .threshold s = .next (faultEntry .probRange 0x02 0 s)

/-- R115, R176: from a resting machine with nothing pending on the bus, an accepted THRESHOLD is followed
by its completion step: DONE = 1, BUSY = 0, THRESH written, no host byte changed. -/
def Obligations.ThresholdRunsToDone : Prop :=
  ∀ (s : State), MachineInv s → s.status.busy = false → s.status.fault = false → s.bus = [] →
    inUnitInterval s.regs.prob = true →
    ∃ s1 t, exec .threshold s = .next s1 ∧ step s1 = .next t ∧
      t.status = { s.status with busy := false, done := true } ∧
      t.thresh = computeThreshold s.regs.prob ∧ t.regs = s.regs ∧ t.mem = s.mem ∧
      t.record = s.record ∧ t.snap = none

/-- R111 (derived by the spec from R110) and R110's tie: ComputeThreshold never decreases; it is 0
exactly for `p < 1/131070` (largest pattern 0x37000080) and 65535 exactly for `p >= 131069/131070`
(smallest pattern 0x3F7FFF80); ±0 gives 0 and 1 gives 65535; and p = 0.5 is the only tie, which goes up
to 32768. -/
def Obligations.ThresholdProperties : Prop :=
  (∀ p q : U32, inUnitInterval p = true → inUnitInterval q = true →
    magnitudeOf p ≤ magnitudeOf q → (computeThreshold p).toNat ≤ (computeThreshold q).toNat) ∧
  (computeThreshold 0x00000000 = 0 ∧ computeThreshold 0x80000000 = 0 ∧
    computeThreshold 0x3F800000 = 65535) ∧
  (∀ p : U32, p.getLsbD 31 = false → inUnitInterval p = true →
    (computeThreshold p = 0 ↔ 131070 * magnitudeOf p < 2 ^ 149) ∧
    (computeThreshold p = 0 ↔ p.toNat ≤ 0x37000080) ∧
    (computeThreshold p = 65535 ↔ 131069 * 2 ^ 149 ≤ 131070 * magnitudeOf p) ∧
    (computeThreshold p = 65535 ↔ 0x3F7FFF80 ≤ p.toNat)) ∧
  (∀ p : U32, inUnitInterval p = true →
    ((2 * 65535 * magnitudeOf p) % 2 ^ 150 = 2 ^ 149 ↔ p = 0x3F000000)) ∧
  computeThreshold 0x3F000000 = 32768

/-- R112: `Decide(lane, T) = 1` iff `T >= lane`, unsigned, with the rule's four corner cases. -/
def Obligations.DecideComparesUnsigned : Prop :=
  (∀ lane T : U16, decideLane lane T = true ↔ lane.toNat ≤ T.toNat) ∧
  (∀ lane : U16, decideLane lane 0 = true ↔ lane = 0) ∧
  (∀ lane : U16, decideLane lane 65535 = true) ∧
  (∀ T : U16, decideLane T T = true) ∧
  ∀ T : U16, T ≠ 65535 → decideLane (T + 1) T = false

/-- R113 (derived by the spec from R112), the rate law: of the 65536 lane values exactly `T + 1` are
kept; so p just above EPS still keeps one lane value, and p = 1 − 2^-17 keeps all. -/
def Obligations.DecideRateLaw : Prop :=
  (∀ T : U16,
    ((List.range 65536).filter fun l => decideLane (BitVec.ofNat 16 l) T).length = T.toNat + 1) ∧
  computeThreshold 0x34000001 = 0 ∧ computeThreshold 0x3F7FFF80 = 65535

/-! ## The keystream (41_keystream.md, 00_scope.md R9) -/

/-- R9 and R137: `fromBytes` is the inverse of `bytes`, byte 0 the least significant; the pair `(hi, lo)`
is `hi × 2^64 + lo`; lane l of a block is its byte 2l (low) and byte 2l+1 (high), `X[16l+15:16l]`. -/
def Obligations.BytesAndLanesAreLittleEndian : Prop :=
  (∀ x : U128, (bytesOf x).length = 16 ∧ fromBytes (bytesOf x) = x) ∧
  (∀ (x : U128) (i : Nat), i < 16 → (bytesOf x)[i]? = some (x.extractLsb' (8 * i) 8)) ∧
  (∀ bs : List Byte, bs.length = 16 → bytesOf (fromBytes bs) = bs) ∧
  (∀ hi lo : U64, (hi ++ lo : U128).toNat = hi.toNat * 2 ^ 64 + lo.toNat) ∧
  ∀ (x : U128) (l : Nat), l < 8 →
    lane x l = (byteOf x (2 * l)).setWidth 16 + 256 * (byteOf x (2 * l + 1)).setWidth 16 ∧
    lane x l = x.extractLsb' (16 * l) 16

/-- R132: every entry of the S-box table is the affine map of R132 applied to the inverse in GF(2^8) (with
the inverse of 0 taken as 0), and the table is a permutation. -/
def Obligations.SboxIsAffineOfInverse : Prop :=
  (∀ b : Byte, ∃ c : Byte, ((b = 0 ∧ c = 0) ∨ (b ≠ 0 ∧ gfMul b c = 1)) ∧
    ∀ i, i < 8 → (sbox b).getLsbD i = affineBit c i) ∧
  ∀ a b : Byte, sbox a = sbox b → a = b

/-- R134 with R133, byte by byte: in column c, with `a_r = SBOX[bytes(D ⊕ RK)[r + 4((c + r) mod 4)]]`, the
four bytes of the block are the four sums of MixColumns. -/
def Obligations.AesRoundByteByByte : Prop :=
  ∀ (d rk : U128) (c : Nat), c < 4 →
    let a := fun r => sbox (byteOf (d ^^^ rk) (r + 4 * ((c + r) % 4)))
    byteOf (aesRound d rk) (4 * c) = mul2 (a 0) ^^^ mul3 (a 1) ^^^ a 2 ^^^ a 3 ∧
    byteOf (aesRound d rk) (1 + 4 * c) = a 0 ^^^ mul2 (a 1) ^^^ mul3 (a 2) ^^^ a 3 ∧
    byteOf (aesRound d rk) (2 + 4 * c) = a 0 ^^^ a 1 ^^^ mul2 (a 2) ^^^ mul3 (a 3) ∧
    byteOf (aesRound d rk) (3 + 4 * c) = mul3 (a 0) ^^^ a 1 ^^^ a 2 ^^^ mul2 (a 3)

/-- R135 with 90_conflicts.md C12: because STEP is odd, no Counter value repeats within 2^128 advances. -/
def Obligations.CounterNeverRepeats : Prop :=
  ∀ (c : Config.Params) (ctr0 : U128) (n m : Nat), c.step.getLsbD 0 = true →
    n < 2 ^ 128 → m < 2 ^ 128 → counter c ctr0 n = counter c ctr0 m → n = m

/-- R142 (derived by the spec from R138 to R140), both directions: where the decision `(u, t, l)` of an
invocation sits, and which decision each bit of byte `16u + m` is. -/
def Obligations.BitAddressOfADecision : Prop :=
  ∀ (c : Config.Params) (key ctr0 : U128) (T : U16) (n u : Nat), u < n →
    (∀ t l, t < 16 → l < 8 →
      ((keystreamBytes c key ctr0 T n).getD (16 * u + 2 * l + t / 8) 0).getLsbD (7 - t % 8)
        = decideLane (lane (block c key ctr0 (8 * u + t / 2) (t % 2 == 1)) l) T) ∧
    ∀ k m, k < 8 → m < 16 →
      ((keystreamBytes c key ctr0 T n).getD (16 * u + m) 0).getLsbD (7 - k)
        = decideLane (lane (block c key ctr0 (8 * u + (8 * (m % 2) + k) / 2)
            ((8 * (m % 2) + k) % 2 == 1)) (m / 2)) T

/-- R143 (derived by the spec from R135, R136, R138): the source's four-state loop over n Units computes
exactly `Keystream(K, CTR0, T, n)`. -/
def Obligations.PipelineComputesTheKeystream : Prop :=
  ∀ (c : Config.Params) (key ctr0 : U128) (T : U16) (n : Nat),
    pipeInvocation c T n (pipeStart c key ctr0) = keystreamBytes c key ctr0 T n

/-- R144 (derived by the spec from R138, R143): one Unit of the loop evaluates 16 blocks, and after c
Units the round keys stand at `K + (CTR0 + 8c × STEP)` and `K + DELTA + (CTR0 + 8c × STEP)`. -/
def Obligations.PipelineAdvancesEightPerUnit : Prop :=
  ∀ (c : Config.Params) (key ctr0 : U128) (T : U16) (n : Nat),
    (pipeRounds c 4 (pipeStart c key ctr0)).1.length = 16 ∧
    (fun k => (pipeUnit c T k).2)^[n] (pipeStart c key ctr0)
      = { rka := key + (ctr0 + BitVec.ofNat 128 (8 * n) * c.step)
          rkb := key + c.delta + (ctr0 + BitVec.ofNat 128 (8 * n) * c.step) }

/-! ## KEYSTREAM (41_keystream.md R146) -/

/-- R146, acceptance: with `OUT + N <= 2^64`, `start <= limit` and `16 × limit <= N` (exact), KEYSTREAM
sets BUSY, clears DONE, takes the snapshot and queues the shard `(start, limit, CTR0)`, or nothing where
`start = limit`; nothing else changes. The fields `before` and `raced` are the model's (log 9, 10). -/
def Obligations.KeystreamIsAccepted : Prop :=
  ∀ s : State, s.status.busy = false → s.status.fault = false →
    (outOf s.regs).toNat + (outSizeOf s.regs).toNat ≤ 2 ^ 64 →
    (startOf s.regs).toNat ≤ (limitOf s.regs).toNat →
    16 * (limitOf s.regs).toNat ≤ (outSizeOf s.regs).toNat →
    exec .keystream s = .next { s with
      status := { s.status with busy := true, done := false }
      snap := some (takeSnapshot .keystream s)
      queue := if (startOf s.regs).toNat < (limitOf s.regs).toNat then
          [{ start := (startOf s.regs).toNat, limit := (limitOf s.regs).toNat,
             ctr0 := ctr0Of s.regs }]
        else []
      before := s.mem
      raced := [] }

/-- R216 steps 4 to 6, R212: the pre-checks in their order. KEYSTREAM: ADDR_WRAP, then UNIT_RANGE.
GENERATE: ADDR_WRAP before the class of p, PROB_RANGE before the size, SIZE_ALIGN on the NORMAL path
only. -/
def Obligations.PreCheckFaultsInOrder : Prop :=
  ∀ s : State, s.status.busy = false → s.status.fault = false →
    (2 ^ 64 < (outOf s.regs).toNat + (outSizeOf s.regs).toNat →
      exec .keystream s = .next (faultEntry .addrWrap 0x03 0 s) ∧
      exec .generate s = .next (faultEntry .addrWrap 0x01 0 s)) ∧
    ((outOf s.regs).toNat + (outSizeOf s.regs).toNat ≤ 2 ^ 64 →
      (((limitOf s.regs).toNat < (startOf s.regs).toNat ∨
          (outSizeOf s.regs).toNat < 16 * (limitOf s.regs).toNat) →
        exec .keystream s = .next (faultEntry .unitRange 0x03 0 s)) ∧
      (classify s.cfg.eps s.regs.prob = .range →
        exec .generate s = .next (faultEntry .probRange 0x01 0 s)) ∧
      (classify s.cfg.eps s.regs.prob = .normal → (outSizeOf s.regs).toNat % 16 ≠ 0 →
        exec .generate s = .next (faultEntry .sizeAlign 0x01 0 s)))

/-! ## GENERATE (43_generate.md) -/

/-- R192: the class of p, by exact comparisons; NORMAL p lies strictly between 0 and 1; with the default
EPS the HIGH patterns are the four the rule names; and RANGE is a fault. EPS is counted in units of
2^-149 (log 12). -/
def Obligations.ClassOfProbability : Prop :=
  (∀ (eps : Nat) (p : U32),
    (classify eps p = .low ↔ f32 p = .negInf ∨ ∃ m, f32 p = .real m ∧ m ≤ eps) ∧
    (classify eps p = .high ↔
      ∃ m, f32 p = .real m ∧ ¬ m ≤ eps ∧ (m - 2 ^ 149).natAbs ≤ eps) ∧
    (classify eps p = .range ↔ f32 p = .nan ∨ f32 p = .posInf ∨
      ∃ m, f32 p = .real m ∧ ¬ m ≤ eps ∧ 2 ^ 149 + (eps : Int) < m) ∧
    (classify eps p = .normal → ∃ m, f32 p = .real m ∧ (eps : Int) < m ∧ m < 2 ^ 149 - (eps : Int) ∧
      0 < m ∧ m < 2 ^ 149)) ∧
  (∀ p : U32, classify Config.defaultEps p = .high ↔
    p = 0x3F7FFFFE ∨ p = 0x3F7FFFFF ∨ p = 0x3F800000 ∨ p = 0x3F800001) ∧
  ∀ s : State, s.status.busy = false → s.status.fault = false →
    (outOf s.regs).toNat + (outSizeOf s.regs).toNat ≤ 2 ^ 64 →
    classify s.cfg.eps s.regs.prob = .range →
    exec .generate s = .next (faultEntry .probRange 0x01 0 s)

/-- R195 with R193, acceptance of a degenerate GENERATE: the fill agent starts with 0x00 (LOW) or 0xFF
(HIGH), for every N; THRESH and everything else keep their values. The fields `before` and `raced` are
the model's (log 9, 10). -/
def Obligations.GenerateFillIsAccepted : Prop :=
  ∀ s : State, s.status.busy = false → s.status.fault = false →
    (outOf s.regs).toNat + (outSizeOf s.regs).toNat ≤ 2 ^ 64 →
    ∀ F : Byte,
    ((classify s.cfg.eps s.regs.prob = .low ∧ F = 0x00) ∨
      (classify s.cfg.eps s.regs.prob = .high ∧ F = 0xFF)) →
    exec .generate s = .next { s with
      status := { s.status with busy := true, done := false }
      snap := some (takeSnapshot .generate s)
      fill := some { byte := F, k := 0 }
      before := s.mem
      raced := [] }

/-- R195, acceptance of a keystream-path GENERATE: THRESH and the snapshot's T are ComputeThreshold(p),
the queue holds the shards of `Shards(N div 16, S)` with their initial Counters, BUSY is set and DONE
cleared; nothing else changes. The fields `before` and `raced` are the model's (log 9, 10). -/
def Obligations.GenerateShardsAreAccepted : Prop :=
  ∀ s : State, s.status.busy = false → s.status.fault = false →
    (outOf s.regs).toNat + (outSizeOf s.regs).toNat ≤ 2 ^ 64 →
    classify s.cfg.eps s.regs.prob = .normal →
    (outSizeOf s.regs).toNat % 16 = 0 →
    exec .generate s = .next { s with
      status := { s.status with busy := true, done := false }
      thresh := computeThreshold s.regs.prob
      snap := some { takeSnapshot .generate s with t := computeThreshold s.regs.prob }
      queue := (shardRanges ((outSizeOf s.regs).toNat / 16) (shardUnitsOf s.regs).toNat).map fun r =>
        { start := r.1, limit := r.2, ctr0 := shardCounter s.cfg s.regs.ctrMode r.1 }
      before := s.mem
      raced := [] }

/-! ## Shards (42_shard.md R171, R172) -/

/-- R171: no shard for U = 0, one for S = 0 or S >= U; always the shards are non-empty and, joined in
order, list every Unit of `[0, U)` once and in order (contiguous, disjoint, increasing, covering); and
every shard but the last has S Units. -/
def Obligations.ShardsPartitionTheUnits : Prop :=
  ∀ U S : Nat,
    (U = 0 → shardRanges U S = []) ∧
    (0 < U → (S = 0 ∨ U ≤ S) → shardRanges U S = [(0, U)]) ∧
    (0 < S → S < U → ∀ k, k < (U + S - 1) / S →
      (shardRanges U S)[k]? = some (k * S, min ((k + 1) * S) U)) ∧
    (∀ r ∈ shardRanges U S, r.1 < r.2) ∧
    (shardRanges U S).flatMap (fun r => List.range' r.1 (r.2 - r.1)) = List.range U ∧
    ∀ r ∈ (shardRanges U S).dropLast, r.2 - r.1 = S

/-- R172: a shard's initial Counter is 0 in RESTART mode and `(8 × a × STEP) mod 2^128` in OFFSET mode. -/
def Obligations.ShardInitialCounter : Prop :=
  ∀ (c : Config.Params) (a : Nat),
    shardCounter c false a = 0 ∧
    (shardCounter c true a).toNat = (8 * a * c.step.toNat) % 2 ^ 128

/-! ## The steps of KSG's agents -/

/-- R173: dispatch is enabled for any idle engine and any queued shard, and only while no fault is
pending; it moves that shard from the queue to that engine and changes nothing else. -/
def Obligations.DispatchStepRule : Prop :=
  (∀ (s : State) (e j : Nat), Move.dispatch e j ∈ agentMoves s ↔
    s.snap.isSome ∧ s.pending = none ∧ s.engines[e]? = some .idle ∧ j < s.queue.length) ∧
  ∀ (s : State) (e j : Nat) (sh : Shard), s.queue[j]? = some sh →
    runMove (.dispatch e j) s = .next { s with
      queue := s.queue.eraseIdx j
      engines := s.engines.set e (.running sh 0) }

/-- R145: while no fault is pending, a running engine with a Unit left writes the 16 bytes
`UnitBytes(K, ctr0, u, T)` at `OUT + 16 × (a + u)` and advances, going idle after its last Unit; every
other byte of memory and all other state keep their values. -/
def Obligations.UnitStepWritesOneUnit : Prop :=
  ∀ (s : State) (e : Nat) (sn : Snapshot) (sh : Shard) (u : Nat),
    s.snap = some sn → s.pending = none → s.engines[e]? = some (.running sh u) →
    sh.start + u < sh.limit → admits s.cfg (sn.out.toNat + 16 * (sh.start + u)) 16 = true →
    Move.unit e ∈ agentMoves s ∧
    ∃ M, runMove (.unit e) s = .next { s with
        mem := M
        engines := s.engines.set e
          (if sh.start + (u + 1) = sh.limit then .idle else .running sh (u + 1)) } ∧
      (∀ j, j < 16 → memRead M (sn.out.toNat + 16 * (sh.start + u) + j)
        = (unitBytes s.cfg sn.key sh.ctr0 u sn.t)[j]?) ∧
      ∀ x, (x < sn.out.toNat + 16 * (sh.start + u) ∨ sn.out.toNat + 16 * (sh.start + u) + 16 ≤ x) →
        memRead M x = memRead s.mem x

/-- R193: the chunk step writes `min(16, N − 16k)` bytes F at `OUT + 16k` and goes on to the next chunk;
every other byte and all other state keep their values. -/
def Obligations.ChunkStepWritesOneChunk : Prop :=
  ∀ (s : State) (sn : Snapshot) (f : FillAgent),
    s.snap = some sn → s.pending = none → s.fill = some f → 16 * f.k < sn.size.toNat →
    admits s.cfg (sn.out.toNat + 16 * f.k) (min 16 (sn.size.toNat - 16 * f.k)) = true →
    Move.chunk ∈ agentMoves s ∧
    ∃ M, runMove .chunk s = .next { s with mem := M, fill := some { f with k := f.k + 1 } } ∧
      (∀ j, j < min 16 (sn.size.toNat - 16 * f.k) →
        memRead M (sn.out.toNat + 16 * f.k + j) = some f.byte) ∧
      ∀ x, (x < sn.out.toNat + 16 * f.k ∨
          sn.out.toNat + 16 * f.k + min 16 (sn.size.toNat - 16 * f.k) ≤ x) →
        memRead M x = memRead s.mem x

/-- R213: a transaction that `Admit` refuses stores nothing, its agent stops, and BUS_ERROR with the
transaction's first byte address becomes pending, unless a fault already is. While a fault is pending,
fault entry is the only step KSG's agents have. -/
def Obligations.RefusedWriteBecomesPending : Prop :=
  (∀ (s : State) (e : Nat) (sn : Snapshot) (sh : Shard) (u : Nat),
    s.snap = some sn → s.engines[e]? = some (.running sh u) →
    admits s.cfg (sn.out.toNat + 16 * (sh.start + u)) 16 = false →
    runMove (.unit e) s = .next { s with
      engines := s.engines.set e .idle
      pending := match s.pending with
        | none   => some ⟨.busError, BitVec.ofNat 64 (sn.out.toNat + 16 * (sh.start + u))⟩
        | some p => some p }) ∧
  (∀ (s : State) (sn : Snapshot) (f : FillAgent),
    s.snap = some sn → s.fill = some f →
    admits s.cfg (sn.out.toNat + 16 * f.k) (min 16 (sn.size.toNat - 16 * f.k)) = false →
    runMove .chunk s = .next { s with
      fill := none
      pending := match s.pending with
        | none   => some ⟨.busError, BitVec.ofNat 64 (sn.out.toNat + 16 * f.k)⟩
        | some p => some p }) ∧
  ∀ (s : State) (p : PendingFault) (m : Move), s.pending = some p → m ∈ agentMoves s → m = .takeFault

/-- R176: completion is enabled exactly when BUSY = 1, the queue is empty, every engine is idle, the fill
agent has no chunk left and no fault is pending; it clears BUSY, sets DONE and discards the snapshot.
(Host memory keeps its bytes where the host raced for none.) How races are settled is the model's (log
10). -/
def Obligations.CompletionStepRule : Prop :=
  (∀ (s : State) (sn : Snapshot), s.snap = some sn →
    (Move.complete ∈ agentMoves s ↔
      s.pending = none ∧ s.status.busy = true ∧ s.queue = [] ∧ (∀ e ∈ s.engines, e = .idle) ∧
        ∀ f, s.fill = some f → chunkCount sn.size.toNat ≤ f.k)) ∧
  ∀ s : State, ∃ t, runMove .complete s = .next t ∧
    t.status = { s.status with busy := false, done := true } ∧ t.snap = none ∧
    t.record = s.record ∧ t.thresh = s.thresh ∧ t.regs = s.regs ∧ t.queue = s.queue ∧
    t.engines = s.engines ∧ t.pending = s.pending ∧ t.cfg = s.cfg ∧ t.bus = s.bus ∧
    (s.raced = [] → t.mem = s.mem)

/-- R210: the number of each code. R214: fault entry empties the queue, stops every agent, clears BUSY and
DONE, sets FAULT, records the code, OP and FAULT_ADDR, and discards the snapshot; no other register and no
host byte changes. For a pending fault (R213) it is the coordinator's step, the only one enabled, with the
pending code and address and the running command's opcode (R210). How races are settled is the model's
(log 10). -/
def Obligations.FaultEntryRule : Prop :=
  (causeCode .none = 0 ∧ causeCode .illegalCmd = 1 ∧ causeCode .probRange = 2 ∧
    causeCode .sizeAlign = 3 ∧ causeCode .unitRange = 4 ∧ causeCode .addrWrap = 5 ∧
    causeCode .busError = 6) ∧
  (∀ (s : State) (code : Cause) (op : Byte) (faddr : U64),
    let t := faultEntry code op faddr s
    t.queue = [] ∧ (∀ e ∈ t.engines, e = .idle) ∧ t.engines.length = s.engines.length ∧
    t.fill = none ∧ t.pending = none ∧ t.snap = none ∧
    t.status = { s.status with busy := false, done := false, fault := true } ∧
    regRead .faultCause t = (0 : BitVec 16) ++ op ++ (0 : BitVec 4) ++ causeCode code ∧
    (regRead .faultAddrHi t ++ regRead .faultAddrLo t : U64) = faddr ∧
    t.thresh = s.thresh ∧ t.regs = s.regs ∧ t.mem = s.mem) ∧
  ∀ (s : State) (sn : Snapshot) (p : PendingFault), s.snap = some sn → s.pending = some p →
    agentMoves s = [.takeFault] ∧
    ∃ s', runMove .takeFault s = .next (faultEntry p.code (opcode sn.op) p.addr s') ∧
      s'.status = s.status ∧ s'.engines = s.engines ∧ s'.thresh = s.thresh ∧ s'.regs = s.regs ∧
      s'.cfg = s.cfg ∧ s'.bus = s.bus ∧ (s.raced = [] → s'.mem = s.mem)

/-- R69, R74: no step of KSG's agents changes a host byte outside the running command's target range. -/
def Obligations.AgentsStayInTargetRange : Prop :=
  ∀ (s t : State) (sn : Snapshot) (m : Move), MachineInv s → s.snap = some sn → m ∈ agentMoves s →
    runMove m s = .next t → ∀ x, inTarget sn x = false → memRead t.mem x = memRead s.mem x

/-- The frame of KSG's agents: no step of theirs changes an operand register, THRESH, OVERRUN, a parameter,
the number of engines or what the host has pending; dispatch, Unit and chunk steps change no flag and no
fault record either. -/
def Obligations.AgentFrame : Prop :=
  ∀ (s t : State) (m : Move), m ∈ agentMoves s → runMove m s = .next t →
    t.regs = s.regs ∧ t.thresh = s.thresh ∧ t.status.overrun = s.status.overrun ∧ t.cfg = s.cfg ∧
    t.engines.length = s.engines.length ∧ t.bus = s.bus ∧ t.replies = s.replies ∧
    ((∃ e j, m = .dispatch e j) ∨ (∃ e, m = .unit e) ∨ m = .chunk →
      t.status = s.status ∧ t.record = s.record)

/-- R61, R77: no step of KSG's agents depends on host memory: with any other memory the same step does the
same to everything else, and a byte of memory holds afterwards what it holds in the other run, or keeps
its own value in both. -/
def Obligations.AgentsNeverReadHostMemory : Prop :=
  ∀ (s t : State) (m : Move) (M : Memory), m ∈ agentMoves s → runMove m s = .next t →
    m ∈ agentMoves { s with mem := M } ∧
    ∃ M', runMove m { s with mem := M } = .next { t with mem := M' } ∧
      ∀ x, memRead M' x = memRead t.mem x ∨
        (memRead t.mem x = memRead s.mem x ∧ memRead M' x = memRead M x)

/-- R175: any enabled step may come next (there is a choice that takes it), and a step that takes place
is an enabled one, or nothing was enabled and nothing happened. The tape of choices is the model's (log
3). -/
def Obligations.AnyEnabledStepMayComeNext : Prop :=
  (∀ (s : State) (m : Move), m ∈ moves s →
    ∃ k, step { s with choices := k :: s.choices } = runMove m s) ∧
  ∀ s t : State, step s = .next t →
    (moves s = [] ∧ t = s) ∨
    ∃ m ∈ moves s, ∃ cs d, runMove m { s with choices := cs, draws := d } = .next t

/-! ## Registers (10_state.md) -/

/-- R24 to R28, R39: STATUS reads its four flags in bits 0 to 3 and FAULT_CAUSE its CODE in bits 3:0 and OP
in bits 15:8, 0 elsewhere. A host write to STATUS leaves BUSY alone; a 1 clears DONE or OVERRUN; a 1 to
FAULT clears FAULT and its record together (R27, R217); a 0 leaves its bit alone; nothing else changes. -/
def Obligations.StatusReadsAndWriteOneToClear : Prop :=
  (∀ s : State,
    (readOffset 0x0C s).toNat = s.status.busy.toNat + 2 * s.status.done.toNat
      + 4 * s.status.fault.toNat + 8 * s.status.overrun.toNat ∧
    (readOffset 0x70 s).toNat = (causeCode s.record.code).toNat + 256 * s.record.op.toNat) ∧
  ∀ (s : State) (d : U32),
    writeOffset 0x0C d s = .next { s with
      status := {
        busy := s.status.busy
        done := s.status.done && !d.getLsbD 1
        fault := s.status.fault && !d.getLsbD 2
        overrun := s.status.overrun && !d.getLsbD 3 }
      record := if d.getLsbD 2 then { code := .none, op := 0, addr := 0 } else s.record }

/-- R20, R41: the map of R20, offset by offset; each register is there, once; and exactly the four reserved
offsets hold none, read 0 and ignore writes. -/
def Obligations.RegisterMapIsComplete : Prop :=
  (∀ p ∈ [(0x00, Reg.id), (0x04, .numEngines), (0x08, .ctrl), (0x0C, .status), (0x10, .cmd),
      (0x14, .prob), (0x18, .thresh), (0x20, .seedLo), (0x24, .seedHi), (0x28, .seed1Lo),
      (0x2C, .seed1Hi), (0x30, .outAddrLo), (0x34, .outAddrHi), (0x38, .outSizeLo),
      (0x3C, .outSizeHi), (0x40, .shardUnitsLo), (0x44, .shardUnitsHi), (0x48, .ksStartLo),
      (0x4C, .ksStartHi), (0x50, .ksLimitLo), (0x54, .ksLimitHi), (0x60, .ctr0w0),
      (0x64, .ctr0w1), (0x68, .ctr0w2), (0x6C, .ctr0w3), (0x70, .faultCause),
      (0x78, .faultAddrLo), (0x7C, .faultAddrHi)],
    regAt p.1 = some p.2 ∧ regOffset p.2 = p.1) ∧
  (∀ r, regAt (regOffset r) = some r ∧ regOffset r % 4 = 0 ∧ regOffset r < 128) ∧
  ∀ off, off < 128 → off % 4 = 0 →
    ((regAt off = none ↔ off = 0x1C ∨ off = 0x58 ∨ off = 0x5C ∨ off = 0x74) ∧
     (regAt off = none → ∀ (s : State) (d : U32), readOffset off s = 0 ∧ writeOffset off d s = .next s))

/-- R20's access kinds: an RW register reads back what was written to its fields and 0 elsewhere, an RO
register ignores a write, and a write to one register changes what no other reads, but that a write to
STATUS also clears the fault record. (A host write to CMD is the command itself, R29, and is stated as
such elsewhere; `regWrite` does nothing there.) -/
def Obligations.RegisterReadAfterWrite : Prop :=
  (∀ (r : Reg) (d : U32) (s : State),
    regRead r (regWrite r d s) =
      match r with
      | .id          => 0x4B534731
      | .numEngines  => regRead .numEngines s
      | .ctrl        => d &&& 0x00000001
      | .status      => regRead .status s &&& ~~~(d &&& 0x0000000E)
      | .cmd         => 0
      | .thresh      => d &&& 0x0000FFFF
      | .faultCause  => regRead .faultCause s
      | .faultAddrLo => regRead .faultAddrLo s
      | .faultAddrHi => regRead .faultAddrHi s
      | _            => d) ∧
  ∀ (r r' : Reg) (d : U32) (s : State), r ≠ r' →
    (r = .status → r' ≠ .faultCause ∧ r' ≠ .faultAddrLo ∧ r' ≠ .faultAddrHi) →
    regRead r' (regWrite r d s) = regRead r' s

/-- R64, R62: the host's aligned 32-bit accesses at `REG_BASE + off` read and write the register there,
little-endian; any other access that touches the window gets a bus error and changes no state of KSG (the
reply is the host's). That an access which overlaps the window only in part is one to the window is
DEDUCED (log 8). -/
def Obligations.WindowAccessRule : Prop :=
  (∀ (s : State) (off : Nat) (w : U32), off < 128 → off % 4 = 0 →
    hostRead (s.cfg.regBase + BitVec.ofNat 64 off) 4 s
      = .next (answer (.data ((bytesOfWord (readOffset off s)).map some)) s) ∧
    hostWrite (s.cfg.regBase + BitVec.ofNat 64 off) (bytesOfWord w) s
      = writeOffset off w (answer .written s)) ∧
  ∀ (s : State) (addr : U64),
    (∀ n i, i < n → addr.toNat + i < 2 ^ 64 →
      (addr + BitVec.ofNat 64 i - s.cfg.regBase).toNat < 128 →
      ¬ (n = 4 ∧ (addr - s.cfg.regBase).toNat < 128 ∧ (addr - s.cfg.regBase).toNat % 4 = 0) →
      hostRead addr n s = .next { s with replies := .busError :: s.replies } ∧
      ∀ bytes : List Byte, bytes.length = n →
        hostWrite addr bytes s = .next { s with replies := .busError :: s.replies })

/-- R94, R97, R131: a write to PROB, THRESH or CTRL gives p, T or the mode; the two register writes of WR64
make the 64-bit operand the value, the four of WR128 make CTR0 the value, and the Key is seed1 (high) and
seed (low). -/
def Obligations.OperandAssembly : Prop :=
  (∀ (s : State) (v : U32),
    (regWrite .prob v s).regs.prob = v ∧ (regWrite .thresh v s).thresh = v.extractLsb' 0 16 ∧
    (regWrite .ctrl v s).regs.ctrMode = v.getLsbD 0) ∧
  (∀ (s : State) (v : U64),
    seedOf (regWrite .seedHi (v.extractLsb' 32 32) (regWrite .seedLo (v.extractLsb' 0 32) s)).regs = v ∧
    seed1Of (regWrite .seed1Hi (v.extractLsb' 32 32) (regWrite .seed1Lo (v.extractLsb' 0 32) s)).regs = v ∧
    outOf (regWrite .outAddrHi (v.extractLsb' 32 32) (regWrite .outAddrLo (v.extractLsb' 0 32) s)).regs = v ∧
    outSizeOf (regWrite .outSizeHi (v.extractLsb' 32 32)
      (regWrite .outSizeLo (v.extractLsb' 0 32) s)).regs = v ∧
    shardUnitsOf (regWrite .shardUnitsHi (v.extractLsb' 32 32)
      (regWrite .shardUnitsLo (v.extractLsb' 0 32) s)).regs = v ∧
    startOf (regWrite .ksStartHi (v.extractLsb' 32 32) (regWrite .ksStartLo (v.extractLsb' 0 32) s)).regs = v ∧
    limitOf (regWrite .ksLimitHi (v.extractLsb' 32 32) (regWrite .ksLimitLo (v.extractLsb' 0 32) s)).regs = v) ∧
  (∀ (s : State) (v : U128),
    ctr0Of (regWrite .ctr0w3 (v.extractLsb' 96 32) (regWrite .ctr0w2 (v.extractLsb' 64 32)
      (regWrite .ctr0w1 (v.extractLsb' 32 32) (regWrite .ctr0w0 (v.extractLsb' 0 32) s)))).regs = v) ∧
  ∀ r : Operands, (keyOf r).toNat = (seed1Of r).toNat * 2 ^ 64 + (seedOf r).toNat ∧
    (∀ i, i < 8 → byteOf (keyOf r) i = (seedOf r).extractLsb' (8 * i) 8) ∧
    ∀ i, i < 8 → byteOf (keyOf r) (8 + i) = (seed1Of r).extractLsb' (8 * i) 8

/-- R96, R98, R64: the lines WR and RD of a host program are the write and the read of their register;
CMD is the write of the command's word to CMD; and WAIT reads STATUS, and is over once it reads BUSY = 0
(KSG's own steps come between its reads). WAIT as one pending event is the model's (log 4). -/
def Obligations.HostLinesAreRegisterAccesses : Prop :=
  (∀ (r : Reg) (v : U32) (s : State) (rest : List HostEvent), r ≠ .cmd →
    s.bus = programEvents s.cfg [.wr r v] ++ rest →
    runMove .host s = .next (regWrite r v (answer .written { s with bus := rest }))) ∧
  (∀ (r : Reg) (s : State) (rest : List HostEvent), s.bus = programEvents s.cfg [.rd r] ++ rest →
    runMove .host s
      = .next (answer (.data ((bytesOfWord (regRead r s)).map some)) { s with bus := rest })) ∧
  (∀ (i : Instr) (s : State) (rest : List HostEvent), s.bus = programEvents s.cfg [.cmd i] ++ rest →
    runMove .host s = exec i (answer .written { s with bus := rest })) ∧
  ∀ (s : State) (rest : List HostEvent), s.bus = programEvents s.cfg [.wait] ++ rest →
    runMove .host s
      = .next (answer (.data ((bytesOfWord (regRead .status s)).map some))
          { s with bus := if s.status.busy then s.bus else rest })

/-! ## Reset (70_reset_and_hazards.md R240) -/

/-- R240, R20: after a reset step every register reads its reset value, every agent is stopped, and KSG's
parameters are as before; host memory is not touched (where the host raced for no byte of it). The state
after reset of a KSG with any number of engines and any parameters reads the same, and `CleanEntry`
(R251) holds in it. How races are settled, and what reset leaves of the model's own fields, is the
model's (log 10, 16). -/
def Obligations.ResetRule : Prop :=
  (∀ s : State, ∃ t, hostEvent .reset s = .next t ∧
    (∀ r, regRead r t =
      match r with
      | .id         => 0x4B534731
      | .numEngines => regRead .numEngines s
      | _           => 0) ∧
    t.snap = none ∧ t.queue = [] ∧ t.pending = none ∧ t.fill = none ∧
    (∀ e ∈ t.engines, e = .idle) ∧ t.engines.length = s.engines.length ∧ t.cfg = s.cfg ∧
    (s.raced = [] → t.mem = s.mem)) ∧
  ∀ (c : Config.Params) (w : Nat),
    (∀ r, regRead r (State.resetOf c w) =
      match r with
      | .id         => 0x4B534731
      | .numEngines => BitVec.ofNat 32 w
      | _           => 0) ∧
    (State.resetOf c w).snap = none ∧ (State.resetOf c w).engines.length = w ∧
    CleanEntry (State.resetOf c w)

/-! ## The invariant -/

/-- The state after reset of a KSG with at least one engine meets the invariant, `State.reset` among
them (its one engine and its parameters are the model's choice, log 1). -/
def Obligations.ResetMeetsInvariant : Prop :=
  (∀ (c : Config.Params) (w : Nat), 1 ≤ w → MachineInv (State.resetOf c w)) ∧ MachineInv State.reset

/-- Every step keeps the invariant, whichever step it is, and no step changes W (R22: NUM_ENGINES reads W
at every time) or a parameter (R5). -/
def Obligations.StepKeepsInvariant : Prop :=
  ∀ s t : State, MachineInv s → step s = .next t →
    MachineInv t ∧ t.cfg = s.cfg ∧ t.engines.length = s.engines.length ∧
    regRead .numEngines t = regRead .numEngines s

/-- R175, R249: a machine that is BUSY is never stuck: some step of KSG's agents is enabled. -/
def Obligations.BusyMachineIsNeverStuck : Prop :=
  ∀ s : State, MachineInv s → s.status.busy = true → agentMoves s ≠ []

/-! ## The run of a command -/

/-- R249 (derived by the spec from R171, R173, R176, R145, R193): whatever the schedule and however many
steps of the host come between, KSG takes after acceptance at most the rule's number of steps of its own,
and BUSY is 0 once it has taken so many; under the weak fairness of R175 the command ends; and with no
event of the host pending it ends within so many steps, fairness not assumed. -/
def Obligations.CommandEndsWithinItsBound : Prop :=
  ∀ (i : Instr) (s s1 : State), MachineInv s → blocked s = false → exec i s = .next s1 →
    s1.status.busy = true →
    (∀ n t, runWhileBusy n s1 = some t →
      ksgSteps n s1 ≤ stepBound i s ∧ (ksgSteps n s1 = stepBound i s → t.status.busy = false)) ∧
    (WeaklyFair s1 → ∃ n t, runWhileBusy n s1 = some t ∧ t.status.busy = false) ∧
    (s1.bus = [] →
      ∃ n t, n ≤ stepBound i s ∧ runWhileBusy n s1 = some t ∧ t.status.busy = false)

/-- R248, R251: at the end of a command exactly one of DONE and FAULT is 1; and where it is DONE and no CMD
write was dropped, `CleanEntry` holds again. -/
def Obligations.CommandEndsDoneOrFaulted : Prop :=
  ∀ (i : Instr) (s t : State) (sn : Snapshot), CommandEnds i s sn t →
    ((t.status.done = true ∧ t.status.fault = false) ∨
      (t.status.done = false ∧ t.status.fault = true)) ∧
    (t.status.done = true → t.status.overrun = false → CleanEntry t)

/-- R178 and R197(b) (both derived by the spec), for every command and every schedule: at the end of a
command with DONE = 1, every byte of the target range is the one the snapshot fixes; and every byte
outside it to which the host had no write pending is what it was. -/
def Obligations.CompletedCommandWritesItsTarget : Prop :=
  ∀ (i : Instr) (s t : State) (sn : Snapshot), CommandEnds i s sn t → t.status.done = true →
    (∀ x, inTarget sn x = true →
      (commandByte s.cfg sn x).isSome ∧ memRead t.mem x = commandByte s.cfg sn x) ∧
    ∀ x, inTarget sn x = false → HostLeavesByte s x → memRead t.mem x = memRead s.mem x

/-- R178 (derived by the spec from R171, R172, R177): a keystream-path GENERATE that completes has put in
Unit g of shard (a, b) the bytes `UnitBytes(K, ctr0(a), g − a, T)`, with T the Threshold of p, whatever W
and the schedule are. -/
def Obligations.GenerateBufferIsFixed : Prop :=
  ∀ (s t : State) (sn : Snapshot), CommandEnds .generate s sn t → t.status.done = true →
    classify s.cfg.eps s.regs.prob = .normal →
    ∀ r ∈ shardRanges ((outSizeOf s.regs).toNat / 16) (shardUnitsOf s.regs).toNat,
    ∀ g j, r.1 ≤ g → g < r.2 → j < 16 →
      memRead t.mem ((outOf s.regs).toNat + 16 * g + j)
        = (unitBytes s.cfg (keyOf s.regs) (shardCounter s.cfg s.regs.ctrMode r.1) (g - r.1)
            (computeThreshold s.regs.prob))[j]?

/-- R193, R195: a degenerate GENERATE that completes has filled `[OUT, OUT+N)` with 0x00 (LOW) or 0xFF
(HIGH); THRESH keeps the value the host last gave it: the one it had, where the host had no write
pending. -/
def Obligations.DegenerateGenerateFills : Prop :=
  ∀ (s t : State) (sn : Snapshot) (F : Byte), CommandEnds .generate s sn t → t.status.done = true →
    ((classify s.cfg.eps s.regs.prob = .low ∧ F = 0x00) ∨
      (classify s.cfg.eps s.regs.prob = .high ∧ F = 0xFF)) →
    (∀ i, i < (outSizeOf s.regs).toNat → memRead t.mem ((outOf s.regs).toNat + i) = some F) ∧
    (HostWritesNothing s → t.thresh = s.thresh)

/-- R146, the effect: KEYSTREAM that completes has put `UnitBytes(K, CTR0, u, T)` in Unit `start + u` for
every u below `limit − start`, with T = THRESH. -/
def Obligations.KeystreamBufferIsFixed : Prop :=
  ∀ (s t : State) (sn : Snapshot), CommandEnds .keystream s sn t → t.status.done = true →
    ∀ u j, (startOf s.regs).toNat + u < (limitOf s.regs).toNat → j < 16 →
      memRead t.mem ((outOf s.regs).toNat + 16 * ((startOf s.regs).toNat + u) + j)
        = (unitBytes s.cfg (keyOf s.regs) (ctr0Of s.regs) u s.thresh)[j]?

/-- R179 (derived by the spec from R172, R178): in RESTART mode the shard (a, b) holds the first b − a
Units of the single-shard keystream; two shards of one length hold the same bytes, and with S = 1 every
Unit equals Unit 0. -/
def Obligations.RestartRepeatsTheKeystream : Prop :=
  ∀ (s t : State) (sn : Snapshot), CommandEnds .generate s sn t → t.status.done = true →
    classify s.cfg.eps s.regs.prob = .normal → s.regs.ctrMode = false →
    let U := (outSizeOf s.regs).toNat / 16
    let S := (shardUnitsOf s.regs).toNat
    let OUT := (outOf s.regs).toNat
    (∀ r ∈ shardRanges U S, ∀ i, i < 16 * (r.2 - r.1) →
      memRead t.mem (OUT + 16 * r.1 + i)
        = (keystreamBytes s.cfg (keyOf s.regs) 0 (computeThreshold s.regs.prob) (r.2 - r.1))[i]?) ∧
    (∀ r ∈ shardRanges U S, ∀ r' ∈ shardRanges U S, r.2 - r.1 = r'.2 - r'.1 →
      ∀ i, i < 16 * (r.2 - r.1) →
        memRead t.mem (OUT + 16 * r.1 + i) = memRead t.mem (OUT + 16 * r'.1 + i)) ∧
    (S = 1 → ∀ g j, g < U → j < 16 → memRead t.mem (OUT + 16 * g + j) = memRead t.mem (OUT + j))

/-- R180 (derived by the spec from R135, R138, R172): in OFFSET mode Unit g of the buffer holds
`UnitBytes(K, 0, g, T)` whatever S is, so the buffer is the single-shard keystream. -/
def Obligations.OffsetModeIsShardInvariant : Prop :=
  ∀ (s t : State) (sn : Snapshot), CommandEnds .generate s sn t → t.status.done = true →
    classify s.cfg.eps s.regs.prob = .normal → s.regs.ctrMode = true →
    (∀ g j, g < (outSizeOf s.regs).toNat / 16 → j < 16 →
      memRead t.mem ((outOf s.regs).toNat + 16 * g + j)
        = (unitBytes s.cfg (keyOf s.regs) 0 g (computeThreshold s.regs.prob))[j]?) ∧
    ∀ i, i < (outSizeOf s.regs).toNat →
      memRead t.mem ((outOf s.regs).toNat + i)
        = (keystreamBytes s.cfg (keyOf s.regs) 0 (computeThreshold s.regs.prob)
            ((outSizeOf s.regs).toNat / 16))[i]?

/-- R181 (derived by the spec from R171, R172): with S = 0 or S >= U there is one shard, with initial
Counter 0 in both modes, and the buffer is `Keystream(K, 0, T, U)`. -/
def Obligations.SingleShardAgreesInBothModes : Prop :=
  ∀ (s t : State) (sn : Snapshot), CommandEnds .generate s sn t → t.status.done = true →
    classify s.cfg.eps s.regs.prob = .normal →
    ((shardUnitsOf s.regs).toNat = 0 ∨ (outSizeOf s.regs).toNat / 16 ≤ (shardUnitsOf s.regs).toNat) →
    ∀ i, i < (outSizeOf s.regs).toNat →
      memRead t.mem ((outOf s.regs).toNat + i)
        = (keystreamBytes s.cfg (keyOf s.regs) 0 (computeThreshold s.regs.prob)
            ((outSizeOf s.regs).toNat / 16))[i]?

/-- R178, R198 P3 (derived by the spec): two runs of a command from equal snapshots, on machines with the
same constants but with any W, any schedule, any memory and any admission, give identical bytes if both
complete. -/
def Obligations.EqualSnapshotsGiveEqualBytes : Prop :=
  ∀ (i : Instr) (s t s' t' : State) (sn : Snapshot),
    CommandEnds i s sn t → CommandEnds i s' sn t' →
    t.status.done = true → t'.status.done = true →
    s.cfg.delta = s'.cfg.delta → s.cfg.step = s'.cfg.step → s.cfg.eps = s'.cfg.eps →
    ∀ x, inTarget sn x = true → memRead t.mem x = memRead t'.mem x

/-- R215(b) (derived by the spec from R213, R214), R210: a command that ends with FAULT = 1 ended with
BUS_ERROR; the record holds its opcode and the address of a transaction, inside the target range, that
`Admit` refused; each byte of the target range holds its old value or the command's; and no byte outside it
changed to which the host had no write pending. -/
def Obligations.BusErrorLeavesOldOrNewBytes : Prop :=
  ∀ (i : Instr) (s t : State) (sn : Snapshot), CommandEnds i s sn t → t.status.fault = true →
    (t.record.code = .busError ∧ t.record.op = opcode i ∧
      inTarget sn t.record.addr.toNat = true ∧
      ∃ n, 0 < n ∧ n ≤ 16 ∧ t.record.addr.toNat + n ≤ (targetRange sn).2 ∧
        admits s.cfg t.record.addr.toNat n = false) ∧
    (∀ x, inTarget sn x = true →
      memRead t.mem x = memRead s.mem x ∨ memRead t.mem x = commandByte s.cfg sn x) ∧
    ∀ x, inTarget sn x = false → HostLeavesByte s x → memRead t.mem x = memRead s.mem x

/-- R215(a) (derived by the spec from R212, R214): a command that faults in its own CMD write changes no
host byte, no operand register and not THRESH. -/
def Obligations.PreCheckFaultsArePrecise : Prop :=
  ∀ (i : Instr) (s t : State), MachineInv s → blocked s = false → exec i s = .next t →
    t.status.fault = true →
    t = { s with
      status := { s.status with busy := false, done := false, fault := true }
      record := t.record } ∧
    t.record.op = opcode i ∧ t.record.addr = 0

/-- R197 (derived by the spec), R68: a command whose target range host memory admits always ends with
DONE = 1. -/
def Obligations.AdmittedCommandsComplete : Prop :=
  ∀ (i : Instr) (s t : State) (sn : Snapshot), CommandEnds i s sn t →
    (∀ a n, 0 < n → n ≤ 16 → (targetRange sn).1 ≤ a → a + n ≤ (targetRange sn).2 →
      admits s.cfg a n = true) →
    t.status.done = true

/-- R241: a reset while the command runs sets neither DONE nor FAULT, and leaves each byte of the target
range with its old value or the command's. -/
def Obligations.ResetDuringACommand : Prop :=
  ∀ (i : Instr) (s t r : State) (sn : Snapshot), CommandReaches i s sn t →
    t.status.busy = true → hostEvent .reset t = .next r →
    r.status = { busy := false, done := false, fault := false, overrun := false } ∧
    (∀ x, inTarget sn x = true →
      memRead r.mem x = memRead s.mem x ∨ memRead r.mem x = commandByte s.cfg sn x) ∧
    ∀ x, inTarget sn x = false → memRead r.mem x = memRead t.mem x

/-! ## Races (20_memory.md R73) -/

/-- R73: (a) a host read of a byte of the running command's target range that the host has not written
answers the byte's value before the command or the command's, and changes no byte and nothing of KSG; (b)
at completion a byte of the target range that the host wrote holds the host's value or the command's, and
every other byte of memory is as it was; and at an early end, that is fault entry or a reset (R215(b),
R241), such a byte holds the host's value, the command's, or what it was before the command (no value,
where it had none), and every other byte is as it was. The fields `before` and `raced` that carry it, and
the wider choice at an early end, are the model's (log 9, 10). -/
def Obligations.RacesAreOldOrNew : Prop :=
  (∀ (s : State) (sn : Snapshot) (x : Nat), MachineInv s → s.snap = some sn → inTarget sn x = true →
    memRead s.raced x = none →
    ((hostReadByte x s).1 = memRead s.before x ∨ (hostReadByte x s).1 = commandByte s.cfg sn x) ∧
    ∃ cs d, (hostReadByte x s).2 = { s with choices := cs, draws := d }) ∧
  (∀ (s t : State) (sn : Snapshot), MachineInv s → s.snap = some sn → runMove .complete s = .next t →
    (∀ x v, memRead s.raced x = some v →
      memRead t.mem x = some v ∨ memRead t.mem x = commandByte s.cfg sn x) ∧
    ∀ x, memRead s.raced x = none → memRead t.mem x = memRead s.mem x) ∧
  ∀ (s t : State) (sn : Snapshot), MachineInv s → s.snap = some sn →
    ((s.pending.isSome ∧ runMove .takeFault s = .next t) ∨ hostEvent .reset s = .next t) →
    (∀ x v, memRead s.raced x = some v →
      memRead t.mem x = some v ∨ memRead t.mem x = commandByte s.cfg sn x ∨
      memRead t.mem x = memRead s.before x) ∧
    ∀ x, memRead s.raced x = none → memRead t.mem x = memRead s.mem x
end

