-- ==== Sys2Proof/Laws/State.lean ====
section
/-! SUPPORT. What each named operation does to each field of the state, true by unfolding it. -/

namespace Sys2Proof.Machine

/-! ### dropCommand (R29) -/

@[simp] theorem dropCommand_status (s : State) :
    (dropCommand s).status = { s.status with overrun := true } := rfl
@[simp] theorem dropCommand_record (s : State) :
    (dropCommand s).record = s.record := rfl
@[simp] theorem dropCommand_thresh (s : State) :
    (dropCommand s).thresh = s.thresh := rfl
@[simp] theorem dropCommand_regs (s : State) :
    (dropCommand s).regs = s.regs := rfl
@[simp] theorem dropCommand_snap (s : State) :
    (dropCommand s).snap = s.snap := rfl
@[simp] theorem dropCommand_queue (s : State) :
    (dropCommand s).queue = s.queue := rfl
@[simp] theorem dropCommand_pending (s : State) :
    (dropCommand s).pending = s.pending := rfl
@[simp] theorem dropCommand_fill (s : State) :
    (dropCommand s).fill = s.fill := rfl
@[simp] theorem dropCommand_engines (s : State) :
    (dropCommand s).engines = s.engines := rfl
@[simp] theorem dropCommand_mem (s : State) :
    (dropCommand s).mem = s.mem := rfl
@[simp] theorem dropCommand_cfg (s : State) :
    (dropCommand s).cfg = s.cfg := rfl
@[simp] theorem dropCommand_bus (s : State) :
    (dropCommand s).bus = s.bus := rfl
@[simp] theorem dropCommand_replies (s : State) :
    (dropCommand s).replies = s.replies := rfl
@[simp] theorem dropCommand_before (s : State) :
    (dropCommand s).before = s.before := rfl
@[simp] theorem dropCommand_raced (s : State) :
    (dropCommand s).raced = s.raced := rfl
@[simp] theorem dropCommand_choices (s : State) :
    (dropCommand s).choices = s.choices := rfl
@[simp] theorem dropCommand_draws (s : State) :
    (dropCommand s).draws = s.draws := rfl

/-! ### faultEntry (R214) -/

@[simp] theorem faultEntry_status (c : Cause) (op : Byte) (a : U64) (s : State) :
    (faultEntry c op a s).status = { s.status with busy := false, done := false, fault := true } := rfl
@[simp] theorem faultEntry_record (c : Cause) (op : Byte) (a : U64) (s : State) :
    (faultEntry c op a s).record = { code := c, op := op, addr := a } := rfl
@[simp] theorem faultEntry_thresh (c : Cause) (op : Byte) (a : U64) (s : State) :
    (faultEntry c op a s).thresh = s.thresh := rfl
@[simp] theorem faultEntry_regs (c : Cause) (op : Byte) (a : U64) (s : State) :
    (faultEntry c op a s).regs = s.regs := rfl
@[simp] theorem faultEntry_snap (c : Cause) (op : Byte) (a : U64) (s : State) :
    (faultEntry c op a s).snap = none := rfl
@[simp] theorem faultEntry_queue (c : Cause) (op : Byte) (a : U64) (s : State) :
    (faultEntry c op a s).queue = [] := rfl
@[simp] theorem faultEntry_pending (c : Cause) (op : Byte) (a : U64) (s : State) :
    (faultEntry c op a s).pending = none := rfl
@[simp] theorem faultEntry_fill (c : Cause) (op : Byte) (a : U64) (s : State) :
    (faultEntry c op a s).fill = none := rfl
@[simp] theorem faultEntry_engines (c : Cause) (op : Byte) (a : U64) (s : State) :
    (faultEntry c op a s).engines = s.engines.map (fun _ => .idle) := rfl
@[simp] theorem faultEntry_mem (c : Cause) (op : Byte) (a : U64) (s : State) :
    (faultEntry c op a s).mem = s.mem := rfl
@[simp] theorem faultEntry_cfg (c : Cause) (op : Byte) (a : U64) (s : State) :
    (faultEntry c op a s).cfg = s.cfg := rfl
@[simp] theorem faultEntry_bus (c : Cause) (op : Byte) (a : U64) (s : State) :
    (faultEntry c op a s).bus = s.bus := rfl
@[simp] theorem faultEntry_replies (c : Cause) (op : Byte) (a : U64) (s : State) :
    (faultEntry c op a s).replies = s.replies := rfl
@[simp] theorem faultEntry_before (c : Cause) (op : Byte) (a : U64) (s : State) :
    (faultEntry c op a s).before = [] := rfl
@[simp] theorem faultEntry_raced (c : Cause) (op : Byte) (a : U64) (s : State) :
    (faultEntry c op a s).raced = [] := rfl
@[simp] theorem faultEntry_choices (c : Cause) (op : Byte) (a : U64) (s : State) :
    (faultEntry c op a s).choices = s.choices := rfl
@[simp] theorem faultEntry_draws (c : Cause) (op : Byte) (a : U64) (s : State) :
    (faultEntry c op a s).draws = s.draws := rfl

/-! ### accept (R93) -/

@[simp] theorem accept_status (sn : Snapshot) (s : State) :
    (accept sn s).status = { s.status with busy := true, done := false } := rfl
@[simp] theorem accept_record (sn : Snapshot) (s : State) :
    (accept sn s).record = s.record := rfl
@[simp] theorem accept_thresh (sn : Snapshot) (s : State) :
    (accept sn s).thresh = s.thresh := rfl
@[simp] theorem accept_regs (sn : Snapshot) (s : State) :
    (accept sn s).regs = s.regs := rfl
@[simp] theorem accept_snap (sn : Snapshot) (s : State) :
    (accept sn s).snap = some sn := rfl
@[simp] theorem accept_queue (sn : Snapshot) (s : State) :
    (accept sn s).queue = s.queue := rfl
@[simp] theorem accept_pending (sn : Snapshot) (s : State) :
    (accept sn s).pending = s.pending := rfl
@[simp] theorem accept_fill (sn : Snapshot) (s : State) :
    (accept sn s).fill = s.fill := rfl
@[simp] theorem accept_engines (sn : Snapshot) (s : State) :
    (accept sn s).engines = s.engines := rfl
@[simp] theorem accept_mem (sn : Snapshot) (s : State) :
    (accept sn s).mem = s.mem := rfl
@[simp] theorem accept_cfg (sn : Snapshot) (s : State) :
    (accept sn s).cfg = s.cfg := rfl
@[simp] theorem accept_bus (sn : Snapshot) (s : State) :
    (accept sn s).bus = s.bus := rfl
@[simp] theorem accept_replies (sn : Snapshot) (s : State) :
    (accept sn s).replies = s.replies := rfl
@[simp] theorem accept_before (sn : Snapshot) (s : State) :
    (accept sn s).before = s.mem := rfl
@[simp] theorem accept_raced (sn : Snapshot) (s : State) :
    (accept sn s).raced = [] := rfl
@[simp] theorem accept_choices (sn : Snapshot) (s : State) :
    (accept sn s).choices = s.choices := rfl
@[simp] theorem accept_draws (sn : Snapshot) (s : State) :
    (accept sn s).draws = s.draws := rfl

/-! ### clearFault (R217) -/

@[simp] theorem clearFault_status (s : State) :
    (clearFault s).status = { s.status with fault := false } := rfl
@[simp] theorem clearFault_record (s : State) :
    (clearFault s).record = .clear := rfl
@[simp] theorem clearFault_thresh (s : State) :
    (clearFault s).thresh = s.thresh := rfl
@[simp] theorem clearFault_regs (s : State) :
    (clearFault s).regs = s.regs := rfl
@[simp] theorem clearFault_snap (s : State) :
    (clearFault s).snap = s.snap := rfl
@[simp] theorem clearFault_queue (s : State) :
    (clearFault s).queue = s.queue := rfl
@[simp] theorem clearFault_pending (s : State) :
    (clearFault s).pending = s.pending := rfl
@[simp] theorem clearFault_fill (s : State) :
    (clearFault s).fill = s.fill := rfl
@[simp] theorem clearFault_engines (s : State) :
    (clearFault s).engines = s.engines := rfl
@[simp] theorem clearFault_mem (s : State) :
    (clearFault s).mem = s.mem := rfl
@[simp] theorem clearFault_cfg (s : State) :
    (clearFault s).cfg = s.cfg := rfl
@[simp] theorem clearFault_bus (s : State) :
    (clearFault s).bus = s.bus := rfl
@[simp] theorem clearFault_replies (s : State) :
    (clearFault s).replies = s.replies := rfl
@[simp] theorem clearFault_before (s : State) :
    (clearFault s).before = s.before := rfl
@[simp] theorem clearFault_raced (s : State) :
    (clearFault s).raced = s.raced := rfl
@[simp] theorem clearFault_choices (s : State) :
    (clearFault s).choices = s.choices := rfl
@[simp] theorem clearFault_draws (s : State) :
    (clearFault s).draws = s.draws := rfl

/-! ### completeCommand (R176) -/

@[simp] theorem completeCommand_status (s : State) :
    (completeCommand s).status = { s.status with busy := false, done := true } := rfl
@[simp] theorem completeCommand_record (s : State) :
    (completeCommand s).record = s.record := rfl
@[simp] theorem completeCommand_thresh (s : State) :
    (completeCommand s).thresh = s.thresh := rfl
@[simp] theorem completeCommand_regs (s : State) :
    (completeCommand s).regs = s.regs := rfl
@[simp] theorem completeCommand_snap (s : State) :
    (completeCommand s).snap = none := rfl
@[simp] theorem completeCommand_queue (s : State) :
    (completeCommand s).queue = s.queue := rfl
@[simp] theorem completeCommand_pending (s : State) :
    (completeCommand s).pending = s.pending := rfl
@[simp] theorem completeCommand_fill (s : State) :
    (completeCommand s).fill = none := rfl
@[simp] theorem completeCommand_engines (s : State) :
    (completeCommand s).engines = s.engines := rfl
@[simp] theorem completeCommand_mem (s : State) :
    (completeCommand s).mem = s.mem := rfl
@[simp] theorem completeCommand_cfg (s : State) :
    (completeCommand s).cfg = s.cfg := rfl
@[simp] theorem completeCommand_bus (s : State) :
    (completeCommand s).bus = s.bus := rfl
@[simp] theorem completeCommand_replies (s : State) :
    (completeCommand s).replies = s.replies := rfl
@[simp] theorem completeCommand_before (s : State) :
    (completeCommand s).before = [] := rfl
@[simp] theorem completeCommand_raced (s : State) :
    (completeCommand s).raced = [] := rfl
@[simp] theorem completeCommand_choices (s : State) :
    (completeCommand s).choices = s.choices := rfl
@[simp] theorem completeCommand_draws (s : State) :
    (completeCommand s).draws = s.draws := rfl

/-! ### platformReset (R240) -/

@[simp] theorem platformReset_status (s : State) :
    (platformReset s).status = .reset := rfl
@[simp] theorem platformReset_record (s : State) :
    (platformReset s).record = .clear := rfl
@[simp] theorem platformReset_thresh (s : State) :
    (platformReset s).thresh = 0 := rfl
@[simp] theorem platformReset_regs (s : State) :
    (platformReset s).regs = .reset := rfl
@[simp] theorem platformReset_snap (s : State) :
    (platformReset s).snap = none := rfl
@[simp] theorem platformReset_queue (s : State) :
    (platformReset s).queue = [] := rfl
@[simp] theorem platformReset_pending (s : State) :
    (platformReset s).pending = none := rfl
@[simp] theorem platformReset_fill (s : State) :
    (platformReset s).fill = none := rfl
@[simp] theorem platformReset_engines (s : State) :
    (platformReset s).engines = s.engines.map (fun _ => .idle) := rfl
@[simp] theorem platformReset_mem (s : State) :
    (platformReset s).mem = s.mem := rfl
@[simp] theorem platformReset_cfg (s : State) :
    (platformReset s).cfg = s.cfg := rfl
@[simp] theorem platformReset_bus (s : State) :
    (platformReset s).bus = s.bus := rfl
@[simp] theorem platformReset_replies (s : State) :
    (platformReset s).replies = s.replies := rfl
@[simp] theorem platformReset_before (s : State) :
    (platformReset s).before = [] := rfl
@[simp] theorem platformReset_raced (s : State) :
    (platformReset s).raced = [] := rfl
@[simp] theorem platformReset_choices (s : State) :
    (platformReset s).choices = s.choices := rfl
@[simp] theorem platformReset_draws (s : State) :
    (platformReset s).draws = s.draws := rfl

/-! ### answer (log 4) -/

@[simp] theorem answer_status (r : BusReply) (s : State) :
    (answer r s).status = s.status := rfl
@[simp] theorem answer_record (r : BusReply) (s : State) :
    (answer r s).record = s.record := rfl
@[simp] theorem answer_thresh (r : BusReply) (s : State) :
    (answer r s).thresh = s.thresh := rfl
@[simp] theorem answer_regs (r : BusReply) (s : State) :
    (answer r s).regs = s.regs := rfl
@[simp] theorem answer_snap (r : BusReply) (s : State) :
    (answer r s).snap = s.snap := rfl
@[simp] theorem answer_queue (r : BusReply) (s : State) :
    (answer r s).queue = s.queue := rfl
@[simp] theorem answer_pending (r : BusReply) (s : State) :
    (answer r s).pending = s.pending := rfl
@[simp] theorem answer_fill (r : BusReply) (s : State) :
    (answer r s).fill = s.fill := rfl
@[simp] theorem answer_engines (r : BusReply) (s : State) :
    (answer r s).engines = s.engines := rfl
@[simp] theorem answer_mem (r : BusReply) (s : State) :
    (answer r s).mem = s.mem := rfl
@[simp] theorem answer_cfg (r : BusReply) (s : State) :
    (answer r s).cfg = s.cfg := rfl
@[simp] theorem answer_bus (r : BusReply) (s : State) :
    (answer r s).bus = s.bus := rfl
@[simp] theorem answer_replies (r : BusReply) (s : State) :
    (answer r s).replies = r :: s.replies := rfl
@[simp] theorem answer_before (r : BusReply) (s : State) :
    (answer r s).before = s.before := rfl
@[simp] theorem answer_raced (r : BusReply) (s : State) :
    (answer r s).raced = s.raced := rfl
@[simp] theorem answer_choices (r : BusReply) (s : State) :
    (answer r s).choices = s.choices := rfl
@[simp] theorem answer_draws (r : BusReply) (s : State) :
    (answer r s).draws = s.draws := rfl

/-! ### hostWriteBytes (R73) -/

@[simp] theorem hostWriteBytes_status (x : Nat) (bs : List Byte) (s : State) :
    (hostWriteBytes x bs s).status = s.status := rfl
@[simp] theorem hostWriteBytes_record (x : Nat) (bs : List Byte) (s : State) :
    (hostWriteBytes x bs s).record = s.record := rfl
@[simp] theorem hostWriteBytes_thresh (x : Nat) (bs : List Byte) (s : State) :
    (hostWriteBytes x bs s).thresh = s.thresh := rfl
@[simp] theorem hostWriteBytes_regs (x : Nat) (bs : List Byte) (s : State) :
    (hostWriteBytes x bs s).regs = s.regs := rfl
@[simp] theorem hostWriteBytes_snap (x : Nat) (bs : List Byte) (s : State) :
    (hostWriteBytes x bs s).snap = s.snap := rfl
@[simp] theorem hostWriteBytes_queue (x : Nat) (bs : List Byte) (s : State) :
    (hostWriteBytes x bs s).queue = s.queue := rfl
@[simp] theorem hostWriteBytes_pending (x : Nat) (bs : List Byte) (s : State) :
    (hostWriteBytes x bs s).pending = s.pending := rfl
@[simp] theorem hostWriteBytes_fill (x : Nat) (bs : List Byte) (s : State) :
    (hostWriteBytes x bs s).fill = s.fill := rfl
@[simp] theorem hostWriteBytes_engines (x : Nat) (bs : List Byte) (s : State) :
    (hostWriteBytes x bs s).engines = s.engines := rfl
@[simp] theorem hostWriteBytes_mem (x : Nat) (bs : List Byte) (s : State) :
    (hostWriteBytes x bs s).mem = memWriteBytes s.mem x bs := rfl
@[simp] theorem hostWriteBytes_cfg (x : Nat) (bs : List Byte) (s : State) :
    (hostWriteBytes x bs s).cfg = s.cfg := rfl
@[simp] theorem hostWriteBytes_bus (x : Nat) (bs : List Byte) (s : State) :
    (hostWriteBytes x bs s).bus = s.bus := rfl
@[simp] theorem hostWriteBytes_replies (x : Nat) (bs : List Byte) (s : State) :
    (hostWriteBytes x bs s).replies = s.replies := rfl
@[simp] theorem hostWriteBytes_before (x : Nat) (bs : List Byte) (s : State) :
    (hostWriteBytes x bs s).before = s.before := rfl
@[simp] theorem hostWriteBytes_choices (x : Nat) (bs : List Byte) (s : State) :
    (hostWriteBytes x bs s).choices = s.choices := rfl
@[simp] theorem hostWriteBytes_draws (x : Nat) (bs : List Byte) (s : State) :
    (hostWriteBytes x bs s).draws = s.draws := rfl

/-! ### choose (log 3) -/

/-- Settling a choice changes nothing but the model's own choice fields. -/
theorem choose_state (n : Nat) (s : State) :
    ∃ cs d, (choose n s).2 = { s with choices := cs, draws := d } := by
  unfold choose
  split
  · exact ⟨_, s.draws, rfl⟩
  · split
    · exact ⟨s.choices, s.draws, rfl⟩
    · exact ⟨s.choices, _, rfl⟩

/-- The index a choice settles on is one of the possibilities. -/
theorem choose_lt (n : Nat) (s : State) (h : 0 < n) : (choose n s).1 < n := by
  unfold choose
  split
  · exact Nat.mod_lt _ h
  · split
    · exact h
    · exact Nat.mod_lt _ h

/-- A choice that the state has settled. -/
theorem choose_settled (n c : Nat) (cs : List Nat) (s : State) (h : s.choices = c :: cs) :
    choose n s = (c % n, { s with choices := cs }) := by
  simp [choose, h]

@[simp] theorem choose_status (n : Nat) (s : State) : (choose n s).2.status = s.status := by
  obtain ⟨_, _, h⟩ := choose_state n s; rw [h]
@[simp] theorem choose_record (n : Nat) (s : State) : (choose n s).2.record = s.record := by
  obtain ⟨_, _, h⟩ := choose_state n s; rw [h]
@[simp] theorem choose_thresh (n : Nat) (s : State) : (choose n s).2.thresh = s.thresh := by
  obtain ⟨_, _, h⟩ := choose_state n s; rw [h]
@[simp] theorem choose_regs (n : Nat) (s : State) : (choose n s).2.regs = s.regs := by
  obtain ⟨_, _, h⟩ := choose_state n s; rw [h]
@[simp] theorem choose_snap (n : Nat) (s : State) : (choose n s).2.snap = s.snap := by
  obtain ⟨_, _, h⟩ := choose_state n s; rw [h]
@[simp] theorem choose_queue (n : Nat) (s : State) : (choose n s).2.queue = s.queue := by
  obtain ⟨_, _, h⟩ := choose_state n s; rw [h]
@[simp] theorem choose_pending (n : Nat) (s : State) : (choose n s).2.pending = s.pending := by
  obtain ⟨_, _, h⟩ := choose_state n s; rw [h]
@[simp] theorem choose_fill (n : Nat) (s : State) : (choose n s).2.fill = s.fill := by
  obtain ⟨_, _, h⟩ := choose_state n s; rw [h]
@[simp] theorem choose_engines (n : Nat) (s : State) : (choose n s).2.engines = s.engines := by
  obtain ⟨_, _, h⟩ := choose_state n s; rw [h]
@[simp] theorem choose_mem (n : Nat) (s : State) : (choose n s).2.mem = s.mem := by
  obtain ⟨_, _, h⟩ := choose_state n s; rw [h]
@[simp] theorem choose_cfg (n : Nat) (s : State) : (choose n s).2.cfg = s.cfg := by
  obtain ⟨_, _, h⟩ := choose_state n s; rw [h]
@[simp] theorem choose_bus (n : Nat) (s : State) : (choose n s).2.bus = s.bus := by
  obtain ⟨_, _, h⟩ := choose_state n s; rw [h]
@[simp] theorem choose_replies (n : Nat) (s : State) : (choose n s).2.replies = s.replies := by
  obtain ⟨_, _, h⟩ := choose_state n s; rw [h]
@[simp] theorem choose_before (n : Nat) (s : State) : (choose n s).2.before = s.before := by
  obtain ⟨_, _, h⟩ := choose_state n s; rw [h]
@[simp] theorem choose_raced (n : Nat) (s : State) : (choose n s).2.raced = s.raced := by
  obtain ⟨_, _, h⟩ := choose_state n s; rw [h]

end Sys2Proof.Machine
end

