-- ==== Sys2Proof/Laws/Memory.lean ====
section
/-! SUPPORT. The laws of host memory: a read after a write, and the canonical form that every memory
operation keeps. -/

namespace Sys2Proof.Machine

/-- Every listed address is above `a`. -/
def AllAbove (a : Nat) (m : Memory) : Prop := ∀ c ∈ m, a < c.1

@[simp] theorem memRead_nil (a : Nat) : memRead [] a = none := rfl

theorem memRead_cons (c : Host.Cell) (m : Memory) (a : Nat) :
    memRead (c :: m) a = if a = c.1 then some c.2 else memRead m a := rfl

/-- The tail of a memory in canonical form is in it too, and lies above its head. -/
theorem memWf_cons {c : Host.Cell} {m : Memory} :
    Memory.wf (c :: m) = true ↔ c.1 < 2 ^ 64 ∧ AllAbove c.1 m ∧ Memory.wf m = true := by
  induction m generalizing c with
  | nil => simp [Memory.wf, AllAbove]
  | cons d rest ih =>
    rw [Memory.wf, Bool.and_eq_true, decide_eq_true_eq, ih]
    constructor
    · rintro ⟨h1, h2, h3, h4⟩
      refine ⟨by omega, ?_, h2, h3, h4⟩
      intro x hx
      rcases List.mem_cons.mp hx with rfl | hx
      · exact h1
      · exact Nat.lt_trans h1 (h3 x hx)
    · rintro ⟨_, h2, h3⟩
      exact ⟨h2 d List.mem_cons_self, h3⟩

/-- Nothing is read at an address below every listed one. -/
theorem memRead_of_allAbove {m : Memory} {a x : Nat} (h : AllAbove a m) (hx : x ≤ a) :
    memRead m x = none := by
  induction m with
  | nil => rfl
  | cons c rest ih =>
    have hc := h c List.mem_cons_self
    rw [memRead_cons, if_neg (by omega)]
    exact ih fun d hd => h d (List.mem_cons_of_mem _ hd)

/-- A listed byte of a memory in canonical form is what its address reads as. -/
theorem memRead_of_mem {m : Memory} {c : Host.Cell} (h : Memory.wf m = true) (hc : c ∈ m) :
    memRead m c.1 = some c.2 := by
  induction m with
  | nil => simp at hc
  | cons d rest ih =>
    obtain ⟨_, h2, h3⟩ := memWf_cons.mp h
    rcases List.mem_cons.mp hc with rfl | hc
    · simp [memRead_cons]
    · have := h2 c hc
      rw [memRead_cons, if_neg (by omega)]
      exact ih h3 hc

/-- What is read is listed. -/
theorem mem_of_memRead {m : Memory} {x : Nat} {b : Byte} (h : memRead m x = some b) :
    (x, b) ∈ m := by
  induction m with
  | nil => simp at h
  | cons c rest ih =>
    rw [memRead_cons] at h
    split at h
    · rename_i hx
      obtain ⟨a, v⟩ := c
      simp_all
    · exact List.mem_cons_of_mem _ (ih h)

/-- A read of any address after a write of one byte. -/
theorem memRead_memWrite (m : Memory) (a x : Nat) (b : Byte) :
    memRead (memWrite m a b) x = if x = a then some b else memRead m x := by
  induction m with
  | nil => rfl
  | cons c rest ih =>
    rw [memWrite]
    split
    · rfl
    · split
      · rename_i h; subst h
        by_cases hx : x = c.1 <;> simp [memRead_cons, hx]
      · rename_i h1 h2
        by_cases hx : x = c.1
        · have : x ≠ a := by omega
          simp [memRead_cons, hx, show c.1 ≠ a by omega]
        · simp [memRead_cons, hx, ih]

/-- The addresses that a write of one byte lists. -/
theorem mem_memWrite {m : Memory} {a : Nat} {b : Byte} {c : Host.Cell} (h : c ∈ memWrite m a b) :
    c = (a, b) ∨ c ∈ m := by
  induction m with
  | nil => simpa [memWrite] using h
  | cons d rest ih =>
    rw [memWrite] at h
    split at h
    · simpa using h
    · split at h
      · rcases List.mem_cons.mp h with h | h
        · exact .inl h
        · exact .inr (List.mem_cons_of_mem _ h)
      · rcases List.mem_cons.mp h with h | h
        · exact .inr (h ▸ List.mem_cons_self)
        · exact (ih h).imp id (List.mem_cons_of_mem _)

/-- A write inside the address space keeps the canonical form. -/
theorem memWrite_wf {m : Memory} {a : Nat} {b : Byte} (h : Memory.wf m = true) (ha : a < 2 ^ 64) :
    Memory.wf (memWrite m a b) = true := by
  induction m with
  | nil => simpa [memWrite, Memory.wf] using ha
  | cons c rest ih =>
    obtain ⟨h1, h2, h3⟩ := memWf_cons.mp h
    rw [memWrite]
    split
    · rename_i hlt
      refine memWf_cons.mpr ⟨ha, ?_, h⟩
      intro d hd
      rcases List.mem_cons.mp hd with rfl | hd
      · exact hlt
      · exact Nat.lt_trans hlt (h2 d hd)
    · split
      · rename_i heq; subst heq
        exact memWf_cons.mpr ⟨ha, h2, h3⟩
      · rename_i hlt hne
        refine memWf_cons.mpr ⟨h1, ?_, ih h3⟩
        intro d hd
        rcases mem_memWrite hd with rfl | hd
        · show c.1 < a
          omega
        · exact h2 d hd

/-- A read of any address after a byte's value is taken away. -/
theorem memRead_memErase (m : Memory) (a x : Nat) :
    memRead (memErase m a) x = if x = a then none else memRead m x := by
  induction m with
  | nil => simp [memErase]
  | cons c rest ih =>
    rw [memErase] at ih ⊢
    by_cases hc : c.1 = a
    · rw [List.filter_cons_of_neg (by simp [hc]), ih, memRead_cons, hc]
      split <;> rfl
    · rw [List.filter_cons_of_pos (by simpa using hc), memRead_cons, memRead_cons, ih]
      split
      · rename_i hx
        rw [if_neg (by omega)]
      · rfl

/-- A read of any address after a byte is made to read as `v`. -/
theorem memRead_memPut (m : Memory) (a x : Nat) (v : Option Byte) :
    memRead (memPut m a v) x = if x = a then v else memRead m x := by
  cases v with
  | none   => exact memRead_memErase m a x
  | some b => exact memRead_memWrite m a x b

/-- Taking a byte's value away keeps the canonical form. -/
theorem memErase_wf {m : Memory} {a : Nat} (h : Memory.wf m = true) : Memory.wf (memErase m a) = true := by
  induction m with
  | nil => rfl
  | cons c rest ih =>
    obtain ⟨h1, h2, h3⟩ := memWf_cons.mp h
    rw [memErase] at ih ⊢
    rw [List.filter_cons]
    split
    · exact memWf_cons.mpr ⟨h1, fun d hd => h2 d (List.mem_of_mem_filter hd), ih h3⟩
    · exact ih h3

theorem memPut_wf {m : Memory} {a : Nat} {v : Option Byte} (h : Memory.wf m = true) (ha : a < 2 ^ 64) :
    Memory.wf (memPut m a v) = true := by
  cases v with
  | none   => exact memErase_wf h
  | some b => exact memWrite_wf h ha

/-- A read of any address after a write transaction (00_scope.md R7). -/
theorem memRead_memWriteBytes (bs : List Byte) (m : Memory) (a x : Nat) :
    memRead (memWriteBytes m a bs) x
      = if a ≤ x ∧ x < a + bs.length then bs[x - a]? else memRead m x := by
  induction bs generalizing m a with
  | nil => simp [memWriteBytes]
  | cons b bs ih =>
    rw [memWriteBytes, ih, memRead_memWrite]
    by_cases hx : x = a
    · subst hx; simp
    · by_cases hr : a + 1 ≤ x ∧ x < a + 1 + bs.length
      · rw [if_pos hr, if_pos (by simp; omega)]
        rw [show x - a = (x - (a + 1)) + 1 by omega, List.getElem?_cons_succ]
      · rw [if_neg hr, if_neg hx, if_neg (by simp; omega)]

/-- A transaction inside the address space keeps the canonical form. -/
theorem memWriteBytes_wf {bs : List Byte} {m : Memory} {a : Nat} (h : Memory.wf m = true)
    (ha : a + bs.length ≤ 2 ^ 64) : Memory.wf (memWriteBytes m a bs) = true := by
  induction bs generalizing m a with
  | nil => exact h
  | cons b bs ih =>
    simp only [List.length_cons] at ha
    exact ih (memWrite_wf h (by omega)) (by omega)

/-- An admitted transaction lies inside the address space (R60, R68). -/
theorem admits_space {c : Config.Params} {a n : Nat} (h : admits c a n = true) : a + n ≤ 2 ^ 64 := by
  simp only [admits, Bool.and_eq_true, decide_eq_true_eq] at h
  exact h.1

/-- Noting a host write for the races keeps the canonical form. -/
theorem raceWrite_wf (sn : Snapshot) {bs : List Byte} {m : Memory} {x : Nat} (h : Memory.wf m = true)
    (hx : x + bs.length ≤ 2 ^ 64) : Memory.wf (raceWrite sn m x bs) = true := by
  induction bs generalizing m x with
  | nil => exact h
  | cons b bs ih =>
    simp only [List.length_cons] at hx
    rw [raceWrite]
    refine ih ?_ (by omega)
    split
    · exact memWrite_wf h (by omega)
    · exact h

/-- Only bytes of the target range are noted for the races (R73). -/
theorem raceWrite_inTarget (sn : Snapshot) {bs : List Byte} {m : Memory} {x : Nat}
    (h : ∀ c ∈ m, inTarget sn c.1 = true) : ∀ c ∈ raceWrite sn m x bs, inTarget sn c.1 = true := by
  induction bs generalizing m x with
  | nil => exact h
  | cons b bs ih =>
    rw [raceWrite]
    refine ih ?_
    split
    · rename_i ht
      intro c hc
      rcases mem_memWrite hc with rfl | hc
      · exact ht
      · exact h c hc
    · exact h

/-- A host write that keeps off the target range notes nothing. -/
theorem raceWrite_off (sn : Snapshot) {bs : List Byte} {m : Memory} {x : Nat}
    (h : ∀ i, i < bs.length → inTarget sn (x + i) = false) : raceWrite sn m x bs = m := by
  induction bs generalizing m x with
  | nil => rfl
  | cons b bs ih =>
    have h0 := h 0 (by simp)
    rw [raceWrite, if_neg (by simpa using h0)]
    refine ih fun i hi => ?_
    have := h (i + 1) (by simpa using hi)
    rwa [show x + 1 + i = x + (i + 1) by omega]

end Sys2Proof.Machine
end

