-- ==== Sys2Proof/Laws/Unit.lean ====
section
/-! SUPPORT. The shape of the byte strings the keystream produces (41_keystream.md R138 to R141). -/

namespace Sys2Proof.Machine

theorem packAccumulators_length (l : List U16) : (packAccumulators l).length = 2 * l.length := by
  induction l with
  | nil => rfl
  | cons a l ih =>
    simp only [packAccumulators, List.flatMap_cons, List.length_append, List.length_cons,
      List.length_nil] at *
    omega

/-- A Unit is 16 bytes (R140). -/
@[simp] theorem unitBytes_length (c : Config.Params) (key ctr0 : U128) (u : Nat) (t : U16) :
    (unitBytes c key ctr0 u t).length = 16 := by
  simp [unitBytes, packBlocks, packAccumulators_length, Config.lanes]

/-- An invocation over `n` Units produces `16 n` bytes (R141). -/
@[simp] theorem keystreamBytes_length (c : Config.Params) (key ctr0 : U128) (t : U16) (n : Nat) :
    (keystreamBytes c key ctr0 t n).length = 16 * n := by
  induction n with
  | zero => rfl
  | succ n ih =>
    rw [keystreamBytes, List.range_succ, List.flatMap_append, List.length_append,
      ← keystreamBytes, ih]
    simp; omega

end Sys2Proof.Machine
end

