-- ==== Sys2Proof/Laws/Step.lean ====
section
/-! SUPPORT. What a step can do, said once (42_shard.md R175), and the spec lemma of each shared operation
of the coordinator and the bus. -/

namespace Sys2Proof.Machine

/-- The two states differ at most in the model's own choice fields (log 3). -/
def SameButChoices (s t : State) : Prop := ∃ cs d, t = { s with choices := cs, draws := d }

theorem SameButChoices.rfl' {s : State} : SameButChoices s s := ⟨s.choices, s.draws, rfl⟩

/-- No step comes next exactly where none is enabled. -/
theorem nextMove_none {s : State} : nextMove s = none ↔ moves s = [] := by
  unfold nextMove
  split <;> simp_all

/-- The step that comes next is an enabled one, and choosing it changes only the choice fields. -/
theorem nextMove_some {s s' : State} {m : Move} (h : nextMove s = some (m, s')) :
    m ∈ moves s ∧ SameButChoices s s' := by
  unfold nextMove at h
  split at h
  · cases h
  · rename_i m0 ms hm
    simp only [Option.some.injEq, Prod.mk.injEq] at h
    obtain ⟨rfl, rfl⟩ := h
    refine ⟨?_, choose_state _ s⟩
    have hlt := choose_lt (ms.length + 1) s (by omega)
    rw [List.getD_eq_getElem _ _ (by simpa using hlt), hm]
    exact List.getElem_mem _

/-- The inversion of a step: nothing was enabled and nothing happened, or one enabled step was taken. -/
theorem step_cases {s t : State} (h : step s = .next t) :
    (moves s = [] ∧ t = s) ∨
    ∃ m ∈ moves s, ∃ s', SameButChoices s s' ∧ runMove m s' = .next t := by
  unfold step takeStep at h
  split at h
  · rename_i hm
    cases h
    exact .inl ⟨nextMove_none.mp hm, rfl⟩
  · rename_i p hp
    obtain ⟨h1, h2⟩ := nextMove_some (m := p.1) (s' := p.2) hp
    exact .inr ⟨p.1, h1, p.2, h2, h⟩

/-- A step is the running of the step that comes next. -/
theorem step_nextMove {s s' : State} {m : Move} (h : nextMove s = some (m, s')) :
    step s = runMove m s' := by
  simp only [step, takeStep, h]

/-- Which of KSG's own steps are enabled (R173, R145, R193, R176, R213, R214). -/
theorem mem_agentMoves {s : State} {m : Move} (h : m ∈ agentMoves s) :
    ∃ sn, s.snap = some sn ∧
      ((m = .takeFault ∧ s.pending.isSome) ∨
       (s.pending = none ∧
        ((∃ e j, m = .dispatch e j ∧ s.engines[e]? = some .idle ∧ j < s.queue.length) ∨
         (∃ e sh u, m = .unit e ∧ s.engines[e]? = some (.running sh u) ∧ sh.start + u < sh.limit) ∨
         (m = .chunk ∧ ∃ f, s.fill = some f ∧ f.k < chunkCount sn.size.toNat) ∨
         (m = .complete ∧ workDone sn s = true)))) := by
  unfold agentMoves at h
  split at h
  · simp at h
  · rename_i sn hsn
    refine ⟨sn, hsn, ?_⟩
    split at h
    · rename_i p hp
      exact .inl ⟨by simpa using h, by simp [hp]⟩
    · rename_i hp
      refine .inr ⟨hp, ?_⟩
      rcases List.mem_append.mp h with h | h
      · rcases List.mem_append.mp h with h | h
        · rcases List.mem_append.mp h with h | h
          · left
            simp only [dispatchMoves, enginesWhere, List.mem_flatMap, List.mem_filter, List.mem_range,
              List.mem_map] at h
            obtain ⟨e, ⟨he, hi⟩, j, hj, rfl⟩ := h
            refine ⟨e, j, rfl, ?_, hj⟩
            rw [List.getElem?_eq_getElem he]
            rw [List.getD_eq_getElem _ _ he] at hi
            cases hx : s.engines[e] with
            | idle => rfl
            | running sh u => rw [hx] at hi; simp [Engine.isIdle] at hi
          · right; left
            simp only [unitMoves, enginesWhere, List.mem_filter, List.mem_range,
              List.mem_map] at h
            obtain ⟨e, ⟨he, hi⟩, rfl⟩ := h
            rw [List.getD_eq_getElem _ _ he] at hi
            cases hx : s.engines[e] with
            | idle => rw [hx] at hi; simp [Engine.hasUnit] at hi
            | running sh u =>
              rw [hx] at hi
              exact ⟨e, sh, u, rfl, by rw [List.getElem?_eq_getElem he, hx],
                by simpa [Engine.hasUnit] using hi⟩
        · right; right; left
          unfold chunkMoves at h
          split at h
          · rename_i hf
            refine ⟨by simpa using h, ?_⟩
            unfold fillHasChunk at hf
            split at hf
            · rename_i f hfill
              exact ⟨f, hfill, by simpa using hf⟩
            · simp at hf
          · simp at h
      · right; right; right
        unfold completeMoves at h
        split at h
        · rename_i hw
          exact ⟨by simpa using h, hw⟩
        · simp at h

/-- The host's step is enabled exactly while an event is pending. -/
theorem host_mem_moves {s : State} : Move.host ∈ moves s ↔ s.bus ≠ [] := by
  constructor
  · intro h hb
    rcases List.mem_append.mp h with h | h
    · simp [hostMoves, hb] at h
    · obtain ⟨_, _, h | ⟨_, h⟩⟩ := mem_agentMoves h
      · simp at h
      · simp at h
  · intro h
    refine List.mem_append_left _ ?_
    cases hb : s.bus with
    | nil => exact absurd hb h
    | cons _ _ => simp [hostMoves, hb]

/-- An address is in the target range iff it lies between the range's ends (R196). -/
theorem inTarget_iff {sn : Snapshot} {x : Nat} :
    inTarget sn x = true ↔ (targetRange sn).1 ≤ x ∧ x < (targetRange sn).2 :=
  decide_eq_true_iff

/-- No command byte lies outside the target range. -/
theorem commandByte_outside {c : Config.Params} {sn : Snapshot} {x : Nat} (h : inTarget sn x = false) :
    commandByte c sn x = none := by
  simp [commandByte, h]

/-- With no race to settle, ending the races changes nothing. -/
theorem endRaces_of_none {s : State} {early : Bool} (h : s.raced = []) : endRaces early s = s := by
  unfold endRaces
  split
  · rw [h]; rfl
  · rfl

/-- Settling one race touches that byte of host memory and the model's own choice fields. -/
theorem settleRace_state (early : Bool) (sn : Snapshot) (c : Host.Cell) (s : State) :
    ∃ b ∈ raceWriteOptions early sn c s, ∃ cs d,
      settleRace early sn c s = { s with mem := memPut s.mem c.1 b, choices := cs, draws := d } := by
  have hpos : 0 < (raceWriteOptions early sn c s).length := by simp [raceWriteOptions]
  have hlt := choose_lt _ s hpos
  obtain ⟨cs, d, hc⟩ := choose_state (raceWriteOptions early sn c s).length s
  refine ⟨(raceWriteOptions early sn c s).getD
    (choose (raceWriteOptions early sn c s).length s).1 (some c.2), ?_, cs, d, ?_⟩
  · rw [List.getD_eq_getElem _ _ hlt]
    exact List.getElem_mem _
  · simp only [settleRace]
    rw [hc]

/-- Settling the races touches host memory and the model's own choice fields, and nothing else. -/
theorem settleRaces_state (early : Bool) (sn : Snapshot) (l : List Host.Cell) (s : State) :
    ∃ m cs d, settleRaces early sn l s = { s with mem := m, choices := cs, draws := d } := by
  induction l generalizing s with
  | nil => exact ⟨s.mem, s.choices, s.draws, rfl⟩
  | cons c rest ih =>
    obtain ⟨b, _, cs, d, h⟩ := settleRace_state early sn c s
    obtain ⟨m', cs', d', h'⟩ := ih (settleRace early sn c s)
    refine ⟨m', cs', d', ?_⟩
    rw [settleRaces, h', h]

theorem endRaces_state (early : Bool) (s : State) :
    ∃ m cs d, endRaces early s = { s with mem := m, choices := cs, draws := d } := by
  unfold endRaces
  split
  · exact settleRaces_state early _ _ s
  · exact ⟨s.mem, s.choices, s.draws, rfl⟩

/-- What settling races leaves: a listed byte holds the host's value, the command's or, at an early end,
what it was before the command; every other byte is as it was (R73(b), log 10). -/
theorem settleRaces_read {early : Bool} {sn : Snapshot} {l : List Host.Cell} (s : State)
    (hl : Memory.wf l = true) (x : Nat) :
    (memRead l x = none → memRead (settleRaces early sn l s).mem x = memRead s.mem x) ∧
    ∀ v, memRead l x = some v →
      memRead (settleRaces early sn l s).mem x = some v ∨
      memRead (settleRaces early sn l s).mem x = commandByte s.cfg sn x ∨
      (early = true ∧ memRead (settleRaces early sn l s).mem x = memRead s.before x) := by
  induction l generalizing s with
  | nil => exact ⟨fun _ => rfl, fun v h => by cases h⟩
  | cons c l ih =>
    obtain ⟨_, h2, h3⟩ := memWf_cons.mp hl
    obtain ⟨b, hb, cs, d, hh⟩ := settleRace_state early sn c s
    obtain ⟨i1, i2⟩ := ih (settleRace early sn c s) h3
    rw [settleRaces]
    rw [hh] at i1 i2 ⊢
    rw [memRead_cons]
    split
    · rename_i hx
      have hn : memRead l x = none := memRead_of_allAbove h2 (by omega)
      refine ⟨fun h => (Option.some_ne_none _ h).elim, fun v hv => ?_⟩
      rw [i1 hn, memRead_memPut, if_pos hx, hx]
      rcases List.mem_cons.mp hb with rfl | hb
      · exact .inl hv
      rcases List.mem_append.mp hb with hb | hb
      · obtain ⟨y, hy, rfl⟩ := List.mem_map.mp hb
        exact .inr (.inl (Option.mem_toList.mp hy).symm)
      · split at hb
        · rename_i he
          exact .inr (.inr ⟨he, by simpa using hb⟩)
        · cases hb
    · rename_i hx
      refine ⟨fun h => ?_, i2⟩
      rw [i1 h, memRead_memPut, if_neg hx]

/-- Every address of a memory in canonical form lies inside the address space (R60). -/
theorem wf_lt {m : Memory} (h : Memory.wf m = true) : ∀ c ∈ m, c.1 < 2 ^ 64 := by
  induction m with
  | nil => simp
  | cons c m ih =>
    obtain ⟨h1, _, h3⟩ := memWf_cons.mp h
    intro x hx
    rcases List.mem_cons.mp hx with rfl | hx
    · exact h1
    · exact ih h3 x hx

/-- Settling races keeps the canonical form. -/
theorem settleRaces_wf {early : Bool} {sn : Snapshot} {l : List Host.Cell} {s : State}
    (h : Memory.wf s.mem = true) (hl : ∀ c ∈ l, c.1 < 2 ^ 64) :
    Memory.wf (settleRaces early sn l s).mem = true := by
  induction l generalizing s with
  | nil => exact h
  | cons c rest ih =>
    obtain ⟨b, _, cs, d, hs⟩ := settleRace_state early sn c s
    refine ih ?_ fun x hx => hl x (List.mem_cons_of_mem _ hx)
    rw [hs]
    exact memPut_wf h (hl c List.mem_cons_self)

theorem endRaces_wf {early : Bool} {s : State} (h : Memory.wf s.mem = true) (hr : Memory.wf s.raced = true) :
    Memory.wf (endRaces early s).mem = true := by
  unfold endRaces
  split
  · exact settleRaces_wf h (wf_lt hr)
  · exact h

/-- Memory after reset is in canonical form. -/
theorem reset_mem_wf : Memory.wf State.reset.mem = true := rfl

end Sys2Proof.Machine
end

