-- ==== Sys2Proof/Laws/Agents.lean ====
section
/-! SUPPORT. What each step of KSG's agents does, in the case in which it is enabled; what each host
access changes; what a CMD write does. One lemma per operation, cited instead of unfolding it. -/

namespace Sys2Proof.Machine

/-! ## The choice fields -/

theorem SameButChoices.trans {s t u : State} (h : SameButChoices s t) (h' : SameButChoices t u) :
    SameButChoices s u := by
  obtain ⟨_, _, rfl⟩ := h
  obtain ⟨c, d, rfl⟩ := h'
  exact ⟨c, d, rfl⟩

/-- Which agents' steps are enabled does not depend on the choices. -/
theorem agentMoves_of_same {s t : State} (h : SameButChoices s t) : agentMoves t = agentMoves s := by
  obtain ⟨_, _, rfl⟩ := h
  rfl

/-! ## The agents' steps -/

/-- R173. -/
theorem dispatchStep_eq {s : State} {e j : Nat} {sh : Shard} (h : s.queue[j]? = some sh) :
    dispatchStep e j s
      = { s with queue := s.queue.eraseIdx j, engines := s.engines.set e (.running sh 0) } := by
  simp only [dispatchStep, h]

/-- R145, for an admitted transaction. -/
theorem unitStep_admitted {s : State} {e u : Nat} {sn : Snapshot} {sh : Shard} (hs : s.snap = some sn)
    (he : s.engines[e]? = some (.running sh u)) (ha : admits s.cfg (unitAddr sn sh u) 16 = true) :
    unitStep e s
      = { s with
          mem := memWriteBytes s.mem (unitAddr sn sh u) (unitBytes s.cfg sn.key sh.ctr0 u sn.t)
          engines := s.engines.set e (afterUnit sh u) } := by
  rw [unitStep, hs, he]
  simp only
  rw [if_pos ha]

/-- R213, for a refused transaction of an engine. -/
theorem unitStep_refused {s : State} {e u : Nat} {sn : Snapshot} {sh : Shard} (hs : s.snap = some sn)
    (he : s.engines[e]? = some (.running sh u)) (ha : admits s.cfg (unitAddr sn sh u) 16 = false) :
    unitStep e s
      = recordRefused (unitAddr sn sh u) { s with engines := s.engines.set e .idle } := by
  rw [unitStep, hs, he]
  simp only
  rw [if_neg (by simp [ha])]

/-- R193, for an admitted transaction. -/
theorem chunkStep_admitted {s : State} {sn : Snapshot} {f : FillAgent} (hs : s.snap = some sn)
    (hf : s.fill = some f)
    (ha : admits s.cfg (sn.out.toNat + 16 * f.k) (chunkLength sn.size.toNat f.k) = true) :
    chunkStep s
      = { s with
          mem := memWriteBytes s.mem (sn.out.toNat + 16 * f.k)
            (List.replicate (chunkLength sn.size.toNat f.k) f.byte)
          fill := some { f with k := f.k + 1 } } := by
  rw [chunkStep, hs, hf]
  simp only
  rw [if_pos ha]

/-- R213, for a refused transaction of the fill agent. -/
theorem chunkStep_refused {s : State} {sn : Snapshot} {f : FillAgent} (hs : s.snap = some sn)
    (hf : s.fill = some f)
    (ha : admits s.cfg (sn.out.toNat + 16 * f.k) (chunkLength sn.size.toNat f.k) = false) :
    chunkStep s = recordRefused (sn.out.toNat + 16 * f.k) { s with fill := none } := by
  rw [chunkStep, hs, hf]
  simp only
  rw [if_neg (by simp [ha])]

/-- R214, for a pending fault. -/
theorem takeFaultStep_eq {s : State} {sn : Snapshot} {p : PendingFault} (hs : s.snap = some sn)
    (hp : s.pending = some p) :
    takeFaultStep s = faultEntry p.code (opcode sn.op) p.addr (endRaces true s) := by
  rw [takeFaultStep, hs, hp]

/-! ## Host accesses -/

/-- A host read of host memory changes nothing of the machine. -/
theorem hostReadByte_state (x : Nat) (s : State) : SameButChoices s (hostReadByte x s).2 := by
  unfold hostReadByte
  split
  · exact .rfl'
  · split
    · exact choose_state _ _
    · exact .rfl'

theorem hostReadBytes_state (x n : Nat) (s : State) : SameButChoices s (hostReadBytes x n s).2 := by
  induction n generalizing x s with
  | zero => exact .rfl'
  | succ n ih => exact (hostReadByte_state x s).trans (ih _ _)

/-! ## CMD writes -/

/-- R29: a command whose write is dropped. -/
theorem exec_blocked (i : Instr) {s : State} (h : blocked s = true) : exec i s = .next (dropCommand s) := by
  cases i <;> simp [exec, execGenerate, execThreshold, execKeystream, unlessBlocked, h]

/-- R93, R115, R146, R195: what a command that is not dropped does, one case per outcome. -/
theorem exec_cases {i : Instr} {s t : State} (hb : blocked s = false) (h : exec i s = .next t) :
    (∃ code, t = faultEntry code (opcode i) 0 s) ∨
    (i = .threshold ∧ inUnitInterval s.regs.prob = true ∧
      t = { accept (takeSnapshot .threshold s) s with thresh := computeThreshold s.regs.prob }) ∨
    (i = .keystream ∧ wraps s.regs = false ∧ badUnitRange s.regs = false ∧
      t = { accept (takeSnapshot .keystream s) s with queue := keystreamQueue s.regs }) ∨
    (i = .generate ∧ wraps s.regs = false ∧
      ((classify s.cfg.eps s.regs.prob = .low ∧ t = acceptFill 0x00 s) ∨
       (classify s.cfg.eps s.regs.prob = .high ∧ t = acceptFill 0xFF s) ∨
       (classify s.cfg.eps s.regs.prob = .normal ∧ (outSizeOf s.regs).toNat % 16 = 0 ∧
         t = acceptShards s))) := by
  cases i with
  | threshold =>
    simp only [exec, execThreshold, unlessBlocked, hb, acceptThreshold, Bool.false_eq_true, if_false,
      Host.Outcome.next.injEq] at h
    subst h
    split
    · rename_i hu
      exact .inr (.inl ⟨rfl, hu, rfl⟩)
    · exact .inl ⟨_, rfl⟩
  | keystream =>
    simp only [exec, execKeystream, unlessBlocked, hb, acceptKeystream, Bool.false_eq_true, if_false,
      Host.Outcome.next.injEq] at h
    subst h
    split
    · exact .inl ⟨_, rfl⟩
    · rename_i hw
      split
      · exact .inl ⟨_, rfl⟩
      · rename_i hr
        exact .inr (.inr (.inl ⟨rfl, by simpa using hw, by simpa using hr, rfl⟩))
  | generate =>
    simp only [exec, execGenerate, unlessBlocked, hb, acceptGenerate, Bool.false_eq_true, if_false,
      Host.Outcome.next.injEq] at h
    subst h
    split
    · exact .inl ⟨_, rfl⟩
    · rename_i hw
      have hw : wraps s.regs = false := by simpa using hw
      split
      · rename_i hc
        exact .inr (.inr (.inr ⟨rfl, hw, .inl ⟨hc, rfl⟩⟩))
      · rename_i hc
        exact .inr (.inr (.inr ⟨rfl, hw, .inr (.inl ⟨hc, rfl⟩)⟩))
      · exact .inl ⟨_, rfl⟩
      · rename_i hc
        split
        · exact .inl ⟨_, rfl⟩
        · rename_i hn
          exact .inr (.inr (.inr ⟨rfl, hw, .inr (.inr ⟨hc, by simpa using hn, rfl⟩)⟩))

/-! ## The shard plan -/

/-- A range of the plan (R171) is not empty, ends by U, and is where its Units' shard starts. -/
theorem shardRanges_mem {U S a b : Nat} (h : (a, b) ∈ shardRanges U S) :
    a < b ∧ b ≤ U ∧ ∀ g, a ≤ g → g < b → shardStart U S g = a := by
  unfold shardRanges at h
  split at h
  · simp at h
  · split at h
    · rename_i h1
      simp only [List.mem_singleton, Prod.mk.injEq] at h
      obtain ⟨rfl, rfl⟩ := h
      exact ⟨by omega, le_refl _, fun g _ _ => by simp [shardStart, h1]⟩
    · rename_i h1
      simp only [List.mem_map, List.mem_range, Prod.mk.injEq] at h
      obtain ⟨k, hk, rfl, rfl⟩ := h
      have hS : 0 < S := by omega
      have hkU : k * S < U := by
        have : k + 1 ≤ (U + S - 1) / S := hk
        rw [Nat.le_div_iff_mul_le hS, Nat.add_mul] at this
        omega
      refine ⟨by rw [Nat.add_mul]; omega, by omega, fun g h2 h3 => ?_⟩
      rw [shardStart, if_neg h1]
      congr 1
      exact Nat.div_eq_of_lt_le h2 (by omega)

/-- Every Unit below U lies in a range of the plan (R171). -/
theorem shardRanges_cover {U S g : Nat} (hg : g < U) : ∃ a b, (a, b) ∈ shardRanges U S ∧ a ≤ g ∧ g < b := by
  unfold shardRanges
  rw [if_neg (by omega)]
  split
  · exact ⟨0, U, by simp, by omega, hg⟩
  · rename_i h
    have hS : 0 < S := by omega
    have h1 := Nat.div_mul_le_self g S
    have h2 := Nat.lt_div_mul_add hS (a := g)
    refine ⟨g / S * S, min ((g / S + 1) * S) U, ?_, h1, by rw [Nat.add_mul]; omega⟩
    simp only [List.mem_map, List.mem_range]
    refine ⟨g / S, ?_, rfl⟩
    rw [Nat.lt_iff_add_one_le, Nat.le_div_iff_mul_le hS, Nat.add_mul]
    omega

end Sys2Proof.Machine
end

