-- ==== Sys2Proof/Laws/PerInstr.lean ====
section
/-! SUPPORT. The statement family `Encoding`, one lemma per command (30_encoding.md R90, R98). -/

open Sys2Proof

/-- The command is well formed, and its word has its opcode in OP and 0 in every bit of RSV (R90, R98). -/
def Sys2Proof.Laws.Encoding.Statement (i : Instr) : Prop :=
  i.wellFormed = true ∧ (fieldsOf (encode i)).wellFormed = true ∧
    (fieldsOf (encode i)).op = opcode i ∧ (fieldsOf (encode i)).rsv = 0

theorem Sys2Proof.Laws.Encoding.generate : Sys2Proof.Laws.Encoding.Statement .generate := by
  unfold Sys2Proof.Laws.Encoding.Statement; decide

theorem Sys2Proof.Laws.Encoding.threshold : Sys2Proof.Laws.Encoding.Statement .threshold := by
  unfold Sys2Proof.Laws.Encoding.Statement; decide

theorem Sys2Proof.Laws.Encoding.keystream : Sys2Proof.Laws.Encoding.Statement .keystream := by
  unfold Sys2Proof.Laws.Encoding.Statement; decide
end

