-- ==== Sys2Proof/Laws/Run.lean ====
section
/-! SUPPORT. Laws of the run of a command: what a step of the host leaves to KSG's agents, how runs compose,
when a run is weakly fair, and when a host keeps its duty. -/

namespace Sys2Proof.Machine

/-! ## A step of the host while a command runs -/

/-- The two states differ in nothing that KSG's agents go by: the command, its work and BUSY are the same,
and so are the parameters. -/
structure KeepsRun (s t : State) : Prop where
  snap : t.snap = s.snap
  queue : t.queue = s.queue
  engines : t.engines = s.engines
  fill : t.fill = s.fill
  pending : t.pending = s.pending
  busy : t.status.busy = s.status.busy
  cfg : t.cfg = s.cfg

theorem KeepsRun.rfl' {s : State} : KeepsRun s s := ⟨rfl, rfl, rfl, rfl, rfl, rfl, rfl⟩

theorem KeepsRun.trans {s t u : State} (h : KeepsRun s t) (h' : KeepsRun t u) : KeepsRun s u :=
  ⟨h'.snap.trans h.snap, h'.queue.trans h.queue, h'.engines.trans h.engines, h'.fill.trans h.fill,
    h'.pending.trans h.pending, h'.busy.trans h.busy, h'.cfg.trans h.cfg⟩

theorem SameButChoices.keepsRun {s t : State} (h : SameButChoices s t) : KeepsRun s t := by
  obtain ⟨_, _, rfl⟩ := h
  exact ⟨rfl, rfl, rfl, rfl, rfl, rfl, rfl⟩

/-- The same steps of KSG's agents are enabled. -/
theorem KeepsRun.agentMoves_eq {s t : State} (h : KeepsRun s t) : agentMoves t = agentMoves s := by
  obtain ⟨h1, h2, h3, h4, h5, h6, _⟩ := h
  simp only [agentMoves, dispatchMoves, unitMoves, chunkMoves, completeMoves, enginesWhere, fillHasChunk,
    workDone, h1, h2, h3, h4, h5, h6]
  rfl

theorem regWrite_keepsRun (r : Reg) (d : U32) (s : State) :
    KeepsRun s (regWrite r d s) ∧ (regWrite r d s).bus = s.bus := by
  cases r <;> first
    | exact ⟨⟨rfl, rfl, rfl, rfl, rfl, rfl, rfl⟩, rfl⟩
    | (simp only [regWrite, writeStatus]; split <;> exact ⟨⟨rfl, rfl, rfl, rfl, rfl, rfl, rfl⟩, rfl⟩)

/-- While BUSY = 1 no write to the window reaches the running command (R29, R42). -/
theorem writeOffset_keepsRun {s t : State} {off : Nat} {w : U32} (hb : s.status.busy = true)
    (h : writeOffset off w s = .next t) : KeepsRun s t ∧ t.bus = s.bus := by
  have hbl : blocked s = true := by simp [blocked, hb]
  have hd : KeepsRun s (dropCommand s) ∧ (dropCommand s).bus = s.bus :=
    ⟨⟨rfl, rfl, rfl, rfl, rfl, rfl, rfl⟩, rfl⟩
  unfold writeOffset at h
  split at h
  · unfold commandWrite at h
    split at h
    · rw [exec_blocked _ hbl] at h
      cases h
      exact hd
    · cases h
      simpa only [illegalCommand, unlessBlocked, hbl, if_true] using hd
  · cases h
    exact regWrite_keepsRun _ _ _
  · cases h
    exact ⟨.rfl', rfl⟩

/-- While BUSY = 1 an event of the outside world other than a reset leaves the running command as it is
(R42, R77), and has at most itself put back on the bus. -/
theorem hostEvent_keepsRun {s t : State} {ev : HostEvent} (hb : s.status.busy = true) (hr : ev ≠ .reset)
    (h : hostEvent ev s = .next t) : KeepsRun s t ∧ ∀ e ∈ t.bus, e = ev ∨ e ∈ s.bus := by
  have ans : ∀ (u : State) (r : BusReply), KeepsRun u (answer r u) ∧ (answer r u).bus = u.bus :=
    fun u r => ⟨⟨rfl, rfl, rfl, rfl, rfl, rfl, rfl⟩, rfl⟩
  have same : t.bus = s.bus → ∀ e ∈ t.bus, e = ev ∨ e ∈ s.bus := fun hbus e he => .inr (hbus ▸ he)
  cases ev with
  | read addr n =>
    simp only [hostEvent, hostRead] at h
    split at h
    · cases h
      exact ⟨(ans _ _).1, same rfl⟩
    · split at h
      · cases h
        exact ⟨(ans _ _).1, same rfl⟩
      · split at h
        · cases h
        · cases h
          obtain ⟨cs, d, hs⟩ := hostReadBytes_state addr.toNat n s
          rw [hs]
          exact ⟨⟨rfl, rfl, rfl, rfl, rfl, rfl, rfl⟩, fun e he => .inr he⟩
  | write addr bytes =>
    simp only [hostEvent, hostWrite] at h
    split at h
    · obtain ⟨h1, h2⟩ := writeOffset_keepsRun (s := answer .written s) hb h
      exact ⟨(ans s .written).1.trans h1, same h2⟩
    · split at h
      · cases h
        exact ⟨(ans _ _).1, same rfl⟩
      · split at h
        · cases h
        · cases h
          exact ⟨⟨rfl, rfl, rfl, rfl, rfl, rfl, rfl⟩, same rfl⟩
  | wait =>
    cases h
    simp only [hostWait, hb, if_true]
    exact ⟨⟨rfl, rfl, rfl, rfl, rfl, rfl, rfl⟩, fun e he => List.mem_cons.mp he⟩
  | reset => exact (hr rfl).elim

/-! ## Runs -/

/-- A run of `m + n` steps is a run of `m` and then one of `n`. -/
theorem runWhileBusy_add (m n : Nat) (s : State) :
    runWhileBusy (m + n) s = (runWhileBusy m s).bind (runWhileBusy n) := by
  induction m generalizing s with
  | zero => rw [Nat.zero_add]; rfl
  | succ m ih =>
    rw [show m + 1 + n = (m + n) + 1 by omega, runWhileBusy, runWhileBusy]
    split
    · split
      · exact ih _
      · rfl
      · rfl
    · rfl

/-- A run that ends is weakly fair. -/
theorem weaklyFair_of_ends {s t : State} {n : Nat} (h : runWhileBusy n s = some t)
    (ht : t.status.busy = false) : WeaklyFair s := by
  intro m u mv hu hb _
  have hmn : m ≤ n := by
    by_contra hlt
    obtain ⟨k, rfl⟩ : ∃ k, m = n + (k + 1) := ⟨m - n - 1, by omega⟩
    rw [runWhileBusy_add, h, Option.bind_some, runWhileBusy, ht] at hu
    cases hu
  refine ⟨n - m, t, ?_, .inl ht⟩
  rwa [show m + (n - m) = n by omega]

/-- A host with nothing to do but WAIT before it looks at anything keeps its duty in the next step. -/
theorem keepsDuty_of_head {s : State} {sn : Snapshot} {n : Nat}
    (hd : ∀ ev, s.bus.head? = some ev → ev = .wait)
    (h : ∀ t, step s = .next t → KeepsDuty sn n t) : KeepsDuty sn (n + 1) s :=
  ⟨fun _ ev _ he => by rw [hd ev he]; trivial, h⟩

end Sys2Proof.Machine
end

