-- ==== Sys2Proof/Tests/Slice0.lean ====
section
/-! SUPPORT. The model's own tests, each with an expected result from spec/95_test_vectors.md or from a
rule's own numbers, and the witnesses: for every obligation with hypotheses a state and operands that
meet them. -/

namespace Sys2Proof.Tests

open Sys2Proof Sys2Proof.Machine

/-! ## States for the tests -/

/-- Operand registers with seeds (1, 1), which make K11, and OUT, N, S, start, limit below 2^32. -/
def ops (prob out size shardUnits start limit : U32) (offset : Bool) : Operands :=
  { Operands.reset with
    ctrMode := offset, prob := prob, seedLo := 1, seed1Lo := 1, outAddrLo := out, outSizeLo := size,
    shardUnitsLo := shardUnits, ksStartLo := start, ksLimitLo := limit }

/-- A resting machine with one engine, THRESH = 0x8000, and every open choice settled as the first. -/
def idle (r : Operands) (refuse : List Config.AdmitRule) : State :=
  { State.reset with
    thresh := 0x8000, regs := r, cfg := { Config.Params.default with refuse := refuse }
    choices := [0, 0, 0, 0, 0, 0, 0, 0] }

/-- A resting machine whose PROB is the pattern. -/
def idleP (prob : U32) : State := idle (ops prob 0x1000 16 0 0 1 false) []

/-- A machine with FAULT = 1. -/
def faulted : State := faultEntry .sizeAlign 0x01 0 (idleP 0)

/-- The next state of an outcome; `s` where there is none. -/
def nextOr (s : State) : Result → State
  | .next t    => t
  | .fault _   => s
  | .refused _ => s

/-- The state right after the command is written. -/
def after (i : Instr) (s : State) : State := nextOr s (exec i s)

/-- Are the bytes from `a` on these? -/
def holds (s : State) (a : Nat) (bs : List Byte) : Bool :=
  (List.range bs.length).all fun i => memRead s.mem (a + i) == bs[i]?

/-- K11 of the test vectors. -/
def k11 : U128 := 0x00000000000000010000000000000001

/-- V20's Unit. -/
def v20 : List Byte :=
  [0xae, 0x1e, 0xa0, 0x02, 0xf0, 0x03, 0xf2, 0x8c, 0x9e, 0xc3, 0xaa, 0x7c, 0xef, 0xe8, 0xe5, 0x71]

/-! ## WellFormed: each check refuses an ill-formed word -/

theorem test_wellFormed_accepts_the_three :
    (⟨0x01, 0⟩ : Cmd32).wellFormed ∧ (⟨0x02, 0⟩ : Cmd32).wellFormed ∧
      (⟨0x03, 0⟩ : Cmd32).wellFormed := by decide

theorem test_wellFormed_refuses_reserved_bits :
    (⟨0x01, 0x000001⟩ : Cmd32).rsvIsZero = false ∧ (⟨0x01, 0x000001⟩ : Cmd32).wellFormed = false ∧
      (⟨0x01, 0x800000⟩ : Cmd32).wellFormed = false := by decide

theorem test_wellFormed_refuses_unassigned_opcode :
    (⟨0x00, 0⟩ : Cmd32).opIsAssigned = false ∧ (⟨0x00, 0⟩ : Cmd32).wellFormed = false ∧
      (⟨0x04, 0⟩ : Cmd32).wellFormed = false ∧ (⟨0xFF, 0⟩ : Cmd32).wellFormed = false := by decide

theorem test_params_step_must_be_odd :
    Config.Params.default.wellFormed = true ∧
      { Config.Params.default with step := 2 }.wellFormed = false ∧
      { Config.Params.default with delta := 1, step := 1 }.wellFormed = false := by decide

/-! ## Decoding (R98's table; V50) -/

theorem test_decode_generate :
    decode [0b00000001, 0b00000000, 0b00000000, 0b00000000] = .command .generate := by decide

theorem test_decode_threshold :
    decode [0b00000010, 0b00000000, 0b00000000, 0b00000000] = .command .threshold := by decide

theorem test_decode_keystream :
    decode [0b00000011, 0b00000000, 0b00000000, 0b00000000] = .command .keystream := by decide

theorem test_decode_rejects_by_name :
    decode (bytesOfWord 0x00000000) = .illegal (.reservedOpcode 0x00) ∧
      decode (bytesOfWord 0x000000FF) = .illegal (.reservedOpcode 0xFF) ∧
      decode (bytesOfWord 0x00000101) = .illegal .reservedBits ∧
      decode (bytesOfWord 0x80000002) = .illegal .reservedBits ∧
      decode [0x01, 0x00, 0x00] = .illegal .notOneWord := by decide

theorem test_decodeTableWord :
    decodeTableWord 32 1 = some .generate ∧ decodeTableWord 32 2 = some .threshold ∧
      decodeTableWord 32 3 = some .keystream ∧ decodeTableWord 32 0x101 = none := by decide

/-! ## THRESHOLD and Decide (V10, V12) -/

theorem test_computeThreshold :
    [0x00000001, 0x34000001, 0x37000080, 0x37000081, 0x3E99999A, 0x3EFFFFFF, 0x3F000000, 0x3F333333,
      0x3F7FFF7F, 0x3F7FFF80].map computeThreshold
      = [0, 0, 0, 1, 19661, 32767, 32768, 45874, 65534, 65535] := by decide +kernel

theorem test_decide_corners :
    decideLane 0 0 = true ∧ decideLane 1 0 = false ∧ decideLane 0x7FFF 0x8000 = true ∧
      decideLane 0x8000 0x8000 = true ∧ decideLane 0x8001 0x8000 = false ∧
      decideLane 0xFFFF 0xFFFE = false := by decide

/-- V10, V50: THRESHOLD at −0 gives 0; at 1 + 2^-23 it faults and THRESH keeps its value. -/
theorem test_threshold_command :
    (after .threshold (idleP 0x80000000)).thresh = 0 ∧
      regRead .status (after .threshold (idleP 0x80000000)) = 0x00000001 ∧
      (after .threshold (idleP 0x3F800001)).thresh = 0x8000 ∧
      regRead .faultCause (after .threshold (idleP 0x3F800001)) = 0x00000202 := by decide +kernel

/-! ## The keystream (V1, V2, V5, V6, V20 to V22) -/

/-- V1: the FIPS-197 round, whose round key KSG's round applies first. -/
theorem test_aesRound :
    bytesOf (aesRound (fromBytes [0x19, 0x3d, 0xe3, 0xbe, 0xa0, 0xf4, 0xe2, 0x2b,
        0x9a, 0xc6, 0x8d, 0x2a, 0xe9, 0xf8, 0x48, 0x08]) 0)
      = [0x04, 0x66, 0x81, 0xe5, 0xe0, 0xcb, 0x19, 0x9a,
        0x48, 0xf8, 0xd3, 0x7a, 0x28, 0x06, 0x26, 0x4c] := by decide +kernel

/-- V5, block (1, B). -/
theorem test_block :
    bytesOf (block .default k11 0 1 true)
      = [0xaa, 0xe5, 0x4b, 0xdd, 0xc2, 0x49, 0xe5, 0x44,
        0x9c, 0x46, 0x2a, 0xf4, 0x7a, 0xe0, 0x25, 0xcc] := by decide +kernel

theorem test_unit_v20 : unitBytes .default k11 0 0 32768 = v20 := by decide +kernel

/-- V6: the Counter wraps. -/
theorem test_unit_v6 :
    unitBytes .default k11 (BitVec.allOnes 128) 0 32768
      = [0xca, 0x42, 0xd8, 0xf7, 0xf0, 0x03, 0xf2, 0x8c,
        0x9e, 0xc3, 0xaa, 0x7c, 0xef, 0xe8, 0xe5, 0x71] := by decide +kernel

/-- V22 and V4: Unit 1, and Unit 0 from CTR0 = 8 × STEP, are the same bytes. -/
theorem test_unit_v22 :
    unitBytes .default k11 0 1 32768
        = [0x6f, 0xf4, 0x04, 0xcb, 0xf7, 0x86, 0x30, 0x83,
          0x7d, 0x9e, 0x4e, 0xe2, 0x67, 0x52, 0xce, 0x59] ∧
      unitBytes .default k11 0xf1bbcdcbfa53e0af9ce60302e76e41a8 0 32768
        = unitBytes .default k11 0 1 32768 := by decide +kernel

/-- V29: the first decided lane is the most significant bit. -/
theorem test_packing_order :
    (packBlocks ((List.range 16).map fun t => if t % 2 = 0 then 0 else BitVec.allOnes 128) 0x8000).getD 6 0
      = 0xAA := by decide +kernel

/-! ## GENERATE and KEYSTREAM: the accepting step (V37, V38, V51, V32, V33) -/

theorem test_classify :
    [0x34000000, 0x34000001, 0x3F7FFFFD, 0x3F7FFFFE, 0x3F800001, 0x3F800002, 0xFF800000, 0x7F800000,
      0x7FC00000].map (classify Config.defaultEps)
      = [.low, .normal, .normal, .high, .high, .range, .low, .range, .range] := by decide +kernel

/-- V51: GENERATE with N = 20: SIZE_ALIGN for p = 0.5, a fill for p = 0, PROB_RANGE for a NaN. -/
theorem test_generate_checks :
    regRead .faultCause (after .generate (idle (ops 0x3F000000 0x1000 20 0 0 0 false) [])) = 0x0103 ∧
      regRead .status (after .generate (idle (ops 0 0x1000 20 0 0 0 false) [])) = 1 ∧
      regRead .faultCause (after .generate (idle (ops 0x7FC00000 0x1000 20 0 0 0 false) [])) = 0x0102 := by
  decide +kernel

/-- V33, V4: in OFFSET mode with S = 2 the shard that starts at Unit 2 starts at 16 × STEP. -/
theorem test_generate_shards :
    (after .generate (idle (ops 0x3F000000 0x1000 48 2 0 0 true) [])).queue
      = [⟨0, 2, 0⟩, ⟨2, 3, 0xe3779b97f4a7c15f39cc0605cedc8350⟩] := by decide +kernel

/-- V23: 16 × 3 = 48 = N is allowed and queues nothing; start = 2, limit = 1 faults UNIT_RANGE. -/
theorem test_keystream_checks :
    (after .keystream (idle (ops 0 0x1000 48 0 3 3 false) [])).queue = [] ∧
      regRead .status (after .keystream (idle (ops 0 0x1000 48 0 3 3 false) [])) = 1 ∧
      regRead .faultCause (after .keystream (idle (ops 0 0x1000 48 0 2 1 false) [])) = 0x0304 := by
  decide +kernel

/-! ## One step (V53, V54, and the host's fixed names) -/

/-- The first step after reset runs the word that `withFetchWord` places: with the reset operands GENERATE
is a LOW fill of no byte, THRESHOLD gives 0, KEYSTREAM has no Unit (R195, R115, R146). -/
theorem test_step_after_reset :
    regRead .status (nextOr State.reset (step (State.reset.withFetchWord 32 1))) = 1 ∧
      (nextOr State.reset (step (State.reset.withFetchWord 32 1))).fill = some ⟨0, 0⟩ ∧
      regRead .status (nextOr State.reset (step (State.reset.withFetchWord 32 2))) = 1 ∧
      regRead .status (nextOr State.reset (step (State.reset.withFetchWord 32 3))) = 1 := by decide +kernel

/-- V50: an illegal word faults with its OP. -/
theorem test_step_illegal_word :
    regRead .status (nextOr State.reset (step (State.reset.withFetchWord 32 0x101))) = 0x00000004 ∧
      regRead .faultCause (nextOr State.reset (step (State.reset.withFetchWord 32 0x101))) = 0x00000101 ∧
      regRead .faultCause (nextOr State.reset (step (State.reset.withFetchWord 32 0xFF))) = 0x0000FF01 := by
  decide +kernel

/-- V53: registers through the bus. -/
theorem test_window_registers :
    regRead .ctrl (nextOr State.reset (hostWrite 0x08 [0xFF, 0xFF, 0xFF, 0xFF] State.reset)) = 1 ∧
      regRead .thresh (nextOr State.reset (hostWrite 0x18 [0x34, 0x12, 0xFF, 0xFF] State.reset)) = 0x1234 ∧
      (nextOr State.reset (hostRead 0x00 4 State.reset)).replies
        = [.data [some 0x31, some 0x47, some 0x53, some 0x4B]] ∧
      (nextOr State.reset (hostRead 0x00 2 State.reset)).replies = [.busError] ∧
      (nextOr State.reset (hostRead 0x02 4 State.reset)).replies = [.busError] := by decide +kernel

/-- V54: THRESHOLD written while a GENERATE runs is dropped. -/
theorem test_dropped_command :
    regRead .status (after .threshold (after .generate (idleP 0x3F000000))) = 0x00000009 ∧
      (after .threshold (after .generate (idleP 0x3F000000))).thresh = 0x8000 := by decide +kernel

/-- R97: the line GEN is these bus records. -/
theorem test_encode_gen_line :
    encodeLine (.gen 0x3F000000 1 1 0x2000 48 (some 1) (some 1))
      = [.w 0x14 0x3F000000, .w 0x20 1, .w 0x24 0, .w 0x28 1, .w 0x2C 0, .w 0x30 0x2000, .w 0x34 0,
         .w 0x38 48, .w 0x3C 0, .w 0x40 1, .w 0x44 0, .w 0x08 1, .w 0x10 1, .poll] := by decide

/-- R97, R40: WR64 takes every pair of R20, FAULT_ADDR too, whose writes are ignored. -/
theorem test_wr64_fault_addr :
    encodeLine (.wr64 .faultAddr 0x1122334455667788) = [.w 0x78 0x55667788, .w 0x7C 0x11223344] ∧
      writeOffset 0x78 0x55667788 faulted = .next faulted ∧
      writeOffset 0x7C 0x11223344 faulted = .next faulted := ⟨by decide, rfl, rfl⟩

/-! ## Witnesses: states that meet the invariant -/

/-- A resting machine of the tests meets the invariant. -/
theorem witness_inv_idle (r : Operands) (refuse : List Config.AdmitRule) : MachineInv (idle r refuse) where
  memForm := rfl
  beforeForm := rfl
  racedForm := rfl
  hasEngine := by simp [idle, State.reset, State.resetOf]
  resting _ := ⟨rfl, rfl, by simp [idle, State.reset, State.resetOf], rfl, rfl, rfl, rfl⟩
  running sn h := by simp [idle, State.reset, State.resetOf] at h
  recordClear _ := rfl
  recordSet h := by simp [idle, State.reset, State.resetOf, Status.reset] at h
  faultAddr _ := rfl

/-- A LOW fill of 17 bytes that has just been accepted. -/
def filling : State := after .generate (idle (ops 0 0x1000 17 0 0 0 false) [])

/-- The same fill after its first chunk: its last chunk is one byte long. -/
def filling1 : State := nextOr filling (runMove .chunk filling)

/-- The same fill, with a byte of its target range that the host has written. -/
def fillRaced : State := { filling with raced := [(0x1010, 0x55)] }

/-- A KEYSTREAM over the Units [1, 3) of a 48-byte buffer that has just been accepted. -/
def queued (refuse : List Config.AdmitRule) : State :=
  after .keystream (idle (ops 0 0x1000 48 0 1 3 false) refuse)

/-- The same KEYSTREAM once its shard runs on engine 0. -/
def running (refuse : List Config.AdmitRule) : State :=
  nextOr (queued refuse) (runMove (.dispatch 0 0) (queued refuse))

/-- The same KEYSTREAM once host memory has refused its first Unit. -/
def failing : State :=
  nextOr (running [.exactly 0x1010 16]) (runMove (.unit 0) (running [.exactly 0x1010 16]))

/-- The snapshot of the command that runs; of `i` where none does. -/
def snapOf (i : Instr) (s : State) : Snapshot := s.snap.getD (takeSnapshot i s)

theorem witness_low_byte (c : Config.Params) (sn : Snapshot) (x : Nat) (ho : sn.op = .generate)
    (hc : classify c.eps sn.p = .low) (hx : inTarget sn x = true) : commandByte c sn x = some 0 := by
  rw [commandByte, if_pos hx]
  simp [ho, hc]

theorem witness_keystream_fits (c : Config.Params) (sn : Snapshot) (ho : sn.op = .keystream)
    (h : sn.start.toNat < sn.limit.toNat) :
    ShardFits c sn ⟨sn.start.toNat, sn.limit.toNat, sn.ctr0⟩ where
  nonempty := h
  bytes g j h1 h2 hj := by
    have ht : inTarget sn (sn.out.toNat + 16 * g + j) = true := by
      simp only [inTarget, targetRange, ho, decide_eq_true_eq]
      simp only at h1 h2
      omega
    rw [commandByte, if_pos ht]
    simp only [ho]
    rw [show sn.out.toNat + 16 * g + j - sn.out.toNat = 16 * g + j by omega,
      show (16 * g + j) / 16 = g by omega, show (16 * g + j) % 16 = j by omega]

/-- A shard that is the whole work of a KEYSTREAM (R146). -/
def isKeystreamShard (sn : Snapshot) (sh : Shard) : Bool :=
  decide (sn.op = .keystream ∧ sn.start.toNat < sn.limit.toNat ∧
    sh = ⟨sn.start.toNat, sn.limit.toNat, sn.ctr0⟩)

/-- The points of `MachineInv` as a check, for a running KEYSTREAM or LOW fill. -/
def runCheck (sn : Snapshot) (s : State) : Bool :=
  decide (s.snap = some sn ∧ Memory.wf s.mem = true ∧ Memory.wf s.before = true ∧ Memory.wf s.raced = true ∧
    s.engines ≠ [] ∧ s.status.busy = true ∧ s.status.done = false ∧ s.status.fault = false ∧
    s.record = .clear ∧ (targetRange sn).2 ≤ 2 ^ 64) &&
  s.queue.all (isKeystreamShard sn) &&
  s.engines.all (fun e => match e with
    | .idle         => true
    | .running sh u => isKeystreamShard sn sh && decide (sh.start + u < sh.limit)) &&
  (match s.fill with
    | none   => true
    | some f => decide (sn.op = .generate ∧ f.k ≤ chunkCount sn.size.toNat ∧
        classify s.cfg.eps sn.p = .low ∧ f.byte = 0)) &&
  (match s.pending with
    | none   => true
    | some p => decide (p.code = .busError) && inTarget sn p.addr.toNat) &&
  s.raced.all fun c => inTarget sn c.1

theorem witness_shard_fits {c : Config.Params} {sn : Snapshot} {sh : Shard}
    (h : isKeystreamShard sn sh = true) : ShardFits c sn sh := by
  obtain ⟨ho, hlt, rfl⟩ := of_decide_eq_true h
  exact witness_keystream_fits c sn ho hlt

/-- A state that passes the check meets the invariant. -/
theorem witness_inv {sn : Snapshot} {s : State} (h : runCheck sn s = true) : MachineInv s := by
  simp only [runCheck, Bool.and_eq_true, decide_eq_true_eq, List.all_eq_true] at h
  obtain ⟨⟨⟨⟨⟨⟨hs, h1, h2, h3, h4, h5, h6, h7, h8, h9⟩, hq⟩, he⟩, hf⟩, hp⟩, hr⟩ := h
  refine ⟨h1, h2, h3, h4, fun h => ?_, fun sn' h => ?_, fun _ => h8, fun h => ?_, fun _ => ?_⟩
  · rw [hs] at h; cases h
  · rw [hs] at h; cases h
    refine ⟨⟨h5, h6, h7⟩, h9, fun sh hsh => witness_shard_fits (hq sh hsh), ?_, ?_, ?_, hr⟩
    · intro e hem
      have := he e hem
      cases e with
      | idle => trivial
      | running sh u =>
        simp only [Bool.and_eq_true, decide_eq_true_eq] at this
        exact ⟨witness_shard_fits this.1, this.2⟩
    · intro f hff
      rw [hff] at hf
      obtain ⟨a, b, c, d⟩ := of_decide_eq_true hf
      exact ⟨a, b, fun x hx => by rw [d]; exact witness_low_byte _ _ x a c hx⟩
    · intro p hpp
      rw [hpp] at hp
      simpa using hp
  · rw [h7] at h; cases h
  · rw [h8]; rfl

theorem witness_inv_filling : MachineInv filling :=
  witness_inv (sn := snapOf .generate filling) (by decide +kernel)

theorem witness_inv_filling1 : MachineInv filling1 :=
  witness_inv (sn := snapOf .generate filling1) (by decide +kernel)

theorem witness_inv_fillRaced : MachineInv fillRaced :=
  witness_inv (sn := snapOf .generate fillRaced) (by decide +kernel)

theorem witness_inv_queued : MachineInv (queued []) :=
  witness_inv (sn := snapOf .keystream (queued [])) (by decide +kernel)

theorem witness_inv_running : MachineInv (running []) :=
  witness_inv (sn := snapOf .keystream (running [])) (by decide +kernel)

theorem witness_inv_failing : MachineInv failing :=
  witness_inv (sn := snapOf .keystream failing) (by decide +kernel)

/-! ## Witnesses: the hypotheses of each obligation, met together (clause by clause where it has several) -/

/-- Neither BUSY nor FAULT: a CMD write is decoded. -/
def free (s : State) : Bool := !s.status.busy && !s.status.fault

theorem witness_LegalWordsAndIllegalOnes :
    (∀ i, decode (bytesOfWord 0x00000101) ≠ .command i) ∧
      (∀ i, decode (bytesOfWord 0x00000004) ≠ .command i) ∧ free (idleP 0) = true := by
  refine ⟨?_, ?_, by decide⟩ <;> intro i <;> cases i <;> decide

theorem witness_DecodeEncodeRoundTrip :
    decode (bytesOfWord 0x00000001) = .command .generate ∧
      decode (bytesOfWord 0x00000003) = .command .keystream := by decide

theorem witness_StepRunsTheDecodedCommand :
    decode (bytesOfWord 0x00000002) = .command .threshold ∧
      decodeTableWord 32 2 = some .threshold ∧ decodeTableWord 8 2 = some .threshold ∧
      ({ idleP 0 with bus := [cmdEvent (idleP 0).cfg 2, .wait] } : State).bus
        = cmdEvent (idleP 0).cfg 2 :: [.wait] := by decide

theorem witness_CommandWriteDroppedOrDecoded :
    filling.status.busy = true ∧ faulted.status.fault = true ∧ free (idleP 0) = true ∧
      decode (bytesOfWord 0x00000003) = .command .keystream ∧
      decode (bytesOfWord 0x80000002) = .illegal .reservedBits := by decide +kernel

theorem witness_ThresholdIsAccepted :
    free (idleP 0x80000000) = true ∧ f32 0x80000000 = .real 0 ∧ f32 0x3F800000 = .real (2 ^ 149) ∧
      f32 0x00000001 = .real 1 := by decide +kernel

theorem witness_ThresholdFaultsOutsideUnitInterval :
    free (idleP 0x3F800001) = true ∧ f32 0x3F800001 = .real (2 ^ 149 + 2 ^ 126) ∧
      f32 0x80000001 = .real (-1) ∧ f32 0x7FC00000 = .nan ∧ f32 0x7F800000 = .posInf ∧
      f32 0xFF800000 = .negInf := by decide +kernel

theorem witness_ThresholdRunsToDone :
    MachineInv (idleP 0x3F000000) ∧ free (idleP 0x3F000000) = true ∧ (idleP 0x3F000000).bus = [] ∧
      inUnitInterval (idleP 0x3F000000).regs.prob = true :=
  ⟨witness_inv_idle _ _, by decide, by decide, by decide +kernel⟩

theorem witness_ThresholdProperties :
    inUnitInterval 0x37000080 = true ∧ inUnitInterval 0x3F7FFF80 = true ∧
      magnitudeOf 0x37000080 ≤ magnitudeOf 0x3F7FFF80 ∧ (0x37000080 : U32).getLsbD 31 = false ∧
      inUnitInterval 0x80000000 = true ∧ inUnitInterval 0x3F000000 = true := by decide +kernel

theorem witness_DecideComparesUnsigned : (65534 : U16) ≠ 65535 ∧ (0 : U16) ≠ 65535 := by decide

theorem witness_BytesAndLanesAreLittleEndian : (List.replicate 16 (0xAB : Byte)).length = 16 := by decide

theorem witness_CounterNeverRepeats :
    Config.Params.default.step.getLsbD 0 = true ∧
      counter .default 7 (2 ^ 128 - 1) = counter .default 7 (2 ^ 128 - 1) := by decide +kernel

theorem witness_KeystreamIsAccepted :
    free (idle (ops 0 0x1000 48 0 1 3 false) []) = true ∧ wraps (ops 0 0x1000 48 0 1 3 false) = false ∧
      badUnitRange (ops 0 0x1000 48 0 1 3 false) = false ∧
      badUnitRange (ops 0 0x1000 48 0 3 3 false) = false ∧
      wraps { ops 0 0xFFFFFFD0 48 0 0 3 false with outAddrHi := 0xFFFFFFFF } = false := by decide +kernel

/-- V23, V51: one operand set for each clause; OUT = 2^64 − 32 with N = 48 wraps, OUT = 2^64 − 48 does not. -/
theorem witness_PreCheckFaultsInOrder :
    wraps { ops 0 0xFFFFFFE0 48 0 0 3 false with outAddrHi := 0xFFFFFFFF } = true ∧
      wraps { ops 0 0xFFFFFFD0 48 0 0 3 false with outAddrHi := 0xFFFFFFFF } = false ∧
      badUnitRange (ops 0 0x1000 48 0 2 1 false) = true ∧
      badUnitRange (ops 0 0x1000 48 0 0 4 false) = true ∧
      classify Config.defaultEps 0x3F800002 = .range ∧
      classify Config.defaultEps 0x34000001 = .normal ∧
      (outSizeOf (ops 0x34000001 0x1000 20 0 0 0 false)).toNat % 16 ≠ 0 := by decide +kernel

/-- The ends of each class: EPS, the pattern above it, and the last HIGH pattern. -/
theorem witness_ClassOfProbability :
    classify Config.defaultEps 0x34000000 = .low ∧ classify Config.defaultEps 0xFF800000 = .low ∧
      classify Config.defaultEps 0x34000001 = .normal ∧ classify Config.defaultEps 0x3F7FFFFD = .normal ∧
      classify Config.defaultEps 0x3F7FFFFE = .high ∧ classify Config.defaultEps 0x3F800001 = .high ∧
      free (idleP 0x3F800002) = true ∧ wraps (idleP 0x3F800002).regs = false ∧
      classify (idleP 0x3F800002).cfg.eps (idleP 0x3F800002).regs.prob = .range := by decide +kernel

theorem witness_GenerateFillIsAccepted :
    free (idleP 0x34000000) = true ∧ wraps (idleP 0x34000000).regs = false ∧
      classify (idleP 0x34000000).cfg.eps (idleP 0x34000000).regs.prob = .low ∧
      classify (idleP 0x3F800001).cfg.eps (idleP 0x3F800001).regs.prob = .high := by decide +kernel

theorem witness_GenerateShardsAreAccepted :
    free (idleP 0x3F000000) = true ∧ wraps (idleP 0x3F000000).regs = false ∧
      classify (idleP 0x3F000000).cfg.eps (idleP 0x3F000000).regs.prob = .normal ∧
      (outSizeOf (idleP 0x3F000000).regs).toNat % 16 = 0 := by decide +kernel

theorem witness_ShardsPartitionTheUnits :
    shardRanges 0 3 = [] ∧ shardRanges 3 3 = [(0, 3)] ∧ shardRanges 3 0 = [(0, 3)] ∧
      shardRanges 7 3 = [(0, 3), (3, 6), (6, 7)] ∧ (7 + 3 - 1) / 3 = 3 := by decide

theorem witness_DispatchStepRule :
    (queued []).snap.isSome ∧ (queued []).pending = none ∧ (queued []).engines[0]? = some .idle ∧
      0 < (queued []).queue.length ∧ (queued []).queue[0]? = some ⟨1, 3, 0⟩ := by decide +kernel

theorem witness_UnitStepWritesOneUnit :
    (running []).snap = some (snapOf .keystream (running [])) ∧ (running []).pending = none ∧
      (running []).engines[0]? = some (.running ⟨1, 3, 0⟩ 0) ∧
      admits (running []).cfg 0x1010 16 = true ∧
      (snapOf .keystream (running [])).out.toNat + 16 * (1 + 0) = 0x1010 := by decide +kernel

/-- At the last chunk, of one byte. -/
theorem witness_ChunkStepWritesOneChunk :
    filling1.snap = some (snapOf .generate filling1) ∧ filling1.pending = none ∧
      filling1.fill = some ⟨0, 1⟩ ∧ (snapOf .generate filling1).size.toNat = 17 ∧
      admits filling1.cfg 0x1010 1 = true ∧
      (snapOf .generate filling1).out.toNat + 16 * 1 = 0x1010 := by decide +kernel

theorem witness_RefusedWriteBecomesPending :
    (running [.exactly 0x1010 16]).snap.isSome ∧
      (running [.exactly 0x1010 16]).engines[0]? = some (.running ⟨1, 3, 0⟩ 0) ∧
      admits (running [.exactly 0x1010 16]).cfg 0x1010 16 = false ∧
      (snapOf .generate filling1).out.toNat + 16 * 1 = 0x1010 ∧
      admits { Config.Params.default with refuse := [.exactly 0x1010 1] } 0x1010 1 = false ∧
      failing.pending = some ⟨.busError, 0x1010⟩ ∧ Move.takeFault ∈ agentMoves failing := by decide +kernel

theorem witness_CompletionStepRule :
    (after .threshold (idleP 0)).snap.isSome ∧
      Move.complete ∈ agentMoves (after .threshold (idleP 0)) ∧
      Move.complete ∉ agentMoves filling ∧ (after .threshold (idleP 0)).raced = [] := by decide +kernel

theorem witness_FaultEntryRule :
    failing.snap.isSome ∧ failing.pending = some ⟨.busError, 0x1010⟩ ∧ failing.raced = [] := by
  decide +kernel

theorem witness_AgentsStayInTargetRange :
    MachineInv (running []) ∧ (running []).snap = some (snapOf .keystream (running [])) ∧
      Move.unit 0 ∈ agentMoves (running []) ∧
      runMove (.unit 0) (running []) = .next (nextOr (running []) (runMove (.unit 0) (running []))) ∧
      inTarget (snapOf .keystream (running [])) 0x100F = false :=
  ⟨witness_inv_running, by decide +kernel, by decide +kernel, rfl, by decide +kernel⟩

theorem witness_AgentFrame :
    Move.chunk ∈ agentMoves filling ∧ Move.dispatch 0 0 ∈ agentMoves (queued []) ∧
      Move.unit 0 ∈ agentMoves (running []) ∧ Move.takeFault ∈ agentMoves failing ∧
      runMove .chunk filling = .next filling1 := by
  refine ⟨?_, ?_, ?_, ?_, rfl⟩ <;> decide +kernel

theorem witness_AgentsNeverReadHostMemory :
    Move.chunk ∈ agentMoves filling1 ∧
      runMove .chunk filling1 = .next (nextOr filling1 (runMove .chunk filling1)) :=
  ⟨by decide +kernel, rfl⟩

theorem witness_AnyEnabledStepMayComeNext :
    Move.chunk ∈ moves { filling with bus := [.wait] } ∧
      Move.host ∈ moves { filling with bus := [.wait] } ∧
      step filling = .next (nextOr filling (step filling)) :=
  ⟨by decide +kernel, by decide +kernel, rfl⟩

theorem witness_RegisterMapIsComplete : regAt 0x74 = none ∧ regAt 0x7C = some .faultAddrHi := by decide

theorem witness_RegisterReadAfterWrite : Reg.prob ≠ Reg.thresh ∧ Reg.status ≠ Reg.faultCause ∧ Reg.status ≠ Reg.prob := by decide

/-- An aligned register, the last one; and accesses of 2 bytes, of a misaligned word, and of bytes on both
sides of the window's start. -/
theorem witness_WindowAccessRule :
    (124 < 128 ∧ 124 % 4 = 0) ∧ touchesWindow .default 0x7C 2 = true ∧
      touchesWindow .default 0x7D 4 = true ∧
      touchesWindow { Config.Params.default with regBase := 0x7000 } 0x6FFE 4 = true ∧
      registerAccess { Config.Params.default with regBase := 0x7000 } 0x6FFE 4 = false := by decide +kernel

theorem witness_HostLinesAreRegisterAccesses :
    Reg.prob ≠ .cmd ∧
      ({ filling with bus := programEvents filling.cfg [.wr .prob 7, .wait] } : State).bus
        = programEvents filling.cfg [.wr .prob 7] ++ [.wait] ∧
      ({ filling with bus := programEvents filling.cfg [.wait] } : State).bus
        = programEvents filling.cfg [.wait] ++ [] ∧
      filling.status.busy = true ∧ (idleP 0).status.busy = false := by decide +kernel

theorem witness_SboxIsAffineOfInverse :
    (0 : Byte) = 0 ∧ (0x53 : Byte) ≠ 0 ∧ gfMul 0x53 0xCA = 1 ∧ sbox 0x53 = sbox 0x53 := by decide

theorem witness_AesRoundByteByByte : (0 : Nat) < 4 ∧ (3 : Nat) < 4 := by decide

/-- The last decision of the last Unit of three, and the last bit of its last byte. -/
theorem witness_BitAddressOfADecision :
    (2 : Nat) < 3 ∧ (15 : Nat) < 16 ∧ (7 : Nat) < 8 ∧ (0 : Nat) < 8 := by decide

theorem witness_OperandAssembly : (0 : Nat) < 8 ∧ (7 : Nat) < 8 := by decide

theorem witness_ResetMeetsInvariant : 1 ≤ State.reset.engines.length := by decide

theorem witness_ResetRule : (idleP 0).raced = [] ∧ filling.engines ≠ [] := by decide +kernel

theorem witness_StepKeepsInvariant :
    MachineInv (running []) ∧ step (running []) = .next (nextOr (running []) (step (running []))) :=
  ⟨witness_inv_running, rfl⟩

theorem witness_BusyMachineIsNeverStuck : MachineInv failing ∧ failing.status.busy = true :=
  ⟨witness_inv_failing, by decide +kernel⟩

/-! ## Witnesses: whole commands -/

/-- Has the outside world, before each of the next `n` steps, nothing but a WAIT first on the bus? -/
def waitsFirst : Nat → State → Bool
  | 0, _     => true
  | n + 1, s =>
    (match s.bus with
      | []         => true
      | .wait :: _ => true
      | _          => false) &&
    match step s with
    | .next t    => waitsFirst n t
    | .fault _   => true
    | .refused _ => true

theorem witness_keepsDuty (sn : Snapshot) {n : Nat} {s : State} (h : waitsFirst n s = true) :
    KeepsDuty sn n s := by
  induction n generalizing s with
  | zero => trivial
  | succ n ih =>
    simp only [waitsFirst, Bool.and_eq_true] at h
    refine keepsDuty_of_head ?_ fun t ht => ?_
    · intro ev he
      have h1 := h.1
      split at h1
      · rename_i hb; rw [hb] at he; cases he
      · rename_i hb; rw [hb] at he; cases he; rfl
      · cases h1
    · have h2 := h.2
      rw [ht] at h2
      exact ih h2

/-- Does command `i`, written in `s`, run to its end in `n` steps, with the flag DONE as said and the bytes
`bs` at 0x1000, the host doing nothing but WAIT? -/
def endCheck (i : Instr) (s : State) (n : Nat) (done : Bool) (bs : List Byte) : Bool :=
  match exec i s with
  | .next s1 =>
    decide (blocked s = false ∧ s1.snap.isSome ∧ s1.status.busy = true) && waitsFirst n s1 &&
    (match runWhileBusy n s1 with
      | some t => !t.status.busy && t.status.done == done && t.status.fault == !done && holds t 0x1000 bs
      | none   => false)
  | .fault _   => false
  | .refused _ => false

theorem witness_command_ends {i : Instr} {s : State} {n : Nat} {done : Bool} {bs : List Byte}
    (hinv : MachineInv s) (h : endCheck i s n done bs = true) :
    ∃ t, CommandEnds i s (snapOf i (after i s)) t ∧ t.status.done = done ∧ t.status.fault = !done := by
  unfold endCheck at h
  split at h
  · rename_i s1 hs1
    simp only [Bool.and_eq_true, decide_eq_true_eq] at h
    obtain ⟨⟨⟨hb, hsn, -⟩, hduty⟩, h⟩ := h
    split at h
    · rename_i t ht
      simp only [Bool.and_eq_true, Bool.not_eq_true', beq_iff_eq] at h
      obtain ⟨⟨⟨h1, h2⟩, h3⟩, -⟩ := h
      refine ⟨t, ⟨⟨hinv, hb, s1, n, hs1, ?_, ?_, ht⟩, h1⟩, h2, h3⟩
      · obtain ⟨sn, hsn⟩ := Option.isSome_iff_exists.mp hsn
        simp [snapOf, after, hs1, nextOr, hsn]
      · exact witness_keepsDuty _ hduty
    · cases h
  · cases h
  · cases h

/-- GENERATE at p = 0.5 over 32 bytes at 0x1000 (V31 to V33). -/
def gen32 (shardUnits : U32) (offset : Bool) (refuse : List Config.AdmitRule) : State :=
  idle (ops 0x3F000000 0x1000 32 shardUnits 0 0 offset) refuse

/-- V22's Unit. -/
def v22 : List Byte :=
  [0x6f, 0xf4, 0x04, 0xcb, 0xf7, 0x86, 0x30, 0x83, 0x7d, 0x9e, 0x4e, 0xe2, 0x67, 0x52, 0xce, 0x59]

/-- The machine of `gen32 0`, with a host that WAITs for the end and then reads the buffer (70 R243). -/
def gen32Waits : State :=
  { gen32 0 false [] with bus := [.wait, .read 0x1000 32], choices := [0, 1, 0, 1, 1, 1] }

theorem witness_inv_gen32Waits : MachineInv gen32Waits := by
  have h := witness_inv_idle (ops 0x3F000000 0x1000 32 0 0 0 false) []
  exact ⟨h.memForm, h.beforeForm, h.racedForm, h.hasEngine,
    fun _ => ⟨rfl, rfl, (h.resting rfl).engines, rfl, rfl, rfl, rfl⟩, fun sn hs => absurd hs (by
      simp [gen32Waits, gen32, idle, State.reset, State.resetOf]), fun _ => rfl, fun hf => absurd hf (by
      decide), fun _ => rfl⟩

/-- With the host's WAIT pending, and with nothing pending. The run of six steps, two of them WAIT's, ends
after four of KSG's own, R249's number. -/
theorem witness_CommandEndsWithinItsBound :
    (MachineInv gen32Waits ∧ blocked gen32Waits = false ∧
      exec .generate gen32Waits = .next (after .generate gen32Waits) ∧
      (after .generate gen32Waits).status.busy = true ∧ WeaklyFair (after .generate gen32Waits) ∧
      ksgSteps 6 (after .generate gen32Waits) = 4 ∧ stepBound .generate gen32Waits = 4) ∧
    (after .generate (gen32 1 false [])).bus = [] ∧ stepBound .generate (gen32 1 false []) = 5 := by
  refine ⟨⟨witness_inv_gen32Waits, by decide, rfl, by decide +kernel, ?_, by decide +kernel,
    by decide +kernel⟩, by decide +kernel, by decide +kernel⟩
  exact weaklyFair_of_ends (n := 6)
    (t := (runWhileBusy 6 (after .generate gen32Waits)).getD State.reset) (by decide +kernel)
    (by decide +kernel)

/-- R251, R243: the host that WAITs and then reads the buffer keeps its duty for the run, and has no write
pending. -/
theorem witness_command_ends_with_host :
    (∃ t, CommandEnds .generate gen32Waits (snapOf .generate (after .generate gen32Waits)) t ∧
      t.status.done = true ∧ t.status.fault = false) ∧
    HostWritesNothing gen32Waits ∧ HostLeavesByte gen32Waits 0x1020 := by
  refine ⟨witness_command_ends (n := 6) (bs := v20 ++ v22) witness_inv_gen32Waits (by decide +kernel),
    fun a b h => ?_, fun a b h => ?_⟩ <;>
    simp [gen32Waits] at h

/-- A write pending to the byte above the buffer leaves the byte after that alone. -/
theorem witness_HostLeavesByte :
    HostLeavesByte { gen32Waits with bus := [.wait, .write 0x1020 [0xAA]] } 0x1021 := by
  intro a b h
  simp at h
  obtain ⟨rfl, rfl⟩ := h
  exact .inr (by decide)

theorem witness_threshold_ends :
    ∃ t, CommandEnds .threshold (idleP 0) (snapOf .threshold (after .threshold (idleP 0))) t ∧
      t.status.done = true ∧ t.status.fault = false :=
  witness_command_ends (n := 1) (bs := []) (witness_inv_idle _ _) (by decide +kernel)

/-- V35: a LOW fill of 17 bytes ends with zeros. -/
theorem witness_DegenerateGenerateFills_low :
    (∃ t, CommandEnds .generate (idle (ops 0 0x1000 17 0 0 0 false) [])
      (snapOf .generate filling) t ∧ t.status.done = true ∧ t.status.fault = false) ∧
    classify Config.defaultEps 0 = .low :=
  ⟨witness_command_ends (n := 3) (bs := List.replicate 17 0) (witness_inv_idle _ _) (by decide +kernel),
    by decide +kernel⟩

/-- V37: a HIGH fill of 5 bytes ends with 0xFF. -/
theorem witness_DegenerateGenerateFills_high :
    (∃ t, CommandEnds .generate (idle (ops 0x3F800000 0x1000 5 0 0 0 false) [])
      (snapOf .generate (after .generate (idle (ops 0x3F800000 0x1000 5 0 0 0 false) []))) t ∧
      t.status.done = true ∧ t.status.fault = false) ∧
    classify Config.defaultEps 0x3F800000 = .high :=
  ⟨witness_command_ends (n := 2) (bs := List.replicate 5 0xFF) (witness_inv_idle _ _) (by decide +kernel),
    by decide +kernel⟩

/-- V32: in RESTART mode with S = 1 both Units are V20's. -/
theorem witness_RestartRepeatsTheKeystream :
    (∃ t, CommandEnds .generate (gen32 1 false [])
      (snapOf .generate (after .generate (gen32 1 false []))) t ∧
      t.status.done = true ∧ t.status.fault = false) ∧
    classify Config.defaultEps 0x3F000000 = .normal ∧ shardRanges 2 1 = [(0, 1), (1, 2)] ∧
    (gen32 1 false []).bus = [] :=
  ⟨witness_command_ends (n := 5) (bs := v20 ++ v20) (witness_inv_idle _ _) (by decide +kernel),
    by decide +kernel, by decide, rfl⟩

/-- V33: in OFFSET mode with S = 1 the buffer is V31's first two Units. -/
theorem witness_OffsetModeIsShardInvariant :
    (∃ t, CommandEnds .generate (gen32 1 true [])
      (snapOf .generate (after .generate (gen32 1 true []))) t ∧
      t.status.done = true ∧ t.status.fault = false) ∧
    classify Config.defaultEps 0x3F000000 = .normal ∧ (gen32 1 true []).regs.ctrMode = true :=
  ⟨witness_command_ends (n := 5) (bs := v20 ++ v22) (witness_inv_idle _ _) (by decide +kernel),
    by decide +kernel, rfl⟩

/-- V31: one shard, for S = 0 and for S = U. -/
theorem witness_SingleShardAgreesInBothModes :
    (∃ t, CommandEnds .generate (gen32 0 false [])
      (snapOf .generate (after .generate (gen32 0 false []))) t ∧
      t.status.done = true ∧ t.status.fault = false) ∧
    (∃ t, CommandEnds .generate (gen32 2 true [])
      (snapOf .generate (after .generate (gen32 2 true []))) t ∧
      t.status.done = true ∧ t.status.fault = false) :=
  ⟨witness_command_ends (n := 4) (bs := v20 ++ v22) (witness_inv_idle _ _) (by decide +kernel),
    witness_command_ends (n := 4) (bs := v20 ++ v22) (witness_inv_idle _ _) (by decide +kernel)⟩

theorem witness_GenerateBufferIsFixed :
    (∃ t, CommandEnds .generate (gen32 1 true [])
      (snapOf .generate (after .generate (gen32 1 true []))) t ∧
      t.status.done = true ∧ t.status.fault = false) ∧
    classify (gen32 1 true []).cfg.eps (gen32 1 true []).regs.prob = .normal ∧
    (1, 2) ∈ shardRanges ((outSizeOf (gen32 1 true []).regs).toNat / 16)
      (shardUnitsOf (gen32 1 true []).regs).toNat :=
  ⟨witness_OffsetModeIsShardInvariant.1, by decide +kernel, by decide +kernel⟩

/-- V23: KEYSTREAM over the Unit [0, 1) of a 48-byte buffer. -/
theorem witness_KeystreamBufferIsFixed :
    (∃ t, CommandEnds .keystream (idle (ops 0 0x1000 48 0 0 1 false) [])
      (snapOf .keystream (after .keystream (idle (ops 0 0x1000 48 0 0 1 false) []))) t ∧
      t.status.done = true ∧ t.status.fault = false) ∧
    (startOf (ops 0 0x1000 48 0 0 1 false)).toNat + 0 < (limitOf (ops 0 0x1000 48 0 0 1 false)).toNat :=
  ⟨witness_command_ends (n := 3) (bs := v20) (witness_inv_idle _ _) (by decide +kernel), by decide⟩

/-- V52(a): the second Unit is refused; the first is written. -/
theorem witness_BusErrorLeavesOldOrNewBytes :
    ∃ t, CommandEnds .generate (gen32 0 false [.touching 0x1010 0x101F])
      (snapOf .generate (after .generate (gen32 0 false [.touching 0x1010 0x101F]))) t ∧
      t.status.done = false ∧ t.status.fault = true :=
  witness_command_ends (n := 4) (bs := v20) (witness_inv_idle _ _) (by decide +kernel)

theorem witness_CommandEndsDoneOrFaulted_and_CompletedCommandWritesItsTarget :
    (∃ t, CommandEnds .generate (gen32 0 false [])
      (snapOf .generate (after .generate (gen32 0 false []))) t ∧
      t.status.done = true ∧ t.status.fault = false) ∧
    inTarget (snapOf .generate (after .generate (gen32 0 false []))) 0x101F = true ∧
    inTarget (snapOf .generate (after .generate (gen32 0 false []))) 0x1020 = false ∧
    (gen32 0 false []).bus = [] :=
  ⟨witness_SingleShardAgreesInBothModes.1, by decide +kernel, by decide +kernel, rfl⟩

/-- The same snapshot on a machine with another schedule and another memory. -/
def gen32Other : State := { gen32 1 true [] with choices := [1, 1, 1, 1, 1, 1], mem := [(0x1000, 0x55)] }

theorem witness_EqualSnapshotsGiveEqualBytes :
    (∃ t, CommandEnds .generate (gen32 1 true [])
      (snapOf .generate (after .generate (gen32 1 true []))) t ∧
      t.status.done = true ∧ t.status.fault = false) ∧
    (∃ t, CommandEnds .generate gen32Other (snapOf .generate (after .generate gen32Other)) t ∧
      t.status.done = true ∧ t.status.fault = false) ∧
    snapOf .generate (after .generate (gen32 1 true []))
      = snapOf .generate (after .generate gen32Other) ∧
    inTarget (snapOf .generate (after .generate gen32Other)) 0x101F = true := by
  refine ⟨witness_OffsetModeIsShardInvariant.1, witness_command_ends (n := 5) (bs := v20 ++ v22) ?_
    (by decide +kernel), by decide +kernel, by decide +kernel⟩
  have h := witness_inv_idle (ops 0x3F000000 0x1000 32 1 0 0 true) []
  exact ⟨by decide, h.beforeForm, h.racedForm, h.hasEngine,
    fun _ => ⟨rfl, rfl, (h.resting rfl).engines, rfl, rfl, rfl, rfl⟩, fun sn hs => absurd hs (by
      simp [gen32Other, gen32, idle, State.reset, State.resetOf]), fun _ => rfl, fun hf => absurd hf (by
      decide), fun _ => rfl⟩

theorem witness_PreCheckFaultsArePrecise :
    MachineInv (idleP 0x7FC00000) ∧ blocked (idleP 0x7FC00000) = false ∧
      exec .generate (idleP 0x7FC00000) = .next (after .generate (idleP 0x7FC00000)) ∧
      (after .generate (idleP 0x7FC00000)).status.fault = true :=
  ⟨witness_inv_idle _ _, by decide, rfl, by decide +kernel⟩

theorem witness_AdmittedCommandsComplete :
    (∃ t, CommandEnds .generate (gen32 0 false [])
      (snapOf .generate (after .generate (gen32 0 false []))) t ∧
      t.status.done = true ∧ t.status.fault = false) ∧
    ∀ a n, 0 < n → n ≤ 16 → (targetRange (snapOf .generate (after .generate (gen32 0 false [])))).1 ≤ a →
      a + n ≤ (targetRange (snapOf .generate (after .generate (gen32 0 false [])))).2 →
      admits (gen32 0 false []).cfg a n = true := by
  refine ⟨witness_SingleShardAgreesInBothModes.1, fun a n _ _ _ h => ?_⟩
  have h2 : (targetRange (snapOf .generate (after .generate (gen32 0 false [])))).2 = 0x1020 := by
    decide +kernel
  rw [h2] at h
  have hr : (gen32 0 false []).cfg.refuse = [] := rfl
  rw [admits, hr, decide_eq_true (show a + n ≤ 2 ^ 64 by omega)]
  rfl

/-- A GENERATE that has written its first Unit and is still busy when reset comes. -/
theorem witness_ResetDuringACommand :
    ∃ t, CommandReaches .generate (gen32 0 false [])
        (snapOf .generate (after .generate (gen32 0 false []))) t ∧
      t.status.busy = true ∧ holds t 0x1000 v20 = true ∧ hostEvent .reset t = .next (resetStep t) := by
  exact ⟨(runWhileBusy 2 (after .generate (gen32 0 false []))).getD State.reset,
    ⟨witness_inv_idle _ _, by decide, _, 2, rfl, by decide +kernel,
      witness_keepsDuty _ (by decide +kernel), by decide +kernel⟩,
    by decide +kernel, by decide +kernel, rfl⟩

/-- Events that keep the host's duty: WAIT, a register access, and a write just past the target range. -/
theorem witness_KeepsOff :
    ∀ ev ∈ [HostEvent.wait, .read 0x0C 4, .write 0x1020 [0xAA]],
      KeepsOff (gen32 0 false []).cfg (snapOf .generate (after .generate (gen32 0 false []))) ev := by
  intro ev h
  simp only [List.mem_cons, List.not_mem_nil, or_false] at h
  rcases h with rfl | rfl | rfl
  · trivial
  · exact .inl (by decide +kernel)
  · refine .inr fun i hi => ?_
    have : i = 0 := by simpa using hi
    subst this
    decide +kernel

/-- The refused KEYSTREAM, with a byte of its target range that the host has written. -/
def failRaced : State := { failing with raced := [(0x1015, 0x55)] }

theorem witness_inv_failRaced : MachineInv failRaced :=
  witness_inv (sn := snapOf .keystream failRaced) (by decide +kernel)

/-- 93 U8 with log 2: a raced byte that had no value before the command may have none after a reset. -/
theorem test_race_at_reset :
    [0, 1, 2].map (fun k =>
        memRead (nextOr fillRaced (hostEvent .reset { fillRaced with choices := [k] })).mem 0x1010)
      = [some 0x55, some 0x00, none] := by decide +kernel

/-- (a) a byte of the target range that the host has not written; (b) one that it has, at completion, at
fault entry and at a reset. -/
theorem witness_RacesAreOldOrNew :
    (MachineInv failRaced ∧ failRaced.snap = some (snapOf .keystream failRaced) ∧
      failRaced.pending.isSome ∧ memRead failRaced.raced 0x1015 = some 0x55 ∧
      runMove .takeFault failRaced = .next (nextOr failRaced (runMove .takeFault failRaced)) ∧
      hostEvent .reset failRaced = .next (resetStep failRaced)) ∧
    (MachineInv fillRaced ∧ fillRaced.snap = some (snapOf .generate fillRaced) ∧
      inTarget (snapOf .generate fillRaced) 0x1000 = true ∧ memRead fillRaced.raced 0x1000 = none) ∧
    memRead fillRaced.raced 0x1010 = some 0x55 ∧
      runMove .complete fillRaced = .next (nextOr fillRaced (runMove .complete fillRaced)) :=
  ⟨⟨witness_inv_failRaced, by decide +kernel, by decide +kernel, by decide +kernel, rfl, rfl⟩,
    ⟨witness_inv_fillRaced, by decide +kernel, by decide +kernel, by decide +kernel⟩,
    by decide +kernel, rfl⟩

end Sys2Proof.Tests
end

section
/-! PROOFS. Every step keeps the machine invariant, the parameters and the number of engines (O44). -/

namespace Sys2Proof.Machine

/-! ## Command bytes (R146, R178, R193) -/

/-- Byte `j` of Unit `g` of a KEYSTREAM. -/
theorem commandByte_keystream {c : Config.Params} {sn : Snapshot} {g j : Nat} (ho : sn.op = .keystream)
    (hs : sn.start.toNat ≤ g) (hl : g < sn.limit.toNat) (hj : j < 16) :
    commandByte c sn (sn.out.toNat + 16 * g + j)
      = some ((unitBytes c sn.key sn.ctr0 (g - sn.start.toNat) sn.t).getD j 0) := by
  have hx : inTarget sn (sn.out.toNat + 16 * g + j) = true := by
    rw [inTarget_iff]
    simp only [targetRange, ho]
    omega
  have hi : sn.out.toNat + 16 * g + j - sn.out.toNat = 16 * g + j := by omega
  rw [commandByte, if_pos hx]
  simp only [ho, hi, show (16 * g + j) / 16 = g by omega, show (16 * g + j) % 16 = j by omega]

/-- Byte `j` of Unit `g` of a keystream-path GENERATE. -/
theorem commandByte_generate {c : Config.Params} {sn : Snapshot} {g j : Nat} (ho : sn.op = .generate)
    (hc : classify c.eps sn.p = .normal) (hg : g < sn.size.toNat / 16) (hj : j < 16) :
    commandByte c sn (sn.out.toNat + 16 * g + j) = some ((generateUnit c sn g).getD j 0) := by
  have hx : inTarget sn (sn.out.toNat + 16 * g + j) = true := by
    rw [inTarget_iff]
    simp only [targetRange, ho]
    omega
  have hi : sn.out.toNat + 16 * g + j - sn.out.toNat = 16 * g + j := by omega
  rw [commandByte, if_pos hx]
  simp only [ho, hc, hi, show (16 * g + j) / 16 = g by omega, show (16 * g + j) % 16 = j by omega]

/-- Every byte of a LOW fill is 0x00. -/
theorem commandByte_low {c : Config.Params} {sn : Snapshot} {x : Nat} (ho : sn.op = .generate)
    (hc : classify c.eps sn.p = .low) (hx : inTarget sn x = true) : commandByte c sn x = some 0x00 := by
  rw [commandByte, if_pos hx]
  simp only [ho, hc]

/-- Every byte of a HIGH fill is 0xFF. -/
theorem commandByte_high {c : Config.Params} {sn : Snapshot} {x : Nat} (ho : sn.op = .generate)
    (hc : classify c.eps sn.p = .high) (hx : inTarget sn x = true) : commandByte c sn x = some 0xFF := by
  rw [commandByte, if_pos hx]
  simp only [ho, hc]

/-- An address that the command gives a byte lies in the target range. -/
theorem inTarget_of_commandByte {c : Config.Params} {sn : Snapshot} {x : Nat} {b : Byte}
    (h : commandByte c sn x = some b) : inTarget sn x = true := by
  by_contra hx
  rw [commandByte_outside (by simpa using hx)] at h
  cases h

/-! ## The shards of an accepted command -/

/-- The shard of a KEYSTREAM writes the command's bytes (R146). -/
theorem keystreamQueue_fits {c : Config.Params} {s : State} :
    ∀ sh ∈ keystreamQueue s.regs, ShardFits c (takeSnapshot .keystream s) sh := by
  intro sh h
  unfold keystreamQueue at h
  split at h
  · rename_i hlt
    rw [List.mem_singleton] at h
    subst h
    exact ⟨hlt, fun g j hs hl hj => commandByte_keystream rfl hs hl hj⟩
  · cases h

/-- The shards of a keystream-path GENERATE write the command's bytes (R171, R172, R178). -/
theorem generateQueue_fits {c : Config.Params} {sn : Snapshot} (ho : sn.op = .generate)
    (hc : classify c.eps sn.p = .normal) :
    ∀ sh ∈ generateQueue c sn.mode (sn.size.toNat / 16) sn.shardUnits.toNat, ShardFits c sn sh := by
  intro sh h
  obtain ⟨⟨a, b⟩, hab, rfl⟩ := List.mem_map.mp h
  obtain ⟨hlt, hle, hstart⟩ := shardRanges_mem hab
  refine ⟨hlt, fun g j hs hl hj => ?_⟩
  rw [commandByte_generate ho hc (Nat.lt_of_lt_of_le hl hle) hj, generateUnit, hstart g hs hl]

/-! ## What a step keeps -/

/-- `t` meets the invariant, with the parameters and the number of engines of `s`. -/
structure InvStep (s t : State) : Prop where
  inv : MachineInv t
  cfg : t.cfg = s.cfg
  width : t.engines.length = s.engines.length

theorem InvStep.trans {s t u : State} (h : InvStep s t) (h' : InvStep t u) : InvStep s u :=
  ⟨h'.inv, h'.cfg.trans h.cfg, h'.width.trans h.width⟩

theorem InvStep.refl {s : State} (hi : MachineInv s) : InvStep s s := ⟨hi, rfl, rfl⟩

/-- The host's registers, the bus and the choices are no part of the invariant. -/
theorem MachineInv.setUnread {s : State} (hi : MachineInv s) (th : U16) (regs : Operands)
    (bus : List HostEvent) (replies : List BusReply) (choices : List Nat) (draws : Nat) :
    InvStep s { s with
      thresh := th, regs := regs, bus := bus, replies := replies, choices := choices, draws := draws } where
  inv := { hi with
    resting := fun h => { hi.resting h with }
    running := fun sn h => { hi.running sn h with } }
  cfg := rfl
  width := rfl

theorem SameButChoices.invStep {s t : State} (h : SameButChoices s t) (hi : MachineInv s) :
    InvStep s t := by
  obtain ⟨cs, d, rfl⟩ := h
  exact hi.setUnread ..

theorem answer_invStep {s : State} (r : BusReply) (hi : MachineInv s) : InvStep s (answer r s) :=
  hi.setUnread ..

/-- Host memory may be any in canonical form. -/
theorem MachineInv.setMem {s : State} {m : Memory} (hi : MachineInv s) (hm : Memory.wf m = true) :
    InvStep s { s with mem := m } where
  inv := { hi with
    memForm := hm
    resting := fun h => { hi.resting h with }
    running := fun sn h => { hi.running sn h with } }
  cfg := rfl
  width := rfl

/-- Flags other than BUSY may change as long as DONE does not rise, and FAULT falls only together with its
record (R24 to R28, R217). -/
theorem MachineInv.setFlags {s : State} {f : Status} {r : FaultRecord} (hi : MachineInv s)
    (hb : f.busy = s.status.busy) (hd : s.status.done = false → f.done = false)
    (hf : f.fault = s.status.fault ∧ r = s.record ∨ f.fault = false ∧ r = .clear) :
    InvStep s { s with status := f, record := r } where
  inv := { hi with
    resting := fun h => { hi.resting h with busy := hb.trans (hi.resting h).busy }
    running := fun sn h => by
      obtain ⟨busy, done, fault⟩ := (hi.running sn h).flags
      refine { hi.running sn h with flags := ⟨hb.trans busy, hd done, ?_⟩ }
      rcases hf with ⟨hf, -⟩ | ⟨hf, -⟩
      · exact hf.trans fault
      · exact hf
    recordClear := fun h => by
      rcases hf with ⟨hf, rfl⟩ | ⟨-, rfl⟩
      · exact hi.recordClear (hf.symm.trans h)
      · rfl
    recordSet := fun h => by
      rcases hf with ⟨hf, rfl⟩ | ⟨hf, -⟩
      · obtain ⟨code, done⟩ := hi.recordSet (hf.symm.trans h)
        exact ⟨code, hd done⟩
      · exact absurd (hf.symm.trans h) Bool.false_ne_true
    faultAddr := fun h => by
      rcases hf with ⟨-, rfl⟩ | ⟨-, rfl⟩
      · exact hi.faultAddr h
      · rfl }
  cfg := rfl
  width := rfl

theorem dropCommand_invStep {s : State} (hi : MachineInv s) : InvStep s (dropCommand s) :=
  hi.setFlags (r := s.record) rfl id (.inl ⟨rfl, rfl⟩)

/-- Fault entry leaves a resting machine with a record (R214); the address is 0 unless it is a
BUS_ERROR (R40). -/
theorem faultEntry_invStep {s : State} {code : Cause} {op : Byte} {a : U64} (hi : MachineInv s)
    (hc : code ≠ .none) (ha : code ≠ .busError → a = 0) : InvStep s (faultEntry code op a s) where
  inv :=
    { memForm := hi.memForm
      beforeForm := rfl
      racedForm := rfl
      hasEngine := by simpa using hi.hasEngine
      resting := fun _ => ⟨rfl, rfl, by simp, rfl, rfl, rfl, rfl⟩
      running := fun _ h => by cases h
      recordClear := fun h => by cases h
      recordSet := fun _ => ⟨hc, rfl⟩
      faultAddr := ha }
  cfg := rfl
  width := by simp

/-! ## CMD writes (R29, R93) -/

/-- Where a CMD write is not dropped, FAULT is 0 and no command runs. -/
theorem MachineInv.rest_of_not_blocked {s : State} (hi : MachineInv s) (hb : blocked s = false) :
    s.status.fault = false ∧ Resting s := by
  obtain ⟨hbusy, hfault⟩ : s.status.busy = false ∧ s.status.fault = false := by
    simpa [blocked] using hb
  refine ⟨hfault, hi.resting ?_⟩
  cases h : s.snap with
  | none => rfl
  | some sn => simp [(hi.running sn h).flags.1] at hbusy

/-- Acceptance, with the command's work in the queue or with the fill agent (R93). -/
theorem accept_invStep {s : State} {sn : Snapshot} {th : U16} {q : List Shard} {f : Option FillAgent}
    (hi : MachineInv s) (hb : blocked s = false) (space : (targetRange sn).2 ≤ 2 ^ 64)
    (hq : ∀ sh ∈ q, ShardFits s.cfg sn sh)
    (hf : ∀ g, f = some g → sn.op = .generate ∧ g.k ≤ chunkCount sn.size.toNat ∧
      ∀ x, inTarget sn x = true → commandByte s.cfg sn x = some g.byte) :
    InvStep s { accept sn s with thresh := th, queue := q, fill := f } := by
  obtain ⟨hfault, rest⟩ := hi.rest_of_not_blocked hb
  refine ⟨{ hi with
    beforeForm := hi.memForm
    racedForm := rfl
    resting := fun h => by cases h
    running := fun sn' h => ?_
    recordSet := fun h => ?_ }, rfl, rfl⟩
  · cases h
    refine ⟨⟨rfl, rfl, hfault⟩, space, hq, fun e he => ?_, hf, fun p hp => ?_, by simp⟩
    · rw [rest.engines e he]
      trivial
    · cases rest.pending.symm.trans hp
  · exact absurd (hfault.symm.trans h) Bool.false_ne_true

/-- A resting machine's queue has no shard that could fail to fit (R226). -/
theorem Resting.no_shard {s : State} {c : Config.Params} {sn : Snapshot} (rest : Resting s) :
    ∀ sh ∈ s.queue, ShardFits c sn sh := by
  simp [rest.queue]

/-- A resting machine has no fill running (R226). -/
theorem Resting.no_fill {s : State} {P : FillAgent → Prop} (rest : Resting s) :
    ∀ g, s.fill = some g → P g := by
  simp [rest.fill]

/-- The buffer `[OUT, OUT + N)` lies inside the address space (R212). -/
theorem buffer_in_space {r : Operands} (hw : wraps r = false) :
    (outOf r).toNat + (outSizeOf r).toNat ≤ 2 ^ 64 := by
  simpa [wraps] using hw

/-- The start of a degenerate GENERATE's fill (R193). -/
theorem acceptFill_invStep {s : State} {b : Byte} (hi : MachineInv s) (hb : blocked s = false)
    (hw : wraps s.regs = false)
    (hbyte : ∀ x, inTarget (takeSnapshot .generate s) x = true →
      commandByte s.cfg (takeSnapshot .generate s) x = some b) : InvStep s (acceptFill b s) := by
  refine accept_invStep hi hb (buffer_in_space hw) (hi.rest_of_not_blocked hb).2.no_shard ?_
  rintro g ⟨⟩
  exact ⟨rfl, Nat.zero_le _, hbyte⟩

/-- The start of a keystream-path GENERATE (R195). -/
theorem acceptShards_invStep {s : State} (hi : MachineInv s) (hb : blocked s = false)
    (hw : wraps s.regs = false) (hc : classify s.cfg.eps s.regs.prob = .normal) :
    InvStep s (acceptShards s) := by
  have hq := generateQueue_fits (c := s.cfg)
    (sn := { takeSnapshot .generate s with t := computeThreshold s.regs.prob }) rfl hc
  exact accept_invStep hi hb (buffer_in_space hw) hq (hi.rest_of_not_blocked hb).2.no_fill

/-- A command that faults leaves a code in the record (R210). -/
theorem exec_fault_code {i : Instr} {s t : State} (hb : blocked s = false) (h : exec i s = .next t) :
    t.status.fault = true → t.record.code ≠ .none := by
  have accepted : ¬ s.status.fault = true := by
    simp only [blocked, Bool.or_eq_false_iff] at hb
    simp [hb.2]
  cases i with
  | threshold =>
    simp only [exec, execThreshold, unlessBlocked, hb, acceptThreshold, Bool.false_eq_true, if_false] at h
    cases h
    split
    · exact fun h => absurd h accepted
    · exact fun _ => nofun
  | keystream =>
    simp only [exec, execKeystream, unlessBlocked, hb, acceptKeystream, Bool.false_eq_true, if_false] at h
    cases h
    split
    · exact fun _ => nofun
    · split
      · exact fun _ => nofun
      · exact fun h => absurd h accepted
  | generate =>
    simp only [exec, execGenerate, unlessBlocked, hb, acceptGenerate, Bool.false_eq_true, if_false] at h
    cases h
    split
    · exact fun _ => nofun
    · split
      · exact fun h => absurd h accepted
      · exact fun h => absurd h accepted
      · exact fun _ => nofun
      · split
        · exact fun _ => nofun
        · exact fun h => absurd h accepted

/-- A command's CMD write keeps the invariant: dropped, faulted or accepted (R29, R93). -/
theorem exec_invStep {i : Instr} {s t : State} (hi : MachineInv s) (h : exec i s = .next t) :
    InvStep s t := by
  cases hb : blocked s with
  | true =>
    rw [exec_blocked i hb] at h
    cases h
    exact dropCommand_invStep hi
  | false =>
    have rest := (hi.rest_of_not_blocked hb).2
    have hcode := exec_fault_code hb h
    rcases exec_cases hb h with ⟨code, rfl⟩ | ⟨-, -, rfl⟩ | ⟨-, hw, hr, rfl⟩ | ⟨-, hw, hg⟩
    · exact faultEntry_invStep hi (hcode rfl) fun _ => rfl
    · exact accept_invStep hi hb (outOf s.regs).isLt.le rest.no_shard rest.no_fill
    · refine accept_invStep hi hb ?_ keystreamQueue_fits rest.no_fill
      have hsp := buffer_in_space hw
      simp only [badUnitRange, decide_eq_false_iff_not] at hr
      simp only [targetRange, takeSnapshot]
      omega
    · rcases hg with ⟨hc, rfl⟩ | ⟨hc, rfl⟩ | ⟨hc, -, rfl⟩
      · exact acceptFill_invStep hi hb hw fun x => commandByte_low rfl hc
      · exact acceptFill_invStep hi hb hw fun x => commandByte_high rfl hc
      · exact acceptShards_invStep hi hb hw hc

/-- Any word written to CMD keeps the invariant (R29, R211). -/
theorem commandWrite_invStep {w : U32} {s t : State} (hi : MachineInv s)
    (h : commandWrite w s = .next t) : InvStep s t := by
  unfold commandWrite at h
  split at h
  · exact exec_invStep hi h
  · cases h
    unfold illegalCommand unlessBlocked
    split
    · exact dropCommand_invStep hi
    · exact faultEntry_invStep hi nofun fun _ => rfl

/-! ## The host's steps -/

/-- A write to STATUS clears DONE, OVERRUN, and FAULT with its record (R24 to R28). -/
theorem writeStatus_invStep {d : U32} {s : State} (hi : MachineInv s) : InvStep s (writeStatus d s) := by
  unfold writeStatus
  split
  · exact hi.setFlags rfl (fun h => by simp [h]) (.inr ⟨rfl, rfl⟩)
  · exact hi.setFlags (r := s.record) rfl (fun h => by simp [h]) (.inl ⟨rfl, rfl⟩)

/-- A write to any register but CMD: it is ignored, or goes to STATUS, or to a register that the
invariant does not speak of (R20). -/
theorem regWrite_invStep {r : Reg} {d : U32} {s : State} (hi : MachineInv s) :
    InvStep s (regWrite r d s) := by
  cases r
  case status => exact writeStatus_invStep hi
  all_goals exact hi.setUnread ..

theorem writeOffset_invStep {off : Nat} {w : U32} {s t : State} (hi : MachineInv s)
    (h : writeOffset off w s = .next t) : InvStep s t := by
  unfold writeOffset at h
  split at h
  · exact commandWrite_invStep hi h
  · cases h
    exact regWrite_invStep hi
  · cases h
    exact .refl hi

/-- A host write inside the address space; what it writes into the target range is noted (R73). -/
theorem hostWriteBytes_invStep {x : Nat} {bytes : List Byte} {s : State} (hi : MachineInv s)
    (hx : x + bytes.length ≤ 2 ^ 64) : InvStep s (hostWriteBytes x bytes s) where
  inv := { hi with
    memForm := memWriteBytes_wf hi.memForm hx
    racedForm := by
      unfold hostWriteBytes
      split
      · exact raceWrite_wf _ hi.racedForm hx
      · exact hi.racedForm
    resting := fun h => by
      have hs : s.snap = none := h
      exact { hi.resting h with raced := by simp [hostWriteBytes, hs, (hi.resting hs).raced] }
    running := fun sn h => by
      have hs : s.snap = some sn := h
      refine { hi.running sn h with raced := ?_ }
      simp only [hostWriteBytes, hs]
      exact raceWrite_inTarget sn (hi.running sn hs).raced }
  cfg := rfl
  width := rfl

/-- Settling the races changes host memory only (R73(b)). -/
theorem endRaces_invStep {early : Bool} {s : State} (hi : MachineInv s) : InvStep s (endRaces early s) := by
  have hwf := endRaces_wf (early := early) hi.memForm hi.racedForm
  obtain ⟨m, cs, d, h⟩ := endRaces_state early s
  rw [h] at hwf ⊢
  have hm := hi.setMem hwf
  exact hm.trans (hm.inv.setUnread ..)

/-- The reset event (R240). -/
theorem platformReset_invStep {s : State} (hi : MachineInv s) : InvStep s (platformReset s) where
  inv :=
    { memForm := hi.memForm
      beforeForm := rfl
      racedForm := rfl
      hasEngine := by simpa using hi.hasEngine
      resting := fun _ => ⟨rfl, rfl, by simp, rfl, rfl, rfl, rfl⟩
      running := fun _ h => by cases h
      recordClear := fun _ => rfl
      recordSet := fun h => by cases h
      faultAddr := fun _ => rfl }
  cfg := rfl
  width := by simp

/-- Any event of the outside world keeps the invariant. -/
theorem hostEvent_invStep {ev : HostEvent} {s t : State} (hi : MachineInv s)
    (h : hostEvent ev s = .next t) : InvStep s t := by
  cases ev with
  | read addr n =>
    simp only [hostEvent, hostRead] at h
    split at h
    · cases h
      exact answer_invStep _ hi
    · split at h
      · cases h
        exact answer_invStep _ hi
      · split at h
        · cases h
        · cases h
          have hr := (hostReadBytes_state addr.toNat n s).invStep hi
          exact hr.trans (answer_invStep _ hr.inv)
  | write addr bytes =>
    simp only [hostEvent, hostWrite] at h
    split at h
    · have ha := answer_invStep .written hi
      exact ha.trans (writeOffset_invStep ha.inv h)
    · split at h
      · cases h
        exact answer_invStep _ hi
      · split at h
        · cases h
        · rename_i hfits
          cases h
          have hw := hostWriteBytes_invStep hi (Nat.not_lt.mp hfits)
          exact hw.trans (answer_invStep _ hw.inv)
  | wait =>
    cases h
    unfold hostWait
    split
    · exact hi.setUnread ..
    · exact answer_invStep _ hi
  | reset =>
    cases h
    have he := endRaces_invStep (early := true) hi
    exact he.trans (platformReset_invStep he.inv)

theorem hostStep_invStep {s t : State} (hi : MachineInv s) (h : hostStep s = .next t) : InvStep s t := by
  unfold hostStep at h
  split at h
  · rename_i ev rest _
    have hr : InvStep s { s with bus := rest } := hi.setUnread ..
    exact hr.trans (hostEvent_invStep hr.inv h)
  · cases h
    exact .refl hi

/-! ## The steps of KSG's agents -/

/-- The engines and the queue may change among fitting ones while the command runs. -/
theorem MachineInv.setEngines {s : State} {sn : Snapshot} {es : List Engine} {q : List Shard}
    (hi : MachineInv s) (hs : s.snap = some sn) (hlen : es.length = s.engines.length)
    (hq : ∀ sh ∈ q, sh ∈ s.queue) (he : ∀ e ∈ es, EngineFits s.cfg sn e) :
    InvStep s { s with queue := q, engines := es } where
  inv := { hi with
    hasEngine := List.ne_nil_of_length_pos (hlen ▸ List.length_pos_of_ne_nil hi.hasEngine)
    resting := fun h => by cases hs.symm.trans h
    running := fun sn' h => by
      cases hs.symm.trans h
      exact { hi.running sn hs with
        queue := fun sh hsh => (hi.running sn hs).queue sh (hq sh hsh)
        engines := he } }
  cfg := rfl
  width := hlen

/-- One engine of a running command changes to one that fits. -/
theorem Running.set_engine {s : State} {sn : Snapshot} {e : Nat} {en : Engine} (hr : Running s sn)
    (h : EngineFits s.cfg sn en) : ∀ x ∈ s.engines.set e en, EngineFits s.cfg sn x := by
  intro x hx
  rcases List.mem_or_eq_of_mem_set hx with hx | rfl
  · exact hr.engines x hx
  · exact h

/-- The fill agent may stop, or go on with the byte it has, inside its range (R193). -/
theorem MachineInv.setFill {s : State} {sn : Snapshot} {f : Option FillAgent} (hi : MachineInv s)
    (hs : s.snap = some sn)
    (hf : ∀ g, f = some g → g.k ≤ chunkCount sn.size.toNat ∧
      ∃ g', s.fill = some g' ∧ g.byte = g'.byte) : InvStep s { s with fill := f } where
  inv := { hi with
    resting := fun h => by cases hs.symm.trans h
    running := fun sn' h => by
      cases hs.symm.trans h
      refine { hi.running sn hs with fill := fun g hg => ?_ }
      obtain ⟨hk, g', hg', hbyte⟩ := hf g hg
      obtain ⟨hop, -, hcmd⟩ := (hi.running sn hs).fill g' hg'
      exact ⟨hop, hk, hbyte ▸ hcmd⟩ }
  cfg := rfl
  width := rfl

/-- A refused transaction at an address of the target range becomes a pending BUS_ERROR (R213). -/
theorem recordRefused_invStep {s : State} {sn : Snapshot} {a : Nat} (hi : MachineInv s)
    (hs : s.snap = some sn) (ha : inTarget sn a = true) : InvStep s (recordRefused a s) := by
  unfold recordRefused
  split
  · have hlt : a < 2 ^ 64 := (inTarget_iff.mp ha).2.trans_le (hi.running sn hs).space
    refine ⟨{ hi with
      resting := fun h => by cases hs.symm.trans h
      running := fun sn' h => ?_ }, rfl, rfl⟩
    cases hs.symm.trans h
    refine { hi.running sn hs with pending := ?_ }
    rintro p ⟨⟩
    exact ⟨rfl, by rwa [BitVec.toNat_ofNat, Nat.mod_eq_of_lt hlt]⟩
  · exact .refl hi

/-- R173: a shard of the queue fits, so the engine that takes it does. -/
theorem dispatchStep_invStep {s : State} {sn : Snapshot} {e j : Nat} (hi : MachineInv s)
    (hs : s.snap = some sn) (hj : j < s.queue.length) : InvStep s (dispatchStep e j s) := by
  have hr := hi.running sn hs
  have hfit := hr.queue _ (List.getElem_mem hj)
  rw [dispatchStep_eq (List.getElem?_eq_getElem hj)]
  exact hi.setEngines hs List.length_set (fun _ => List.mem_of_mem_eraseIdx)
    (hr.set_engine ⟨hfit, hfit.nonempty⟩)

/-- After a Unit the engine is idle, or has one left (R145). -/
theorem afterUnit_fits {c : Config.Params} {sn : Snapshot} {sh : Shard} {u : Nat} (hf : ShardFits c sn sh)
    (hu : sh.start + u < sh.limit) : EngineFits c sn (afterUnit sh u) := by
  unfold afterUnit
  split
  · trivial
  · exact ⟨hf, by omega⟩

/-- The Unit that an engine writes next lies in the target range (R196). -/
theorem unitAddr_inTarget {c : Config.Params} {sn : Snapshot} {sh : Shard} {u : Nat}
    (hf : ShardFits c sn sh) (hu : sh.start + u < sh.limit) : inTarget sn (unitAddr sn sh u) = true :=
  inTarget_of_commandByte (hf.bytes (sh.start + u) 0 (Nat.le_add_right ..) hu (by decide))

/-- R145, R213. -/
theorem unitStep_invStep {s : State} {sn : Snapshot} {sh : Shard} {e u : Nat} (hi : MachineInv s)
    (hs : s.snap = some sn) (he : s.engines[e]? = some (.running sh u)) (hu : sh.start + u < sh.limit) :
    InvStep s (unitStep e s) := by
  have hr := hi.running sn hs
  obtain ⟨hfit, -⟩ : EngineFits s.cfg sn (.running sh u) := hr.engines _ (List.mem_of_getElem? he)
  cases ha : admits s.cfg (unitAddr sn sh u) 16 with
  | true =>
    rw [unitStep_admitted hs he ha]
    have hm := hi.setMem (memWriteBytes_wf (bs := unitBytes s.cfg sn.key sh.ctr0 u sn.t) hi.memForm
      (by simpa using admits_space ha))
    exact hm.trans (hm.inv.setEngines hs List.length_set (fun _ => id)
      (hr.set_engine (afterUnit_fits hfit hu)))
  | false =>
    rw [unitStep_refused hs he ha]
    have hidle : InvStep s { s with engines := s.engines.set e .idle } :=
      hi.setEngines hs List.length_set (fun _ => id) (hr.set_engine trivial)
    exact hidle.trans (recordRefused_invStep hidle.inv hs (unitAddr_inTarget hfit hu))

/-- The chunk that the fill agent writes next starts in the target range (R193). -/
theorem chunkAddr_inTarget {sn : Snapshot} {k : Nat} (ho : sn.op = .generate)
    (hk : k < chunkCount sn.size.toNat) : inTarget sn (sn.out.toNat + 16 * k) = true := by
  rw [inTarget_iff]
  unfold chunkCount at hk
  simp only [targetRange, ho]
  omega

/-- R193, R213. -/
theorem chunkStep_invStep {s : State} {sn : Snapshot} {f : FillAgent} (hi : MachineInv s)
    (hs : s.snap = some sn) (hf : s.fill = some f) (hk : f.k < chunkCount sn.size.toNat) :
    InvStep s (chunkStep s) := by
  cases ha : admits s.cfg (sn.out.toNat + 16 * f.k) (chunkLength sn.size.toNat f.k) with
  | true =>
    rw [chunkStep_admitted hs hf ha]
    have hm := hi.setMem (memWriteBytes_wf
      (bs := List.replicate (chunkLength sn.size.toNat f.k) f.byte) hi.memForm
      (by simpa using admits_space ha))
    refine hm.trans (hm.inv.setFill hs ?_)
    rintro g ⟨⟩
    exact ⟨hk, f, hf, rfl⟩
  | false =>
    rw [chunkStep_refused hs hf ha]
    have hstop : InvStep s { s with fill := none } := hi.setFill hs nofun
    have ho := ((hi.running sn hs).fill f hf).1
    exact hstop.trans (recordRefused_invStep hstop.inv hs (chunkAddr_inTarget ho hk))

/-- R176: a command whose work is done leaves a resting machine. -/
theorem completeCommand_invStep {s : State} {sn : Snapshot} (hi : MachineInv s) (hs : s.snap = some sn)
    (hp : s.pending = none) (hw : workDone sn s = true) : InvStep s (completeCommand s) := by
  obtain ⟨-, -, hfault⟩ := (hi.running sn hs).flags
  simp only [workDone, Bool.and_eq_true, List.isEmpty_iff, List.all_eq_true] at hw
  obtain ⟨⟨⟨-, hqueue⟩, hidle⟩, -⟩ := hw
  refine ⟨{ hi with
    beforeForm := rfl
    racedForm := rfl
    resting := fun _ => ⟨rfl, hqueue, fun e he => ?_, rfl, hp, rfl, rfl⟩
    running := fun _ h => by cases h
    recordSet := fun h => absurd (hfault.symm.trans h) Bool.false_ne_true }, rfl, rfl⟩
  have h := hidle e he
  cases e with
  | idle => rfl
  | running sh u => cases h

theorem completeStep_invStep {s : State} {sn : Snapshot} (hi : MachineInv s) (hs : s.snap = some sn)
    (hp : s.pending = none) (hw : workDone sn s = true) : InvStep s (completeStep s) := by
  have he := endRaces_invStep (early := false) hi
  obtain ⟨m, cs, d, h⟩ := endRaces_state false s
  unfold completeStep
  rw [h] at he ⊢
  exact he.trans (completeCommand_invStep he.inv hs hp hw)

/-- R214: a pending fault is a BUS_ERROR. -/
theorem takeFaultStep_invStep {s : State} {sn : Snapshot} {p : PendingFault} (hi : MachineInv s)
    (hs : s.snap = some sn) (hp : s.pending = some p) : InvStep s (takeFaultStep s) := by
  obtain ⟨hcode, -⟩ := (hi.running sn hs).pending p hp
  have he := endRaces_invStep (early := true) hi
  rw [takeFaultStep_eq hs hp, hcode]
  exact he.trans (faultEntry_invStep he.inv nofun fun h => absurd rfl h)

/-- An enabled step of KSG's agents keeps the invariant. -/
theorem agentMove_invStep {m : Move} {s t : State} (hi : MachineInv s) (hm : m ∈ agentMoves s)
    (h : runMove m s = .next t) : InvStep s t := by
  obtain ⟨sn, hs, ⟨rfl, hp⟩ | ⟨hp, hm⟩⟩ := mem_agentMoves hm
  · obtain ⟨p, hp⟩ := Option.isSome_iff_exists.mp hp
    cases h
    exact takeFaultStep_invStep hi hs hp
  · rcases hm with ⟨e, j, rfl, -, hj⟩ | ⟨e, sh, u, rfl, he, hu⟩ | ⟨rfl, f, hf, hk⟩ | ⟨rfl, hw⟩
    · cases h
      exact dispatchStep_invStep hi hs hj
    · cases h
      exact unitStep_invStep hi hs he hu
    · cases h
      exact chunkStep_invStep hi hs hf hk
    · cases h
      exact completeStep_invStep hi hs hp hw

/-! ## Every step -/

/-- Every step, whichever agent takes it, keeps the invariant, the parameters and W. -/
theorem step_invStep {s t : State} (hi : MachineInv s) (h : step s = .next t) : InvStep s t := by
  rcases step_cases h with ⟨-, rfl⟩ | ⟨m, hm, s', hsame, hrun⟩
  · exact .refl hi
  · have hc := hsame.invStep hi
    rcases List.mem_append.mp hm with hm | hm
    · have hhost : m = .host := by
        unfold hostMoves at hm
        split at hm
        · cases hm
        · simpa using hm
      subst hhost
      exact hc.trans (hostStep_invStep hc.inv hrun)
    · rw [← agentMoves_of_same hsame] at hm
      exact hc.trans (agentMove_invStep hc.inv hm hrun)

/-- Settles O44: each enabled step, the host's and each agent's, keeps `MachineInv`. -/
theorem stepKeepsInvariant : Obligations.StepKeepsInvariant := by
  intro s t hi h
  obtain ⟨inv, cfg, width⟩ := step_invStep hi h
  exact ⟨inv, cfg, width, by simp only [regRead, width]⟩

end Sys2Proof.Machine
end

section
/-! PROOFS. Bytes of a u128 and lanes of a block (O12; 00_scope.md R9, 41_keystream.md R137). -/

namespace Sys2Proof.Machine

@[simp] theorem bytesOf_length (x : U128) : (bytesOf x).length = 16 := by simp [bytesOf]

/-- `bytes(X)[i] = X[8i+7:8i]` (R9). -/
theorem bytesOf_getElem? {x : U128} {i : Nat} (hi : i < 16) : (bytesOf x)[i]? = some (byteOf x i) := by
  simp [bytesOf, hi]

/-- A byte of `X` is a base-256 digit of it. -/
theorem byteOf_toNat (x : U128) (i : Nat) : (byteOf x i).toNat = x.toNat / 2 ^ (8 * i) % 256 := by
  rw [byteOf, BitVec.extractLsb'_toNat, Nat.shiftRight_eq_div_pow]

/-- Digit `i` of `natOfBytes` is byte `i`. -/
theorem natOfBytes_digit (bs : List Byte) (i : Nat) :
    natOfBytes bs / 2 ^ (8 * i) % 256 = (bs.getD i 0).toNat := by
  induction bs generalizing i with
  | nil => simp [natOfBytes]
  | cons b bs ih =>
    have hb := b.isLt
    cases i with
    | zero => simp [natOfBytes]; omega
    | succ i =>
      rw [natOfBytes, show 8 * (i + 1) = 8 + 8 * i by omega, Nat.pow_add, ← Nat.div_div_eq_div_mul,
        show (b.toNat + 256 * natOfBytes bs) / 2 ^ 8 = natOfBytes bs by omega, ih, List.getD_cons_succ]

theorem natOfBytes_lt (bs : List Byte) : natOfBytes bs < 256 ^ bs.length := by
  induction bs with
  | nil => simp [natOfBytes]
  | cons b bs ih =>
    have hb := b.isLt
    rw [natOfBytes, List.length_cons, Nat.pow_succ]
    omega

/-- Byte `i` of `fromBytes` is byte `i` of the list (R9). -/
theorem byteOf_fromBytes {bs : List Byte} (h : bs.length ≤ 16) (i : Nat) :
    byteOf (fromBytes bs) i = bs.getD i 0 := by
  have hlt : natOfBytes bs < 2 ^ 128 :=
    (natOfBytes_lt bs).trans_le (Nat.pow_le_pow_right (by decide) h)
  apply BitVec.eq_of_toNat_eq
  rw [byteOf_toNat, fromBytes, BitVec.toNat_ofNat, Nat.mod_eq_of_lt hlt, natOfBytes_digit]

/-- Sixteen bytes are the bytes of their `fromBytes` (R9). -/
theorem bytesOf_fromBytes {bs : List Byte} (h : bs.length = 16) : bytesOf (fromBytes bs) = bs := by
  refine List.ext_getElem (by simp [h]) fun i _ hi => ?_
  simp [bytesOf, byteOf_fromBytes h.le, hi]

/-- A u128 is determined by its bytes. -/
theorem bytesOf_injective : Function.Injective bytesOf := by
  intro x y h
  have hbyte : ∀ i < 16, byteOf x i = byteOf y i := by
    intro i hi
    simpa [bytesOf_getElem? hi] using congrArg (·[i]?) h
  refine BitVec.eq_of_getLsbD_eq fun k hk => ?_
  have hbit := congrArg (·.getLsbD (k % 8)) (hbyte (k / 8) (by omega))
  simpa [byteOf, Nat.mod_lt, Nat.div_add_mod] using hbit

/-- `fromBytes` is the inverse of `bytes` (R9). -/
theorem fromBytes_bytesOf (x : U128) : fromBytes (bytesOf x) = x :=
  bytesOf_injective (bytesOf_fromBytes (bytesOf_length x))

/-- The pair `(hi, lo)` is `hi × 2^64 + lo` (R9). -/
theorem pair_toNat (hi lo : U64) : (hi ++ lo : U128).toNat = hi.toNat * 2 ^ 64 + lo.toNat := by
  rw [BitVec.toNat_append, ← Nat.shiftLeft_add_eq_or_of_lt lo.isLt, Nat.shiftLeft_eq]

/-- A lane is its low byte and 256 times its high byte (R137). -/
theorem lane_eq_bytes (x : U128) (l : Nat) :
    lane x l = (byteOf x (2 * l)).setWidth 16 + 256 * (byteOf x (2 * l + 1)).setWidth 16 := by
  have hlo := byteOf_toNat x (2 * l)
  have hhi := byteOf_toNat x (2 * l + 1)
  rw [show 8 * (2 * l) = 16 * l by omega] at hlo
  rw [show 8 * (2 * l + 1) = 16 * l + 8 by omega, Nat.pow_add, ← Nat.div_div_eq_div_mul] at hhi
  apply BitVec.eq_of_toNat_eq
  simp only [lane, BitVec.extractLsb'_toNat, Nat.shiftRight_eq_div_pow, BitVec.toNat_add,
    BitVec.toNat_mul, BitVec.toNat_setWidth, show (256 : U16).toNat = 256 from rfl, hlo, hhi]
  omega

/-- Settles O12, from the base-256 digits of a u128. -/
theorem bytesAndLanesAreLittleEndian : Obligations.BytesAndLanesAreLittleEndian :=
  ⟨fun x => ⟨bytesOf_length x, fromBytes_bytesOf x⟩, fun _ _ => bytesOf_getElem?,
    fun _ => bytesOf_fromBytes, pair_toNat, fun x l _ => ⟨lane_eq_bytes x l, rfl⟩⟩

end Sys2Proof.Machine
end

section
/-! PROOFS. The register window: where each register stands, what it reads after a write, STATUS and its
write-one-to-clear flags (O36, O37, O38; 10_state.md R20 to R41). -/

namespace Sys2Proof.Machine

/-! ## The map of R20 -/

theorem regAt_regOffset (r : Reg) : regAt (regOffset r) = some r := by
  cases r <;> rfl

theorem regOffset_aligned (r : Reg) : regOffset r % 4 = 0 ∧ regOffset r < 128 := by
  cases r <;> decide

/-- The reserved offsets of R41. -/
theorem regAt_eq_none_iff : ∀ off < 128, off % 4 = 0 →
    (regAt off = none ↔ off = 0x1C ∨ off = 0x58 ∨ off = 0x5C ∨ off = 0x74) := by
  decide

theorem readOffset_reserved {off : Nat} (h : regAt off = none) (s : State) : readOffset off s = 0 := by
  simp [readOffset, h]

theorem writeOffset_reserved {off : Nat} (h : regAt off = none) (d : U32) (s : State) :
    writeOffset off d s = .next s := by
  simp [writeOffset, h]

/-- Settles O37, from the map of R20 read in both directions. -/
theorem registerMapIsComplete : Obligations.RegisterMapIsComplete :=
  ⟨by decide, fun r => ⟨regAt_regOffset r, regOffset_aligned r⟩, fun off hlt h4 =>
    ⟨regAt_eq_none_iff off hlt h4, fun h s d => ⟨readOffset_reserved h s, writeOffset_reserved h d s⟩⟩⟩

/-! ## The bits of the register words -/

theorem flagBit_getLsbD (b : Bool) {i : Nat} (hi : i < 32) (k : Nat) :
    (flagBit b i).getLsbD k = (b && decide (k = i)) := by
  cases b with
  | false => simp [flagBit]
  | true =>
    rw [flagBit, if_pos rfl, BitVec.getLsbD_ofNat, Nat.testBit_two_pow, Bool.true_and]
    by_cases hk : k = i
    · simp [hk, hi]
    · simp [hk, Ne.symm hk]

/-- STATUS reads its four flags in bits 0 to 3 (R24). -/
theorem statusWord_getLsbD (f : Status) (k : Nat) :
    (statusWord f).getLsbD k = ((f.busy && decide (k = 0)) || (f.done && decide (k = 1)) ||
      (f.fault && decide (k = 2)) || (f.overrun && decide (k = 3))) := by
  simp [statusWord, flagBit_getLsbD]

theorem statusWord_toNat (f : Status) :
    (statusWord f).toNat
      = f.busy.toNat + 2 * f.done.toNat + 4 * f.fault.toNat + 8 * f.overrun.toNat := by
  have flags : ∀ b d f o : Bool, (statusWord ⟨b, d, f, o⟩).toNat
      = b.toNat + 2 * d.toNat + 4 * f.toNat + 8 * o.toNat := by decide
  exact flags ..

/-- Words side by side, as numbers. -/
theorem append_toNat {n m : Nat} (x : BitVec n) (y : BitVec m) :
    (x ++ y).toNat = x.toNat * 2 ^ m + y.toNat := by
  rw [BitVec.toNat_append, ← Nat.shiftLeft_add_eq_or_of_lt y.isLt, Nat.shiftLeft_eq]

/-- FAULT_CAUSE reads CODE in bits 3:0 and OP in bits 15:8 (R39). -/
theorem causeWord_toNat (r : FaultRecord) :
    (causeWord r).toNat = (causeCode r.code).toNat + 256 * r.op.toNat := by
  simp only [causeWord, append_toNat, BitVec.ofNat_eq_ofNat, BitVec.toNat_ofNat]
  omega

/-- CTRL keeps bit 0 of what is written (R23). -/
theorem flagBit_getLsbD_zero_eq_and (d : U32) : flagBit (d.getLsbD 0) 0 = d &&& 0x00000001 := by
  rw [show (0x00000001 : U32) = 1#32 from rfl, BitVec.and_one_eq_setWidth_ofBool_getLsbD]
  cases d.getLsbD 0 <;> rfl

/-- THRESH keeps the low 16 bits of what is written (R31). -/
theorem setWidth_extractLsb'_low_half (d : U32) : (d.extractLsb' 0 16).setWidth 32 = d &&& 0x0000FFFF := by
  apply BitVec.eq_of_toNat_eq
  rw [BitVec.toNat_and, show (0x0000FFFF : U32).toNat = 2 ^ 16 - 1 from rfl,
    Nat.and_two_pow_sub_one_eq_mod, BitVec.toNat_setWidth, BitVec.extractLsb'_toNat]
  omega

/-- The flags that a 1 clears, as a mask (R26 to R28). -/
theorem statusWord_cleared (f : Status) (d : U32) :
    statusWord
        { busy := f.busy
          done := f.done && !d.getLsbD 1
          fault := f.fault && !d.getLsbD 2
          overrun := f.overrun && !d.getLsbD 3 }
      = statusWord f &&& ~~~(d &&& 0x0000000E) := by
  refine BitVec.eq_of_getLsbD_eq fun k hk => ?_
  rw [BitVec.getLsbD_and, BitVec.getLsbD_not, BitVec.getLsbD_and, statusWord_getLsbD, statusWord_getLsbD]
  match k with
  | 0 => simp
  | 1 => simp
  | 2 => simp
  | 3 => simp
  | k + 4 => simp

/-! ## Writes -/

/-- A host write to STATUS in one equation: BUSY stays, a 1 clears its flag, and with FAULT the record
(R24 to R28, R217). -/
theorem writeStatus_eq (d : U32) (s : State) :
    writeStatus d s = { s with
      status :=
        { busy := s.status.busy
          done := s.status.done && !d.getLsbD 1
          fault := s.status.fault && !d.getLsbD 2
          overrun := s.status.overrun && !d.getLsbD 3 }
      record := if d.getLsbD 2 then .clear else s.record } := by
  unfold writeStatus
  cases d.getLsbD 2 <;> simp [clearFault]

/-- Settles O36, from the bits of the two words and the one equation of a write to STATUS. -/
theorem statusReadsAndWriteOneToClear : Obligations.StatusReadsAndWriteOneToClear :=
  ⟨fun s => ⟨statusWord_toNat s.status, causeWord_toNat s.record⟩,
    fun s d => congrArg Host.Outcome.next (writeStatus_eq d s)⟩

/-- A read of any register after a write to any register but STATUS: the register written reads what the
write put there, every other one what it read before. A write sets at most one field, and for each pair
of registers the read looks at that field or at another. -/
theorem regRead_regWrite {r : Reg} (hr : r ≠ .status) (r' : Reg) (d : U32) (s : State) :
    regRead r' (regWrite r d s) = if r' = r then regRead r (regWrite r d s) else regRead r' s := by
  cases r
  case status => exact absurd rfl hr
  all_goals cases r' <;> rfl

/-- A write to STATUS shows in STATUS and in the fault record only. -/
theorem regRead_writeStatus {r : Reg} (hs : r ≠ .status) (hc : r ≠ .faultCause) (hl : r ≠ .faultAddrLo)
    (hh : r ≠ .faultAddrHi) (d : U32) (s : State) :
    regRead r (writeStatus d s) = regRead r s := by
  rw [writeStatus_eq]
  cases r
  case status => exact absurd rfl hs
  case faultCause => exact absurd rfl hc
  case faultAddrLo => exact absurd rfl hl
  case faultAddrHi => exact absurd rfl hh
  all_goals rfl

/-- Settles O38, by the register written. -/
theorem registerReadAfterWrite : Obligations.RegisterReadAfterWrite := by
  refine ⟨fun r d s => ?_, fun r r' d s hne hrec => ?_⟩
  · cases r
    case ctrl => exact flagBit_getLsbD_zero_eq_and d
    case status =>
      simp only [regWrite, writeStatus_eq, regRead]
      exact statusWord_cleared s.status d
    case thresh => exact setWidth_extractLsb'_low_half d
    all_goals rfl
  · by_cases hr : r = .status
    · subst hr
      obtain ⟨hc, hl, hh⟩ := hrec rfl
      exact regRead_writeStatus hne.symm hc hl hh d s
    · rw [regRead_regWrite hr, if_neg hne.symm]

end Sys2Proof.Machine
end

section
/-! PROOFS. Reset: what every register reads after it, and the invariant (O42, O43; 10_state.md R20,
70_reset_and_hazards.md R240, R242, R251). -/

namespace Sys2Proof.Machine

/-- What a register reads after the reset of a KSG whose NUM_ENGINES reads `w` (R20). -/
def resetWord (w : U32) : Reg → U32
  | .id         => Config.idValue
  | .numEngines => w
  | _           => 0

/-- With STATUS, the record, THRESH and the operand registers as reset leaves them, every register of a KSG
with `w` engines reads its reset value. -/
theorem regRead_reset {s : State} {w : Nat} (hstatus : s.status = .reset) (hrecord : s.record = .clear)
    (hthresh : s.thresh = 0) (hregs : s.regs = .reset) (hw : s.engines.length = w) (r : Reg) :
    regRead r s = resetWord (BitVec.ofNat 32 w) r := by
  cases r <;> simp only [regRead, hstatus, hrecord, hthresh, hregs, hw] <;> rfl

/-- The reset step is the reset event in a state that differs at most in host memory, where races were
settled, and in the model's own choice fields (log 10). -/
theorem resetStep_state (s : State) :
    ∃ m cs d, resetStep s = platformReset { s with mem := m, choices := cs, draws := d } ∧
      (s.raced = [] → m = s.mem) := by
  obtain ⟨m, cs, d, h⟩ := endRaces_state true s
  refine ⟨m, cs, d, congrArg platformReset h, fun hr => ?_⟩
  simpa using congrArg State.mem (h.symm.trans (endRaces_of_none hr))

/-- A KSG after reset rests (R226, R240). -/
theorem resetOf_resting (c : Config.Params) (w : Nat) : Resting (State.resetOf c w) where
  busy := rfl
  queue := rfl
  engines := fun _ => List.eq_of_mem_replicate
  fill := rfl
  pending := rfl
  before := rfl
  raced := rfl

theorem resetOf_cleanEntry (c : Config.Params) (w : Nat) : CleanEntry (State.resetOf c w) :=
  { resetOf_resting c w with fault := rfl, overrun := rfl }

/-- The invariant holds after reset of a KSG that has an engine (R22, R242). -/
theorem resetOf_inv (c : Config.Params) {w : Nat} (hw : 1 ≤ w) : MachineInv (State.resetOf c w) where
  memForm := rfl
  beforeForm := rfl
  racedForm := rfl
  hasEngine := by simpa [State.resetOf] using Nat.one_le_iff_ne_zero.mp hw
  resting := fun _ => resetOf_resting c w
  running := nofun
  recordClear := fun _ => rfl
  recordSet := nofun
  faultAddr := fun _ => rfl

/-- Settles O42: the reset step is the reset event but for the races it settles, and what the registers
read after it depends on the fields it sets alone. -/
theorem resetRule : Obligations.ResetRule := by
  refine ⟨fun s => ?_, fun c w =>
    ⟨regRead_reset rfl rfl rfl rfl (by simp [State.resetOf]), rfl, by simp [State.resetOf],
      resetOf_cleanEntry c w⟩⟩
  obtain ⟨m, cs, d, h, hm⟩ := resetStep_state s
  refine ⟨_, congrArg Host.Outcome.next h, regRead_reset rfl rfl rfl rfl (by simp), rfl, rfl, rfl, rfl,
    by simp, by simp, rfl, hm⟩

/-- Settles O43: after reset the machine rests, with a clear record and no byte of memory known. -/
theorem resetMeetsInvariant : Obligations.ResetMeetsInvariant :=
  ⟨fun c _ => resetOf_inv c, resetOf_inv .default le_rfl⟩

end Sys2Proof.Machine
end

section
/-! PROOFS. The host's CMD write: the bus access that carries it, and what becomes of it (O4, O5;
10_state.md R29, 20_memory.md R62, R64, 30_encoding.md R93). -/

namespace Sys2Proof.Machine

/-! ## Register accesses on the bus -/

/-- The bytes of a word, lowest first, make the word (R62). -/
theorem wordOfBytes_bytesOfWord (w : U32) :
    wordOfBytes (w.extractLsb' 0 8) (w.extractLsb' 8 8) (w.extractLsb' 16 8) (w.extractLsb' 24 8) = w := by
  apply BitVec.eq_of_toNat_eq
  simp only [wordOfBytes, append_toNat, BitVec.extractLsb'_toNat, Nat.shiftRight_eq_div_pow]
  omega

theorem windowOffset_add (c : Config.Params) {off : Nat} (h : off < 128) :
    windowOffset c (c.regBase + BitVec.ofNat 64 off) = off := by
  have hcancel : c.regBase + BitVec.ofNat 64 off - c.regBase = BitVec.ofNat 64 off := by
    rw [BitVec.add_comm, BitVec.add_sub_cancel]
  rw [windowOffset, hcancel, BitVec.toNat_ofNat]
  omega

/-- A host write of a word at an aligned offset of the window writes that offset (R62, R64). -/
theorem hostWrite_window {off : Nat} (hlt : off < 128) (h4 : off % 4 = 0) (w : U32) (s : State) :
    hostWrite (s.cfg.regBase + BitVec.ofNat 64 off) (bytesOfWord w) s
      = writeOffset off w (answer .written s) := by
  have hacc : registerAccess s.cfg (s.cfg.regBase + BitVec.ofNat 64 off) (bytesOfWord w).length = true := by
    simp [registerAccess, windowOffset_add _ hlt, bytesOfWord, hlt, h4]
  rw [hostWrite, if_pos hacc, windowOffset_add _ hlt]
  exact congrArg (writeOffset off · _) (wordOfBytes_bytesOfWord w)

/-! ## The CMD write -/

theorem writeOffset_cmd (w : U32) (s : State) : writeOffset 0x10 w s = commandWrite w s := rfl

/-- A legal word is its command (R29, R93). -/
theorem commandWrite_legal {w : U32} {i : Instr} (h : decode (bytesOfWord w) = .command i) (s : State) :
    commandWrite w s = exec i s := by
  simp only [commandWrite, h]

/-- Any other word takes ILLEGAL_CMD, where it is not dropped (R211). -/
theorem commandWrite_illegal {w : U32} {e : DecodeError} (h : decode (bytesOfWord w) = .illegal e)
    (s : State) : commandWrite w s = .next (illegalCommand w s) := by
  simp only [commandWrite, h]

/-- A CMD write of any word is dropped while BUSY or FAULT is 1 (R29). -/
theorem commandWrite_blocked (w : U32) {s : State} (hb : blocked s = true) :
    commandWrite w s = .next (dropCommand s) := by
  cases h : decode (bytesOfWord w) with
  | command i => rw [commandWrite_legal h, exec_blocked i hb]
  | illegal e => rw [commandWrite_illegal h, illegalCommand, unlessBlocked, if_pos hb]

/-- Settles O5, by whether the write is dropped and whether the word is legal. -/
theorem commandWriteDroppedOrDecoded : Obligations.CommandWriteDroppedOrDecoded := by
  refine ⟨fun w i s h => ?_, fun w s hbusy hfault => ?_, fun s => rfl⟩
  · have hb : blocked s = true := by simpa [blocked] using h
    exact ⟨commandWrite_blocked w hb, exec_blocked i hb⟩
  · have hb : blocked s = false := by simp [blocked, hbusy, hfault]
    refine ⟨fun i h => commandWrite_legal h s, fun e h => ?_⟩
    rw [writeOffset_cmd, commandWrite_illegal h, illegalCommand, unlessBlocked, hb]
    rfl

/-- The host's step, with the write of a legal word to CMD first on the bus, is the command's meaning. -/
theorem hostStep_cmdEvent {s : State} {w : U32} {i : Instr} {rest : List HostEvent}
    (hbus : s.bus = cmdEvent s.cfg w :: rest) (h : decode (bytesOfWord w) = .command i) :
    hostStep s = exec i (answer .written { s with bus := rest }) := by
  rw [hostStep, hbus]
  calc hostWrite (s.cfg.regBase + cmdOffset) (bytesOfWord w) { s with bus := rest }
    _ = writeOffset 0x10 w (answer .written { s with bus := rest }) :=
      hostWrite_window (s := { s with bus := rest }) (by decide) (by decide) w
    _ = exec i (answer .written { s with bus := rest }) := commandWrite_legal h _

/-- With a CMD write placed next, the step that comes next is the host's (log 5). -/
theorem nextMove_placeCommand (w : U32) (s : State) :
    nextMove (placeCommand w s) = some (.host, { s with bus := cmdEvent s.cfg w :: s.bus }) := by
  have hm : moves (placeCommand w s) = .host :: agentMoves (placeCommand w s) := rfl
  simp only [nextMove, hm, choose_settled _ 0 s.choices (placeCommand w s) rfl, Nat.zero_mod,
    List.getD_cons_zero]
  rfl

theorem step_placeCommand {s : State} {w : U32} {i : Instr} (h : decode (bytesOfWord w) = .command i) :
    step (placeCommand w s) = exec i (answer .written s) :=
  (step_nextMove (nextMove_placeCommand w s)).trans
    (hostStep_cmdEvent (s := { s with bus := cmdEvent s.cfg w :: s.bus }) rfl h)

/-- A table word that names a command decodes to it. -/
theorem decode_of_decodeTableWord {nbits w : Nat} {i : Instr} (h : decodeTableWord nbits w = some i) :
    decode (bytesOfWord (BitVec.ofNat 32 (w % 2 ^ nbits))) = .command i := by
  unfold decodeTableWord Decoded.instr? at h
  split at h
  · rename_i hd
    cases h
    exact hd
  · cases h

/-- Settles O4: the placed write is the step that comes next, and it reaches CMD. -/
theorem stepRunsTheDecodedCommand : Obligations.StepRunsTheDecodedCommand :=
  ⟨fun _ _ _ => step_placeCommand, fun _ _ _ _ h => step_placeCommand (decode_of_decodeTableWord h),
    fun _ _ _ _ => hostStep_cmdEvent⟩

end Sys2Proof.Machine
end

section
/-! PROOFS. What no step of KSG's agents changes (O33; 10_state.md R22, R28, 42_shard.md R173, R176,
60_exceptions.md R213, R214). -/

namespace Sys2Proof.Machine

/-- `t` has the operand registers, THRESH, OVERRUN, the parameters, W, and the pending events and replies
of `s`. -/
structure AgentKeeps (s t : State) : Prop where
  regs : t.regs = s.regs
  thresh : t.thresh = s.thresh
  overrun : t.status.overrun = s.status.overrun
  cfg : t.cfg = s.cfg
  width : t.engines.length = s.engines.length
  bus : t.bus = s.bus
  replies : t.replies = s.replies

/-- `t` has every flag and the fault record of `s` as well. -/
structure WorkKeeps (s t : State) : Prop extends AgentKeeps s t where
  status : t.status = s.status
  record : t.record = s.record

/-- The work of a command changes the engines, the queue, the fill agent, the pending fault and host
memory, and these are no part of the frame. -/
theorem WorkKeeps.of_work (s : State) {es : List Engine} (q : List Shard) (f : Option FillAgent)
    (p : Option PendingFault) (m : Memory) (hes : es.length = s.engines.length) :
    WorkKeeps s { s with engines := es, queue := q, fill := f, pending := p, mem := m } :=
  ⟨⟨rfl, rfl, rfl, rfl, hes, rfl, rfl⟩, rfl, rfl⟩

/-- A refused transaction changes the pending fault only (R213). -/
theorem recordRefused_state (a : Nat) (s : State) : ∃ p, recordRefused a s = { s with pending := p } := by
  unfold recordRefused
  split
  · exact ⟨_, rfl⟩
  · exact ⟨s.pending, rfl⟩

theorem dispatchStep_keeps {s : State} {e j : Nat} (hj : j < s.queue.length) :
    WorkKeeps s (dispatchStep e j s) := by
  rw [dispatchStep_eq (List.getElem?_eq_getElem hj)]
  exact .of_work s _ _ _ _ List.length_set

theorem unitStep_keeps {s : State} {sn : Snapshot} {sh : Shard} {e u : Nat} (hs : s.snap = some sn)
    (he : s.engines[e]? = some (.running sh u)) : WorkKeeps s (unitStep e s) := by
  cases ha : admits s.cfg (unitAddr sn sh u) 16 with
  | true =>
    rw [unitStep_admitted hs he ha]
    exact .of_work s _ _ _ _ List.length_set
  | false =>
    obtain ⟨p, hp⟩ := recordRefused_state (unitAddr sn sh u) { s with engines := s.engines.set e .idle }
    rw [unitStep_refused hs he ha, hp]
    exact .of_work s _ _ _ _ List.length_set

theorem chunkStep_keeps {s : State} {sn : Snapshot} {f : FillAgent} (hs : s.snap = some sn)
    (hf : s.fill = some f) : WorkKeeps s (chunkStep s) := by
  cases ha : admits s.cfg (sn.out.toNat + 16 * f.k) (chunkLength sn.size.toNat f.k) with
  | true =>
    rw [chunkStep_admitted hs hf ha]
    exact .of_work s _ _ _ _ rfl
  | false =>
    obtain ⟨p, hp⟩ := recordRefused_state (sn.out.toNat + 16 * f.k) { s with fill := none }
    rw [chunkStep_refused hs hf ha, hp]
    exact .of_work s _ _ _ _ rfl

theorem completeStep_keeps (s : State) : AgentKeeps s (completeStep s) := by
  obtain ⟨m, cs, d, h⟩ := endRaces_state false s
  rw [completeStep, h]
  exact ⟨rfl, rfl, rfl, rfl, rfl, rfl, rfl⟩

theorem takeFaultStep_keeps {s : State} {sn : Snapshot} {p : PendingFault} (hs : s.snap = some sn)
    (hp : s.pending = some p) : AgentKeeps s (takeFaultStep s) := by
  obtain ⟨m, cs, d, h⟩ := endRaces_state true s
  rw [takeFaultStep_eq hs hp, h]
  exact ⟨rfl, rfl, rfl, rfl, by simp, rfl, rfl⟩

/-- An enabled step of KSG's agents ends the command, or leaves every flag and the fault record alone. -/
theorem agentMove_keeps {m : Move} {s t : State} (hm : m ∈ agentMoves s) (h : runMove m s = .next t) :
    ((m = .complete ∨ m = .takeFault) ∧ AgentKeeps s t) ∨ WorkKeeps s t := by
  obtain ⟨sn, hs, ⟨rfl, hp⟩ | ⟨-, hm⟩⟩ := mem_agentMoves hm
  · obtain ⟨p, hp⟩ := Option.isSome_iff_exists.mp hp
    cases h
    exact .inl ⟨.inr rfl, takeFaultStep_keeps hs hp⟩
  · rcases hm with ⟨e, j, rfl, -, hj⟩ | ⟨e, sh, u, rfl, he, -⟩ | ⟨rfl, f, hf, -⟩ | ⟨rfl, -⟩
    · cases h
      exact .inr (dispatchStep_keeps hj)
    · cases h
      exact .inr (unitStep_keeps hs he)
    · cases h
      exact .inr (chunkStep_keeps hs hf)
    · cases h
      exact .inl ⟨.inl rfl, completeStep_keeps s⟩

/-- Settles O33, step by step of the agents. -/
theorem agentFrame : Obligations.AgentFrame := by
  intro s t m hm h
  rcases agentMove_keeps hm h with ⟨hend, hk⟩ | hk
  · refine ⟨hk.regs, hk.thresh, hk.overrun, hk.cfg, hk.width, hk.bus, hk.replies, fun hwork => ?_⟩
    rcases hend with rfl | rfl <;> simp at hwork
  · exact ⟨hk.regs, hk.thresh, hk.overrun, hk.cfg, hk.width, hk.bus, hk.replies,
      fun _ => ⟨hk.status, hk.record⟩⟩

end Sys2Proof.Machine
end

section
/-! PROOFS. The host's accesses to the register window (O39; 20_memory.md R62, R64, log 8). -/

namespace Sys2Proof.Machine

/-- A host read of four bytes at an aligned offset of the window reads that offset (R62, R64). -/
theorem hostRead_window {off : Nat} (hlt : off < 128) (h4 : off % 4 = 0) (s : State) :
    hostRead (s.cfg.regBase + BitVec.ofNat 64 off) 4 s
      = .next (answer (wordReply (readOffset off s)) s) := by
  have hacc : registerAccess s.cfg (s.cfg.regBase + BitVec.ofNat 64 off) 4 = true := by
    simp [registerAccess, windowOffset_add _ hlt, hlt, h4]
  rw [hostRead, if_pos hacc, windowOffset_add _ hlt]

/-- An access with a byte in the window touches it (log 8). -/
theorem touchesWindow_of_byte {c : Config.Params} {addr : U64} {n i : Nat} (hi : i < n)
    (hspace : addr.toNat + i < 2 ^ 64) (hwin : windowOffset c (addr + BitVec.ofNat 64 i) < 128) :
    touchesWindow c addr n = true :=
  List.any_eq_true.mpr ⟨i, List.mem_range.mpr hi, decide_eq_true ⟨hspace, hwin⟩⟩

/-- R64: a read that touches the window and is no register access gets the bus error. -/
theorem hostRead_busError {addr : U64} {n : Nat} {s : State} (hacc : registerAccess s.cfg addr n = false)
    (htouch : touchesWindow s.cfg addr n = true) : hostRead addr n s = .next (answer .busError s) := by
  rw [hostRead, if_neg (by simp [hacc]), if_pos htouch]

/-- R64: so does such a write. -/
theorem hostWrite_busError {addr : U64} {bytes : List Byte} {s : State}
    (hacc : registerAccess s.cfg addr bytes.length = false)
    (htouch : touchesWindow s.cfg addr bytes.length = true) :
    hostWrite addr bytes s = .next (answer .busError s) := by
  rw [hostWrite, if_neg (by simp [hacc]), if_pos htouch]

/-- Settles O39: a register access reaches its offset, and any other one that has a byte in the window
touches the window. -/
theorem windowAccessRule : Obligations.WindowAccessRule := by
  refine ⟨fun s off w hlt h4 => ⟨hostRead_window hlt h4 s, hostWrite_window hlt h4 w s⟩, ?_⟩
  intro s addr n i hi hspace hwin hnot
  have hacc : registerAccess s.cfg addr n = false := decide_eq_false hnot
  have htouch : touchesWindow s.cfg addr n = true := touchesWindow_of_byte hi hspace hwin
  refine ⟨hostRead_busError hacc htouch, fun bytes hlen => ?_⟩
  subst hlen
  exact hostWrite_busError hacc htouch

end Sys2Proof.Machine
end

section
/-! PROOFS. Races with the host, and the bytes that KSG's agents leave alone (O60, O32; 20_memory.md R69,
R73, 43_generate.md R196, log 9, 10). -/

namespace Sys2Proof.Machine

/-! ## Races (R73) -/

/-- A host read of a byte of the target range answers one of the values that the race leaves (R73(a)). -/
theorem hostReadByte_mem_raceReadOptions {s : State} {sn : Snapshot} {x : Nat} (hs : s.snap = some sn)
    (hx : inTarget sn x = true) : (hostReadByte x s).1 ∈ raceReadOptions sn x s := by
  have hlt : (choose (raceReadOptions sn x s).length s).1 < (raceReadOptions sn x s).length :=
    choose_lt _ s (by simp [raceReadOptions])
  simp only [hostReadByte, hs, hx, if_true]
  rw [List.getD_eq_getElem _ _ hlt]
  exact List.getElem_mem _

/-- Where the host has written nothing, those are the value before the command and the command's. -/
theorem mem_raceReadOptions_unwritten {s : State} {sn : Snapshot} {x : Nat} {v : Option Byte}
    (hr : memRead s.raced x = none) (h : v ∈ raceReadOptions sn x s) :
    v = memRead s.before x ∨ v = commandByte s.cfg sn x := by
  simp only [raceReadOptions, hr, Option.toList_none, List.map_nil, List.append_nil] at h
  rcases List.mem_cons.mp h with h | h
  · exact .inl h
  · obtain ⟨b, hb, rfl⟩ := List.mem_map.mp h
    exact .inr (Option.mem_toList.mp hb).symm

/-- With no command there is no race to settle. -/
theorem endRaces_idle {s : State} (early : Bool) (hs : s.snap = none) : endRaces early s = s := by
  simp only [endRaces, hs]

/-- The races of a running command are those of its snapshot. -/
theorem endRaces_running {s : State} {sn : Snapshot} (early : Bool) (hs : s.snap = some sn) :
    endRaces early s = settleRaces early sn s.raced s := by
  simp only [endRaces, hs]

/-- What the end of a command leaves: a raced byte holds the host's value, the command's or, at an early
end, what it was before the command; every other byte is as it was (R73(b), log 10). -/
theorem endRaces_read {early : Bool} {s : State} {sn : Snapshot} (hi : MachineInv s)
    (hs : s.snap = some sn) (x : Nat) :
    (memRead s.raced x = none → memRead (endRaces early s).mem x = memRead s.mem x) ∧
    ∀ v, memRead s.raced x = some v →
      memRead (endRaces early s).mem x = some v ∨
      memRead (endRaces early s).mem x = commandByte s.cfg sn x ∨
      (early = true ∧ memRead (endRaces early s).mem x = memRead s.before x) := by
  rw [endRaces_running early hs]
  exact settleRaces_read s hi.racedForm x

/-- Both early ends, fault entry and a reset, leave the memory that settling the races leaves (R214,
R240). -/
theorem earlyEnd_mem {s t : State} {sn : Snapshot} (hs : s.snap = some sn)
    (h : (s.pending.isSome ∧ runMove .takeFault s = .next t) ∨ hostEvent .reset s = .next t) :
    t.mem = (endRaces true s).mem := by
  rcases h with ⟨hp, h⟩ | h
  · obtain ⟨p, hp⟩ := Option.isSome_iff_exists.mp hp
    cases h
    rw [takeFaultStep_eq hs hp, faultEntry_mem]
  · cases h
    rfl

/-- Settles O60: a racing read picks one of its options, and each end of a command settles the races. -/
theorem racesAreOldOrNew : Obligations.RacesAreOldOrNew := by
  refine ⟨fun s sn x _ hs hx hr => ?_, fun s t sn hi hs h => ?_, fun s t sn hi hs h => ?_⟩
  · exact ⟨mem_raceReadOptions_unwritten hr (hostReadByte_mem_raceReadOptions hs hx),
      hostReadByte_state x s⟩
  · cases h
    refine ⟨fun x v hv => ?_, fun x => (endRaces_read hi hs x).1⟩
    rcases (endRaces_read hi hs x).2 v hv with hhost | hcmd | ⟨early, -⟩
    · exact .inl hhost
    · exact .inr hcmd
    · cases early
  · rw [earlyEnd_mem hs h]
    refine ⟨fun x v hv => ?_, fun x => (endRaces_read hi hs x).1⟩
    exact ((endRaces_read hi hs x).2 v hv).imp_right (Or.imp_right And.right)

/-! ## The target range (R69, R196) -/

/-- A transaction all of whose bytes are in the target range leaves every other byte. -/
theorem memRead_memWriteBytes_off {sn : Snapshot} {bs : List Byte} {m : Memory} {a x : Nat}
    (hbs : ∀ i, i < bs.length → inTarget sn (a + i) = true) (hx : inTarget sn x = false) :
    memRead (memWriteBytes m a bs) x = memRead m x := by
  rw [memRead_memWriteBytes, if_neg]
  rintro ⟨hlo, hhi⟩
  have h := hbs (x - a) (by omega)
  rw [Nat.add_sub_cancel' hlo, hx] at h
  cases h

/-- A byte outside the target range is not raced for, so the end of a command leaves it (R73). -/
theorem endRaces_off {early : Bool} {s : State} {sn : Snapshot} {x : Nat} (hi : MachineInv s)
    (hs : s.snap = some sn) (hx : inTarget sn x = false) :
    memRead (endRaces early s).mem x = memRead s.mem x := by
  refine (endRaces_read hi hs x).1 (Option.eq_none_iff_forall_ne_some.mpr fun b hb => ?_)
  have h : inTarget sn x = true := (hi.running sn hs).raced _ (mem_of_memRead hb)
  cases hx.symm.trans h

/-- A refused transaction stores nothing (R213). -/
theorem recordRefused_mem (a : Nat) (s : State) : (recordRefused a s).mem = s.mem := by
  obtain ⟨p, h⟩ := recordRefused_state a s
  rw [h]

/-- The 16 bytes of the Unit that an engine writes next lie in the target range (R196). -/
theorem unitBytes_inTarget {c : Config.Params} {sn : Snapshot} {sh : Shard} {u i : Nat}
    (hf : ShardFits c sn sh) (hu : sh.start + u < sh.limit) (hi : i < 16) :
    inTarget sn (unitAddr sn sh u + i) = true :=
  inTarget_of_commandByte (hf.bytes (sh.start + u) i (Nat.le_add_right ..) hu hi)

/-- The bytes of a chunk lie in the target range of its GENERATE (R193). -/
theorem chunkBytes_inTarget {sn : Snapshot} {k i : Nat} (ho : sn.op = .generate)
    (hi : i < chunkLength sn.size.toNat k) : inTarget sn (sn.out.toNat + 16 * k + i) = true := by
  rw [inTarget_iff]
  unfold chunkLength at hi
  simp only [targetRange, ho]
  omega

theorem unitStep_off {s : State} {sn : Snapshot} {sh : Shard} {e u x : Nat} (hi : MachineInv s)
    (hs : s.snap = some sn) (he : s.engines[e]? = some (.running sh u)) (hu : sh.start + u < sh.limit)
    (hx : inTarget sn x = false) : memRead (unitStep e s).mem x = memRead s.mem x := by
  obtain ⟨hfit, -⟩ : EngineFits s.cfg sn (.running sh u) :=
    (hi.running sn hs).engines _ (List.mem_of_getElem? he)
  cases ha : admits s.cfg (unitAddr sn sh u) 16 with
  | true =>
    rw [unitStep_admitted hs he ha]
    exact memRead_memWriteBytes_off (fun i h => unitBytes_inTarget hfit hu (by simpa using h)) hx
  | false => rw [unitStep_refused hs he ha, recordRefused_mem]

theorem chunkStep_off {s : State} {sn : Snapshot} {f : FillAgent} {x : Nat} (hi : MachineInv s)
    (hs : s.snap = some sn) (hf : s.fill = some f) (hx : inTarget sn x = false) :
    memRead (chunkStep s).mem x = memRead s.mem x := by
  have ho : sn.op = .generate := ((hi.running sn hs).fill f hf).1
  cases ha : admits s.cfg (sn.out.toNat + 16 * f.k) (chunkLength sn.size.toNat f.k) with
  | true =>
    rw [chunkStep_admitted hs hf ha]
    exact memRead_memWriteBytes_off (fun i h => chunkBytes_inTarget ho (by simpa using h)) hx
  | false => rw [chunkStep_refused hs hf ha, recordRefused_mem]

/-- Settles O32, step by step of the agents: a transaction keeps to the target range, and so do the races
that the end of a command settles. -/
theorem agentsStayInTargetRange : Obligations.AgentsStayInTargetRange := by
  intro s t sn m hi hs hm h x hx
  obtain ⟨sn', hs', hcase⟩ := mem_agentMoves hm
  cases hs.symm.trans hs'
  rcases hcase with ⟨rfl, hp⟩ |
    ⟨-, ⟨e, j, rfl, -, hj⟩ | ⟨e, sh, u, rfl, he, hu⟩ | ⟨rfl, f, hf, -⟩ | ⟨rfl, -⟩⟩
  · rw [earlyEnd_mem hs (.inl ⟨hp, h⟩)]
    exact endRaces_off hi hs hx
  · cases h
    rw [dispatchStep_eq (List.getElem?_eq_getElem hj)]
  · cases h
    exact unitStep_off hi hs he hu hx
  · cases h
    exact chunkStep_off hi hs hf hx
  · cases h
    exact endRaces_off hi hs hx

end Sys2Proof.Machine
end

section
/-! PROOFS. No step of KSG's agents depends on host memory (O34; 20_memory.md R61, R77). -/

namespace Sys2Proof.Machine

/-! ## The same writes to two memories -/

/-- `m` became `m'` and `M` became `M'` by the same writes: a byte is the same afterwards, or untouched in
both. -/
def SameWrites (m M m' M' : Memory) : Prop :=
  ∀ x, memRead M' x = memRead m' x ∨ (memRead m' x = memRead m x ∧ memRead M' x = memRead M x)

theorem SameWrites.refl {m M : Memory} : SameWrites m M m M := fun _ => .inr ⟨rfl, rfl⟩

/-- What the second writes leave untouched is as the first left it. -/
theorem SameWrites.trans {m M m' M' m'' M'' : Memory} (h : SameWrites m M m' M')
    (h' : SameWrites m' M' m'' M'') : SameWrites m M m'' M'' := by
  intro x
  rcases h' x with heq | ⟨hm, hM⟩
  · exact .inl heq
  · rw [hm, hM]
    exact h x

theorem sameWrites_memPut {m M : Memory} {a : Nat} {v : Option Byte} :
    SameWrites m M (memPut m a v) (memPut M a v) := by
  intro x
  rw [memRead_memPut, memRead_memPut]
  split
  · exact .inl rfl
  · exact .inr ⟨rfl, rfl⟩

theorem sameWrites_memWriteBytes {m M : Memory} {a : Nat} {bs : List Byte} :
    SameWrites m M (memWriteBytes m a bs) (memWriteBytes M a bs) := by
  intro x
  rw [memRead_memWriteBytes, memRead_memWriteBytes]
  split
  · exact .inl rfl
  · exact .inr ⟨rfl, rfl⟩

/-! ## Operations that do not read host memory -/

/-- In `s` the operation does the same whatever host memory holds, and writes the same to it. -/
def MemBlind (f : State → State) (s : State) : Prop :=
  ∀ M, ∃ M', f { s with mem := M } = { f s with mem := M' } ∧ SameWrites s.mem M (f s).mem M'

/-- An operation that keeps host memory, and does the same to all else whatever it holds. -/
theorem MemBlind.of_keeps {f : State → State} {s : State} (hmem : (f s).mem = s.mem)
    (h : ∀ M, f { s with mem := M } = { f s with mem := M }) : MemBlind f s :=
  fun M => ⟨M, h M, hmem ▸ .refl⟩

theorem MemBlind.comp {f g : State → State} {s : State} (hg : MemBlind g (f s)) (hf : MemBlind f s) :
    MemBlind (fun s => g (f s)) s := by
  intro M
  obtain ⟨M', heq, hw⟩ := hf M
  obtain ⟨M'', heq', hw'⟩ := hg M'
  exact ⟨M'', (congrArg g heq).trans heq', hw.trans hw'⟩

/-- A choice does not look at host memory (log 3). -/
theorem choose_setMem (n : Nat) (s : State) (M : Memory) :
    choose n { s with mem := M } = ((choose n s).1, { (choose n s).2 with mem := M }) := by
  unfold choose
  dsimp only
  split
  · rfl
  · split <;> rfl

/-- The values a raced byte may end with are not read from host memory (log 10). -/
theorem settleRace_memBlind (early : Bool) (sn : Snapshot) (c : Host.Cell) (s : State) :
    MemBlind (settleRace early sn c) s := by
  intro M
  have hopts : raceWriteOptions early sn c { s with mem := M } = raceWriteOptions early sn c s := rfl
  simp only [settleRace, hopts, choose_setMem, choose_mem]
  exact ⟨_, rfl, sameWrites_memPut⟩

theorem settleRaces_memBlind (early : Bool) (sn : Snapshot) (l : List Host.Cell) (s : State) :
    MemBlind (settleRaces early sn l) s := by
  induction l generalizing s with
  | nil => exact .of_keeps rfl fun _ => rfl
  | cons c rest ih => exact (ih _).comp (settleRace_memBlind early sn c s)

theorem endRaces_memBlind (early : Bool) (s : State) : MemBlind (endRaces early) s := by
  cases hs : s.snap with
  | none =>
    refine .of_keeps (by rw [endRaces_idle early hs]) fun M => ?_
    rw [endRaces_idle early hs]
    exact endRaces_idle (s := { s with mem := M }) early hs
  | some sn =>
    intro M
    rw [endRaces_running early hs, endRaces_running (s := { s with mem := M }) early hs]
    exact settleRaces_memBlind early sn s.raced s M

theorem recordRefused_memBlind (a : Nat) (s : State) : MemBlind (recordRefused a) s := by
  refine .of_keeps (recordRefused_mem a s) fun M => ?_
  unfold recordRefused
  dsimp only
  split <;> rfl

/-! ## The agents' steps -/

theorem dispatchStep_memBlind {s : State} {e j : Nat} (hj : j < s.queue.length) :
    MemBlind (dispatchStep e j) s := by
  have hq := List.getElem?_eq_getElem hj
  refine .of_keeps (by rw [dispatchStep_eq hq]) fun M => ?_
  rw [dispatchStep_eq hq, dispatchStep_eq (s := { s with mem := M }) hq]

/-- A Unit's bytes and its address come from the snapshot and the engine (R145). -/
theorem unitStep_memBlind {s : State} {sn : Snapshot} {sh : Shard} {e u : Nat} (hs : s.snap = some sn)
    (he : s.engines[e]? = some (.running sh u)) : MemBlind (unitStep e) s := by
  intro M
  cases ha : admits s.cfg (unitAddr sn sh u) 16 with
  | true =>
    rw [unitStep_admitted hs he ha, unitStep_admitted (s := { s with mem := M }) hs he ha]
    exact ⟨_, rfl, sameWrites_memWriteBytes⟩
  | false =>
    rw [unitStep_refused hs he ha, unitStep_refused (s := { s with mem := M }) hs he ha]
    exact recordRefused_memBlind _ { s with engines := s.engines.set e .idle } M

/-- A chunk's bytes and its address come from the snapshot and the fill agent (R193). -/
theorem chunkStep_memBlind {s : State} {sn : Snapshot} {f : FillAgent} (hs : s.snap = some sn)
    (hf : s.fill = some f) : MemBlind chunkStep s := by
  intro M
  cases ha : admits s.cfg (sn.out.toNat + 16 * f.k) (chunkLength sn.size.toNat f.k) with
  | true =>
    rw [chunkStep_admitted hs hf ha, chunkStep_admitted (s := { s with mem := M }) hs hf ha]
    exact ⟨_, rfl, sameWrites_memWriteBytes⟩
  | false =>
    rw [chunkStep_refused hs hf ha, chunkStep_refused (s := { s with mem := M }) hs hf ha]
    exact recordRefused_memBlind _ { s with fill := none } M

theorem completeStep_memBlind (s : State) : MemBlind completeStep s :=
  .comp (g := completeCommand) (.of_keeps rfl fun _ => rfl) (endRaces_memBlind false s)

theorem takeFaultStep_memBlind {s : State} {sn : Snapshot} {p : PendingFault} (hs : s.snap = some sn)
    (hp : s.pending = some p) : MemBlind takeFaultStep s := by
  intro M
  rw [takeFaultStep_eq hs hp, takeFaultStep_eq (s := { s with mem := M }) hs hp]
  exact MemBlind.comp (g := faultEntry p.code (opcode sn.op) p.addr)
    (.of_keeps rfl fun _ => rfl) (endRaces_memBlind true s) M

/-- An enabled step of KSG's agents is an operation that does not read host memory. -/
theorem agentMove_memBlind {m : Move} {s : State} (hm : m ∈ agentMoves s) :
    ∃ f, (∀ u, runMove m u = .next (f u)) ∧ MemBlind f s := by
  obtain ⟨sn, hs, hcase⟩ := mem_agentMoves hm
  rcases hcase with ⟨rfl, hp⟩ |
    ⟨-, ⟨e, j, rfl, -, hj⟩ | ⟨e, sh, u, rfl, he, -⟩ | ⟨rfl, f, hf, -⟩ | ⟨rfl, -⟩⟩
  · obtain ⟨p, hp⟩ := Option.isSome_iff_exists.mp hp
    exact ⟨takeFaultStep, fun _ => rfl, takeFaultStep_memBlind hs hp⟩
  · exact ⟨dispatchStep e j, fun _ => rfl, dispatchStep_memBlind hj⟩
  · exact ⟨unitStep e, fun _ => rfl, unitStep_memBlind hs he⟩
  · exact ⟨chunkStep, fun _ => rfl, chunkStep_memBlind hs hf⟩
  · exact ⟨completeStep, fun _ => rfl, completeStep_memBlind s⟩

/-- Settles O34: which steps are enabled does not involve host memory, and no enabled one reads it. -/
theorem agentsNeverReadHostMemory : Obligations.AgentsNeverReadHostMemory := by
  intro s t m M hm h
  obtain ⟨f, hrun, hblind⟩ := agentMove_memBlind hm
  cases (hrun s).symm.trans h
  obtain ⟨M', heq, hw⟩ := hblind M
  exact ⟨hm, M', (hrun _).trans (congrArg Host.Outcome.next heq), hw⟩

end Sys2Proof.Machine
end

section
/-! PROOFS. The decoder and the encoder: which words are commands, and that each command has exactly one
word (O1, O2, O3; 30_encoding.md R90 to R92, R95, R98). -/

namespace Sys2Proof.Machine

/-! ## The opcode map (R92) -/

theorem opcodeMap_eq_some_iff {op : BitVec 8} {i : Instr} : opcodeMap op = some i ↔ op = opcode i := by
  constructor
  · intro h
    unfold opcodeMap at h
    split_ifs at h with h1 h2 h3 <;> cases h
    · exact h1
    · exact h2
    · exact h3
  · rintro rfl
    cases i <;> rfl

theorem exists_eq_opcode_iff {op : BitVec 8} :
    (∃ i, op = opcode i) ↔ op = 0x01 ∨ op = 0x02 ∨ op = 0x03 := by
  constructor
  · rintro ⟨i, rfl⟩
    cases i <;> decide
  · rintro (rfl | rfl | rfl)
    · exact ⟨.generate, rfl⟩
    · exact ⟨.threshold, rfl⟩
    · exact ⟨.keystream, rfl⟩

/-! ## The decoder against the encoder -/

theorem decode_bytesOfWord (w : U32) : decode (bytesOfWord w) = decodeWord w :=
  congrArg decodeWord (wordOfBytes_bytesOfWord w)

/-- A word is a command's exactly where RSV is 0 and OP is the command's opcode (R91). -/
theorem decodeWord_eq_command_iff {w : U32} {i : Instr} :
    decodeWord w = .command i ↔ (fieldsOf w).rsv = 0 ∧ (fieldsOf w).op = opcode i := by
  rw [← opcodeMap_eq_some_iff]
  by_cases hrsv : (fieldsOf w).rsv = 0#24
  · cases hop : opcodeMap (fieldsOf w).op <;> simp [decodeWord, hrsv, hop]
  · simp [decodeWord, hrsv]

/-- The two fields make the word (R90). -/
theorem rsv_append_op (w : U32) : (fieldsOf w).rsv ++ (fieldsOf w).op = w :=
  BitVec.extractLsb'_append_extractLsb' (w := 24) (len := 8)

theorem fieldsOf_encode (i : Instr) : fieldsOf (encode i) = { op := opcode i, rsv := 0 } := by
  cases i <;> rfl

/-- The word of a command is the only one that decodes to it (R91, R98). -/
theorem decodeWord_eq_command_iff_eq_encode {w : U32} {i : Instr} :
    decodeWord w = .command i ↔ w = encode i := by
  rw [decodeWord_eq_command_iff]
  constructor
  · rintro ⟨hrsv, hop⟩
    rw [← rsv_append_op w, hrsv, hop, encode]
  · rintro rfl
    rw [fieldsOf_encode]
    exact ⟨rfl, rfl⟩

theorem decode_encode (i : Instr) : decode (bytesOfWord (encode i)) = .command i := by
  rw [decode_bytesOfWord, decodeWord_eq_command_iff_eq_encode]

/-- A 32-bit table word is the register word of the same number. -/
theorem decodeTableWord_toNat (w : U32) : decodeTableWord 32 w.toNat = (decode (bytesOfWord w)).instr? := by
  rw [decodeTableWord, Nat.mod_eq_of_lt w.isLt, BitVec.ofNat_toNat, BitVec.setWidth_eq]

/-- Settles O2: the words that decode to a command are exactly its encoding. -/
theorem decodeEncodeRoundTrip : Obligations.DecodeEncodeRoundTrip := by
  refine ⟨fun i => ⟨decode_encode i, ?_⟩, fun w i h => ?_⟩
  · rw [decodeTableWord_toNat, decode_encode, Decoded.instr?]
  · rwa [decode_bytesOfWord, decodeWord_eq_command_iff_eq_encode] at h

/-! ## Legal and illegal words (R91, R95) -/

/-- Settles O1: a legal word has RSV = 0 and some command's opcode in OP, and a CMD write of a word that the
decoder rejects faults. -/
theorem legalWordsAndIllegalOnes : Obligations.LegalWordsAndIllegalOnes := by
  refine fun w => ⟨?_, fun hnone s hbusy hfault => ?_⟩
  · simp only [decode_bytesOfWord, decodeWord_eq_command_iff, exists_and_left, exists_eq_opcode_iff]
    rfl
  · obtain ⟨-, hfree, -⟩ := commandWriteDroppedOrDecoded
    cases h : decode (bytesOfWord w) with
    | command i => exact absurd h (hnone i)
    | illegal e => exact (hfree w s hbusy hfault).2 e h

/-- Settles O3, by running the decoder on the six words. -/
theorem encodingTableDecodes : Obligations.EncodingTableDecodes := by
  unfold Obligations.EncodingTableDecodes
  decide

end Sys2Proof.Machine
end

section
/-! PROOFS. The assembly of the operands from register writes (O40; 30_encoding.md R94, R97,
41_keystream.md R131). -/

namespace Sys2Proof.Machine

/-- The halves that WR64 writes make the value (R97). -/
theorem halves_append (v : U64) : v.extractLsb' 32 32 ++ v.extractLsb' 0 32 = v :=
  BitVec.extractLsb'_append_extractLsb' (w := 32) (len := 32)

/-- The words that WR128 writes make the value (R97). -/
theorem words_append (v : U128) :
    v.extractLsb' 96 32 ++ v.extractLsb' 64 32 ++ v.extractLsb' 32 32 ++ v.extractLsb' 0 32 = v := by
  have htop : v.extractLsb' 96 32 ++ v.extractLsb' 64 32 = v.extractLsb' 64 64 :=
    BitVec.extractLsb'_append_extractLsb'_eq_extractLsb' rfl
  have hupper : v.extractLsb' 64 64 ++ v.extractLsb' 32 32 = v.extractLsb' 32 96 :=
    BitVec.extractLsb'_append_extractLsb'_eq_extractLsb' rfl
  rw [htop, hupper]
  exact BitVec.extractLsb'_append_extractLsb' (w := 96) (len := 32)

/-- The low eight bytes of the Key are the seed's (R131). -/
theorem byteOf_keyOf_low (r : Operands) {i : Nat} (hi : i < 8) :
    byteOf (keyOf r) i = (seedOf r).extractLsb' (8 * i) 8 :=
  BitVec.extractLsb'_append_eq_of_add_le (by omega)

/-- The high eight bytes of the Key are seed1's (R131). -/
theorem byteOf_keyOf_high (r : Operands) (i : Nat) :
    byteOf (keyOf r) (8 + i) = (seed1Of r).extractLsb' (8 * i) 8 := by
  rw [byteOf, keyOf, BitVec.extractLsb'_append_eq_of_le (by omega), Nat.mul_add, Nat.add_sub_cancel_left]

/-- Settles O40: each register write sets its own field, and the fields side by side are the value. -/
theorem operandAssembly : Obligations.OperandAssembly :=
  ⟨fun _ _ => ⟨rfl, rfl, rfl⟩,
    fun _ v => ⟨halves_append v, halves_append v, halves_append v, halves_append v, halves_append v,
      halves_append v, halves_append v⟩,
    fun _ v => words_append v,
    fun r => ⟨pair_toNat _ _, fun _ => byteOf_keyOf_low r, fun i _ => byteOf_keyOf_high r i⟩⟩

end Sys2Proof.Machine
end

section
/-! PROOFS. The lines of a host program as steps of the host (O41; 30_encoding.md R96, R98, log 4). -/

namespace Sys2Proof.Machine

/-- The host's step is its first pending event. -/
theorem runMove_host {s : State} {ev : HostEvent} {rest : List HostEvent} (hbus : s.bus = ev :: rest) :
    runMove .host s = hostEvent ev { s with bus := rest } := by
  simp only [runMove, hostStep, hbus]

theorem writeOffset_regOffset {r : Reg} (hr : r ≠ .cmd) (v : U32) (s : State) :
    writeOffset (regOffset r) v s = .next (regWrite r v s) := by
  cases r
  case cmd => exact absurd rfl hr
  all_goals rfl

theorem readOffset_regOffset (r : Reg) (s : State) : readOffset (regOffset r) s = regRead r s := by
  simp only [readOffset, regAt_regOffset]

/-- What the host has pending shows in no register. -/
theorem regRead_setBus (r : Reg) (bus : List HostEvent) (s : State) :
    regRead r { s with bus := bus } = regRead r s := by
  cases r <;> rfl

/-- `WR r, v` writes `v` to `r` (R96). -/
theorem runMove_wr {r : Reg} {v : U32} {s : State} {rest : List HostEvent} (hr : r ≠ .cmd)
    (hbus : s.bus = programEvents s.cfg [.wr r v] ++ rest) :
    runMove .host s = .next (regWrite r v (answer .written { s with bus := rest })) := by
  obtain ⟨haligned, hlt⟩ := regOffset_aligned r
  rw [runMove_host hbus]
  calc hostWrite (s.cfg.regBase + BitVec.ofNat 64 (regOffset r)) (bytesOfWord v) { s with bus := rest }
    _ = writeOffset (regOffset r) v (answer .written { s with bus := rest }) :=
      hostWrite_window hlt haligned v { s with bus := rest }
    _ = .next (regWrite r v (answer .written { s with bus := rest })) := writeOffset_regOffset hr v _

/-- `RD r` answers what `r` reads (R96). -/
theorem runMove_rd {r : Reg} {s : State} {rest : List HostEvent}
    (hbus : s.bus = programEvents s.cfg [.rd r] ++ rest) :
    runMove .host s
      = .next (answer (wordReply (regRead r s)) { s with bus := rest }) := by
  obtain ⟨haligned, hlt⟩ := regOffset_aligned r
  rw [runMove_host hbus]
  calc hostRead (s.cfg.regBase + BitVec.ofNat 64 (regOffset r)) 4 { s with bus := rest }
    _ = .next (answer (wordReply (readOffset (regOffset r) { s with bus := rest })) { s with bus := rest }) :=
      hostRead_window hlt haligned { s with bus := rest }
    _ = .next (answer (wordReply (regRead r s)) { s with bus := rest }) := by
      rw [readOffset_regOffset, regRead_setBus]

/-- `WAIT` reads STATUS, and stays pending while BUSY is 1 (R96, log 4). -/
theorem runMove_wait {s : State} {rest : List HostEvent}
    (hbus : s.bus = programEvents s.cfg [.wait] ++ rest) :
    runMove .host s = .next (answer (wordReply (regRead .status s))
      { s with bus := if s.status.busy then s.bus else rest }) := by
  rw [runMove_host hbus, hbus]
  cases hbusy : s.status.busy <;> (simp only [hostEvent, hostWait, hbusy]; rfl)

/-- Settles O41, line by line; CMD is the CMD write of the command's word. -/
theorem hostLinesAreRegisterAccesses : Obligations.HostLinesAreRegisterAccesses :=
  ⟨fun _ _ _ _ => runMove_wr, fun _ _ _ => runMove_rd,
    fun i _ _ hbus => hostStep_cmdEvent hbus (decode_encode i), fun _ _ => runMove_wait⟩

end Sys2Proof.Machine
end

section
/-! PROOFS. The order of the binary32 patterns, ComputeThreshold and Decide (O9, O10, O11; 00_scope.md R8,
40_threshold.md R110 to R113). -/

namespace Sys2Proof.Machine

/-! ## The order of the patterns (R8) -/

/-- The magnitude of the pattern `n` with a clear sign bit, in units of 2^-149: fraction and implicit
leading bit, times the unit in the last place. -/
def patternUnits (n : Nat) : Nat :=
  (n % 2 ^ 23 + if n < 2 ^ 23 then 0 else 2 ^ 23) * 2 ^ (n / 2 ^ 23 - 1)

theorem magnitudeOf_eq_patternUnits {p : U32} (hp : p.getLsbD 31 = false) :
    magnitudeOf p = patternUnits p.toNat := by
  have hlt : p.toNat < 2 ^ 31 := BitVec.toNat_lt_of_msb_false hp
  have he : exponentOf p = p.toNat / 2 ^ 23 := by
    rw [exponentOf, BitVec.extractLsb'_toNat, Nat.shiftRight_eq_div_pow]
    omega
  have hf : fractionOf p = p.toNat % 2 ^ 23 := BitVec.extractLsb'_toNat ..
  rw [magnitudeOf, patternUnits, he, hf]
  split
  · rename_i h
    rw [if_pos (by omega), h, Nat.zero_sub, Nat.pow_zero, Nat.mul_one, Nat.add_zero]
  · rw [if_neg (by omega), Nat.add_comm]

/-- The next pattern is one unit in the last place above, across exponents too. -/
theorem patternUnits_succ (n : Nat) :
    patternUnits (n + 1) = patternUnits n + 2 ^ (n / 2 ^ 23 - 1) := by
  by_cases hf : n % 2 ^ 23 = 2 ^ 23 - 1
  · have hf' : (n + 1) % 2 ^ 23 = 0 := by omega
    have he : (n + 1) / 2 ^ 23 = n / 2 ^ 23 + 1 := by omega
    rw [patternUnits, patternUnits, hf, hf', he, if_neg (by omega)]
    cases h : n / 2 ^ 23 with
    | zero => rw [if_pos (by omega)]; norm_num
    | succ e =>
      rw [if_neg (by omega), Nat.add_sub_cancel, Nat.add_sub_cancel, Nat.pow_succ]
      omega
  · have hf' : (n + 1) % 2 ^ 23 = n % 2 ^ 23 + 1 := by omega
    have he : (n + 1) / 2 ^ 23 = n / 2 ^ 23 := by omega
    have hn : n + 1 < 2 ^ 23 ↔ n < 2 ^ 23 := by omega
    simp only [patternUnits, hf', he, hn]
    ring

theorem patternUnits_strictMono : StrictMono patternUnits :=
  strictMono_nat_of_lt_succ fun n => by
    rw [patternUnits_succ]
    exact Nat.lt_add_of_pos_right (Nat.two_pow_pos _)

/-- Patterns with a clear sign bit stand in the order of their values. -/
theorem magnitudeOf_le_iff {p q : U32} (hp : p.getLsbD 31 = false) (hq : q.getLsbD 31 = false) :
    magnitudeOf p ≤ magnitudeOf q ↔ p.toNat ≤ q.toNat := by
  rw [magnitudeOf_eq_patternUnits hp, magnitudeOf_eq_patternUnits hq, patternUnits_strictMono.le_iff_le]

theorem magnitudeOf_lt_iff {p q : U32} (hp : p.getLsbD 31 = false) (hq : q.getLsbD 31 = false) :
    magnitudeOf p < magnitudeOf q ↔ p.toNat < q.toNat :=
  lt_iff_lt_of_le_iff_le (magnitudeOf_le_iff hq hp)

theorem magnitudeOf_inj {p q : U32} (hp : p.getLsbD 31 = false) (hq : q.getLsbD 31 = false) :
    magnitudeOf p = magnitudeOf q ↔ p = q := by
  rw [magnitudeOf_eq_patternUnits hp, magnitudeOf_eq_patternUnits hq,
    patternUnits_strictMono.injective.eq_iff, BitVec.toNat_inj]

/-! ## The unit interval (R115) -/

/-- A real number that is not negative is its pattern's magnitude: with the sign bit set it is -0. -/
theorem eq_magnitudeOf_of_nonneg {p : U32} {m : Int} (h : f32 p = .real m) (hm : 0 ≤ m) :
    m = magnitudeOf p := by
  unfold f32 at h
  split at h
  · split at h
    · cases h
    · split at h <;> cases h
  · cases h
    cases hs : signOf p with
    | false => rfl
    | true =>
      rw [hs, if_pos rfl] at hm
      rw [if_pos rfl]
      omega

theorem inUnitInterval_iff {p : U32} :
    inUnitInterval p = true ↔ ∃ m : Int, f32 p = .real m ∧ 0 ≤ m ∧ m ≤ 2 ^ 149 := by
  unfold inUnitInterval
  cases f32 p with
  | real m => simp only [decide_eq_true_iff, oneUnits, Binary32.real.injEq, exists_eq_left', Nat.cast_pow,
      Nat.cast_ofNat]
  | _ => simp

theorem magnitudeOf_le_of_inUnitInterval {p : U32} (h : inUnitInterval p = true) :
    magnitudeOf p ≤ 2 ^ 149 := by
  obtain ⟨m, hf, h0, h1⟩ := inUnitInterval_iff.mp h
  have := eq_magnitudeOf_of_nonneg hf h0
  omega

/-- −0 is the only pattern of the interval with its sign bit set. -/
theorem magnitudeOf_eq_zero_of_sign {p : U32} (h : inUnitInterval p = true) (hs : p.getLsbD 31 = true) :
    magnitudeOf p = 0 := by
  obtain ⟨m, hf, h0, -⟩ := inUnitInterval_iff.mp h
  have hm := eq_magnitudeOf_of_nonneg hf h0
  unfold f32 signOf at hf
  rw [hs] at hf
  split at hf
  · split at hf <;> cases hf
  · cases hf
    simp only [if_true] at hm
    omega

/-! ## ComputeThreshold (R110, R111) -/

/-- R110's rounding as bounds: `floor` of `65535 × p + 1/2`, counted in units of 2^-150. -/
theorem roundThreshold_bounds (u : Nat) :
    roundThreshold u * 2 ^ 150 ≤ 2 * 65535 * u + 2 ^ 149 ∧
      2 * 65535 * u + 2 ^ 149 < (roundThreshold u + 1) * 2 ^ 150 := by
  have hround : roundThreshold u = (2 * 65535 * u + 2 ^ 149) / 2 ^ 150 := by
    rw [roundThreshold, show 2 * oneUnits = 2 ^ 150 by norm_num [oneUnits], oneUnits]
  rw [hround]
  refine ⟨Nat.div_mul_le_self _ _, ?_⟩
  rw [Nat.mul_comm _ (2 ^ 150)]
  exact Nat.lt_mul_div_succ _ (Nat.two_pow_pos _)

theorem roundThreshold_mono : Monotone roundThreshold := by
  intro u v h
  have hu := (roundThreshold_bounds u).1
  have hv := (roundThreshold_bounds v).2
  omega

/-- On the unit interval the rounded value fits T's 16 bits. -/
theorem computeThreshold_toNat {p : U32} (h : inUnitInterval p = true) :
    (computeThreshold p).toNat = roundThreshold (magnitudeOf p) := by
  have hm := magnitudeOf_le_of_inUnitInterval h
  have hb := (roundThreshold_bounds (magnitudeOf p)).1
  rw [computeThreshold, BitVec.toNat_ofNat, Nat.mod_eq_of_lt (by omega)]

theorem computeThreshold_eq_zero_iff {p : U32} (h : inUnitInterval p = true) :
    computeThreshold p = 0 ↔ 131070 * magnitudeOf p < 2 ^ 149 := by
  have hb := roundThreshold_bounds (magnitudeOf p)
  rw [← BitVec.toNat_inj, computeThreshold_toNat h]
  simp only [BitVec.ofNat_eq_ofNat, BitVec.toNat_ofNat]
  omega

theorem computeThreshold_eq_max_iff {p : U32} (h : inUnitInterval p = true) :
    computeThreshold p = 65535 ↔ 131069 * 2 ^ 149 ≤ 131070 * magnitudeOf p := by
  have hm := magnitudeOf_le_of_inUnitInterval h
  have hb := roundThreshold_bounds (magnitudeOf p)
  rw [← BitVec.toNat_inj, computeThreshold_toNat h]
  simp only [BitVec.ofNat_eq_ofNat, BitVec.toNat_ofNat]
  omega

/-- The last pattern below 1/131070. -/
theorem below_zero_boundary_iff {p : U32} (hp : p.getLsbD 31 = false) :
    131070 * magnitudeOf p < 2 ^ 149 ↔ p.toNat ≤ 0x37000080 := by
  have hlast : 131070 * magnitudeOf 0x37000080 < 2 ^ 149 := by decide +kernel
  have hnext : 2 ^ 149 ≤ 131070 * magnitudeOf 0x37000081 := by decide +kernel
  have hle : magnitudeOf p ≤ magnitudeOf 0x37000080 ↔ p.toNat ≤ 0x37000080 :=
    magnitudeOf_le_iff hp (by decide)
  have hlt : magnitudeOf p < magnitudeOf 0x37000081 ↔ p.toNat < 0x37000081 :=
    magnitudeOf_lt_iff hp (by decide)
  omega

/-- The first pattern from 131069/131070 on. -/
theorem above_max_boundary_iff {p : U32} (hp : p.getLsbD 31 = false) :
    131069 * 2 ^ 149 ≤ 131070 * magnitudeOf p ↔ 0x3F7FFF80 ≤ p.toNat := by
  have hfirst : 131069 * 2 ^ 149 ≤ 131070 * magnitudeOf 0x3F7FFF80 := by decide +kernel
  have hprev : 131070 * magnitudeOf 0x3F7FFF7F < 131069 * 2 ^ 149 := by decide +kernel
  have hle : magnitudeOf 0x3F7FFF80 ≤ magnitudeOf p ↔ 0x3F7FFF80 ≤ p.toNat :=
    magnitudeOf_le_iff (by decide) hp
  have hlt : magnitudeOf 0x3F7FFF7F < magnitudeOf p ↔ 0x3F7FFF7F < p.toNat :=
    magnitudeOf_lt_iff (by decide) hp
  omega

/-- A tie needs `2^148` to divide the value, because 65535 is odd. -/
theorem dvd_of_tie {u : Nat} (htie : 2 * 65535 * u % 2 ^ 150 = 2 ^ 149) : 2 ^ 148 ∣ u := by
  have hdvd : 2 ^ 148 ∣ 65535 * u := by omega
  exact (Nat.Coprime.pow_left 148 (by norm_num : Nat.Coprime 2 65535)).dvd_of_dvd_mul_left hdvd

/-- Of 0, 1/2 and 1, the multiples of 1/2 in the interval, only 1/2 is a tie. -/
theorem tie_iff_half {u : Nat} (h : u ≤ 2 ^ 149) : 2 * 65535 * u % 2 ^ 150 = 2 ^ 149 ↔ u = 2 ^ 148 := by
  constructor
  · intro htie
    obtain ⟨k, rfl⟩ := dvd_of_tie htie
    omega
  · rintro rfl
    norm_num

theorem tie_iff_pattern {p : U32} (h : inUnitInterval p = true) :
    2 * 65535 * magnitudeOf p % 2 ^ 150 = 2 ^ 149 ↔ p = 0x3F000000 := by
  have hhalf : magnitudeOf 0x3F000000 = 2 ^ 148 := by decide +kernel
  rw [tie_iff_half (magnitudeOf_le_of_inUnitInterval h)]
  cases hs : p.getLsbD 31 with
  | false => rw [← hhalf, magnitudeOf_inj hs (by decide)]
  | true =>
    rw [magnitudeOf_eq_zero_of_sign h hs]
    refine ⟨fun h0 => by norm_num at h0, ?_⟩
    rintro rfl
    cases hs

/-- Settles O9: the rounding is monotone, and the patterns of its boundaries and of its tie follow from the
order of the patterns. -/
theorem thresholdProperties : Obligations.ThresholdProperties := by
  refine ⟨fun p q hp hq hle => ?_, by decide +kernel, fun p hs hp => ?_, fun p => tie_iff_pattern,
    by decide +kernel⟩
  · rw [computeThreshold_toNat hp, computeThreshold_toNat hq]
    exact roundThreshold_mono hle
  · have hzero := computeThreshold_eq_zero_iff hp
    have hmax := computeThreshold_eq_max_iff hp
    exact ⟨hzero, hzero.trans (below_zero_boundary_iff hs), hmax, hmax.trans (above_max_boundary_iff hs)⟩

/-! ## Decide (R112, R113) -/

theorem decideLane_iff {lane t : U16} : decideLane lane t = true ↔ lane.toNat ≤ t.toNat :=
  decide_eq_true_iff

theorem decideLane_eq_false_iff {lane t : U16} : decideLane lane t = false ↔ t.toNat < lane.toNat :=
  decide_eq_false_iff_not.trans Nat.not_le

/-- Settles O10, each corner case from the comparison. -/
theorem decideComparesUnsigned : Obligations.DecideComparesUnsigned := by
  refine ⟨fun _ _ => decideLane_iff, fun lane => ?_, fun lane => ?_, fun T => ?_, fun T hT => ?_⟩
  · rw [decideLane_iff]
    bv_omega
  · rw [decideLane_iff]
    bv_omega
  · exact decideLane_iff.mpr le_rfl
  · rw [decideLane_eq_false_iff]
    bv_omega

theorem decideLane_ofNat_iff {l : Nat} {T : U16} (hl : l < 65536) :
    decideLane (BitVec.ofNat 16 l) T = true ↔ l < T.toNat + 1 := by
  rw [decideLane_iff, BitVec.toNat_ofNat, Nat.mod_eq_of_lt hl, Nat.lt_succ_iff]

/-- The rate law: the kept lane values are those up to T (R113). -/
theorem filter_decideLane_range (T : U16) :
    ((List.range 65536).filter fun l => decideLane (BitVec.ofNat 16 l) T) = List.range (T.toNat + 1) := by
  have hT := T.isLt
  have hsplit : List.range 65536
      = List.range (T.toNat + 1) ++ (List.range (65535 - T.toNat)).map (T.toNat + 1 + ·) := by
    rw [← List.range_add]
    congr 1
    omega
  rw [hsplit, List.filter_append, List.filter_eq_self.mpr, List.filter_eq_nil_iff.mpr, List.append_nil]
  · intro l hl
    obtain ⟨i, hi, rfl⟩ := List.mem_map.mp hl
    have hi := List.mem_range.mp hi
    rw [decideLane_ofNat_iff (by omega)]
    omega
  · intro l hl
    have hl := List.mem_range.mp hl
    exact (decideLane_ofNat_iff (by omega)).mpr hl

/-- Settles O11: the kept lane values are 0 to T, which are T + 1. -/
theorem decideRateLaw : Obligations.DecideRateLaw :=
  ⟨fun T => by rw [filter_decideLane_range, List.length_range], by decide +kernel, by decide +kernel⟩

end Sys2Proof.Machine
end

section
/-! PROOFS. The THRESHOLD command: its acceptance, its fault and its completion (O6, O7, O8;
40_threshold.md R115, 42_shard.md R176). -/

namespace Sys2Proof.Machine

/-! ## The CMD write (R115) -/

theorem blocked_eq_false {s : State} (hbusy : s.status.busy = false) (hfault : s.status.fault = false) :
    blocked s = false := by
  rw [blocked, hbusy, hfault, Bool.or_false]

theorem exec_threshold {s : State} (hb : blocked s = false) :
    exec .threshold s = .next (acceptThreshold s) := by
  rw [exec, execThreshold, unlessBlocked, hb, if_neg Bool.false_ne_true]

theorem exec_threshold_accepted {s : State} (hb : blocked s = false)
    (hp : inUnitInterval s.regs.prob = true) :
    exec .threshold s
      = .next { accept (takeSnapshot .threshold s) s with thresh := computeThreshold s.regs.prob } := by
  rw [exec_threshold hb, acceptThreshold, if_pos hp]

/-- Settles O6: the accepting branch of R115, with R110's bounds for its T. -/
theorem thresholdIsAccepted : Obligations.ThresholdIsAccepted := by
  intro s m hbusy hfault hf h0 h1
  have hp : inUnitInterval s.regs.prob = true := inUnitInterval_iff.mpr ⟨m, hf, h0, h1⟩
  refine ⟨computeThreshold s.regs.prob, ?_, exec_threshold_accepted (blocked_eq_false hbusy hfault) hp⟩
  have hround := roundThreshold_bounds (magnitudeOf s.regs.prob)
  rw [computeThreshold_toNat hp, eq_magnitudeOf_of_nonneg hf h0]
  omega

/-- Settles O7: outside the interval R115's check fails. -/
theorem thresholdFaultsOutsideUnitInterval : Obligations.ThresholdFaultsOutsideUnitInterval := by
  intro s hbusy hfault hout
  have hp : ¬ inUnitInterval s.regs.prob = true := by
    rw [inUnitInterval_iff]
    rintro ⟨m, hf, h0, h1⟩
    have := hout m hf
    omega
  rw [exec_threshold (blocked_eq_false hbusy hfault), acceptThreshold, if_neg hp]
  rfl

/-! ## Completion (R176) -/

/-- With one step enabled, that step comes next. -/
theorem step_of_moves_eq_singleton {s : State} {m : Move} (h : moves s = [m]) :
    ∃ s', SameButChoices s s' ∧ step s = runMove m s' := by
  cases hn : nextMove s with
  | none => simp [nextMove_none.mp hn] at h
  | some p =>
    obtain ⟨hmem, hsame⟩ := nextMove_some (m := p.1) (s' := p.2) hn
    rw [h, List.mem_singleton] at hmem
    exact ⟨p.2, hsame, hmem ▸ step_nextMove hn⟩

theorem enginesWhere_hasUnit_of_idle {s : State} (h : ∀ e ∈ s.engines, e = .idle) :
    enginesWhere Engine.hasUnit s = [] := by
  refine List.filter_eq_nil_iff.mpr fun e he => ?_
  rw [List.getD_eq_getElem _ _ (List.mem_range.mp he), h _ (List.getElem_mem _)]
  exact Bool.false_ne_true

/-- Where no shard, no Unit and no chunk is left, only completion is enabled (R176). -/
theorem agentMoves_of_no_work {s : State} {sn : Snapshot} (hsnap : s.snap = some sn)
    (hpending : s.pending = none) (hbusy : s.status.busy = true) (hqueue : s.queue = [])
    (hengines : ∀ e ∈ s.engines, e = .idle) (hfill : s.fill = none) : agentMoves s = [.complete] := by
  have hdispatch : dispatchMoves s = [] := by simp [dispatchMoves, hqueue]
  have hunits : unitMoves s = [] := by rw [unitMoves, enginesWhere_hasUnit_of_idle hengines, List.map_nil]
  have hchunk : fillHasChunk sn s = false := by simp [fillHasChunk, hfill]
  have hidle : s.engines.all Engine.isIdle = true :=
    List.all_eq_true.mpr fun e he => by rw [hengines e he, Engine.isIdle]
  simp [agentMoves, hsnap, hpending, hdispatch, hunits, chunkMoves, completeMoves, workDone, hchunk, hbusy,
    hqueue, hidle]

/-- A machine that rested before it accepted a command with no shard and no fill has only completion to
do, while the outside world is silent. -/
theorem moves_accepted_without_work {s : State} (rest : Resting s) (hbus : s.bus = []) (sn : Snapshot)
    (th : U16) : moves { accept sn s with thresh := th } = [.complete] := by
  have hagents : agentMoves { accept sn s with thresh := th } = [.complete] :=
    agentMoves_of_no_work rfl rest.pending rfl rest.queue rest.engines rest.fill
  rw [moves, hagents, hostMoves, accept_bus, hbus]
  rfl

/-- Settles O8: after acceptance completion is the only step enabled, and no race is left to settle. -/
theorem thresholdRunsToDone : Obligations.ThresholdRunsToDone := by
  intro s hi hbusy hfault hbus hp
  have hb := blocked_eq_false hbusy hfault
  obtain ⟨s', ⟨cs, d, rfl⟩, hstep⟩ := step_of_moves_eq_singleton
    (moves_accepted_without_work (hi.rest_of_not_blocked hb).2 hbus (takeSnapshot .threshold s)
      (computeThreshold s.regs.prob))
  refine ⟨_, _, exec_threshold_accepted hb hp, hstep, ?_⟩
  rw [completeStep, endRaces_of_none rfl]
  exact ⟨rfl, rfl, rfl, rfl, rfl, rfl⟩

end Sys2Proof.Machine
end

section
/-! PROOFS. The AES round: what the S-box table is, and the block byte by byte (O13, O14; 41_keystream.md
R132 to R134). -/

namespace Sys2Proof.Machine

/-! ## SubBytes (R132) -/

/-- The inverse of the affine map of R132. Both maps and the table range over 256 bytes, so the three facts
that tie them together are checked entry by entry. -/
def affineInverse (y : Byte) : Byte :=
  y.rotateLeft 1 ^^^ y.rotateLeft 3 ^^^ y.rotateLeft 6 ^^^ 0x05

/-- The affine map undoes `affineInverse`. -/
theorem affineBit_affineInverse : ∀ (y : Byte) (i : Nat), i < 8 →
    affineBit (affineInverse y) i = y.getLsbD i := by
  decide +kernel

/-- The byte of which `SBOX[b]` is the affine image (R132). -/
def sboxPreimage (b : Byte) : Byte := affineInverse (sbox b)

/-- That byte is the inverse of `b` in GF(2^8), 0 for 0. -/
theorem sboxPreimage_is_inverse : ∀ b : Byte,
    (b = 0 ∧ sboxPreimage b = 0) ∨ (b ≠ 0 ∧ gfMul b (sboxPreimage b) = 1) := by
  decide +kernel

/-- The inverse of the inverse of `b` is `b`. -/
theorem sboxPreimage_involutive : Function.Involutive sboxPreimage := by
  unfold Function.Involutive
  decide +kernel

/-- The table can be undone: it is the affine image of an inverse that undoes itself. -/
theorem sbox_injective : Function.Injective sbox :=
  .of_comp (f := affineInverse) sboxPreimage_involutive.injective

/-- Settles O13: undoing the affine map on the table gives the inverse in GF(2^8), which undoes itself. -/
theorem sboxIsAffineOfInverse : Obligations.SboxIsAffineOfInverse :=
  ⟨fun b => ⟨sboxPreimage b, sboxPreimage_is_inverse b,
    fun i hi => (affineBit_affineInverse (sbox b) i hi).symm⟩, fun _ _ h => sbox_injective h⟩

/-! ## The block, byte by byte (R133, R134) -/

theorem mixColumn_length (a0 a1 a2 a3 : Byte) : (mixColumn a0 a1 a2 a3).length = 4 := rfl

theorem mixColumns_length {l : List Byte} {n : Nat} (h : l.length = 4 * n) :
    (mixColumns l).length = 4 * n := by
  induction n generalizing l with
  | zero => rw [List.eq_nil_of_length_eq_zero h]; rfl
  | succ n ih =>
    match l, h with
    | a0 :: a1 :: a2 :: a3 :: rest, h =>
      have hrest : rest.length = 4 * n := by simp at h; omega
      rw [mixColumns, List.length_append, mixColumn_length, ih hrest]
      omega

/-- MixColumns works column by column: byte `r` of column `c` is byte `r` of that column mixed (R133). -/
theorem mixColumns_getD {l : List Byte} {c r : Nat} (hc : 4 * c + 4 ≤ l.length) (hr : r < 4) :
    (mixColumns l).getD (r + 4 * c) 0
      = (mixColumn (l.getD (4 * c) 0) (l.getD (1 + 4 * c) 0) (l.getD (2 + 4 * c) 0)
          (l.getD (3 + 4 * c) 0)).getD r 0 := by
  induction c generalizing l with
  | zero =>
    match l, hc with
    | a0 :: a1 :: a2 :: a3 :: rest, _ => exact List.getD_append _ _ _ _ hr
  | succ c ih =>
    match l, hc with
    | a0 :: a1 :: a2 :: a3 :: rest, hc =>
      have hrest : 4 * c + 4 ≤ rest.length := by simp at hc; omega
      rw [mixColumns, List.getD_append_right _ _ _ _ (by rw [mixColumn_length]; omega), mixColumn_length,
        show r + 4 * (c + 1) - 4 = r + 4 * c by omega, ih hrest]
      rfl

theorem subBytes_bytesOf_getD {x : U128} {i : Nat} (hi : i < 16) :
    (subBytes (bytesOf x)).getD i 0 = sbox (byteOf x i) := by
  simp [subBytes, List.getD_eq_getElem?_getD, bytesOf_getElem? hi]

theorem shiftRows_length (s : List Byte) : (shiftRows s).length = 16 := by
  rw [shiftRows, List.length_map, List.length_range]

/-- Row `r` of column `c` comes from column `c + r` (R133). -/
theorem shiftRows_getD {s : List Byte} {c r : Nat} (hc : c < 4) (hr : r < 4) :
    (shiftRows s).getD (r + 4 * c) 0 = s.getD (r + 4 * ((c + r) % 4)) 0 := by
  have hlt : r + 4 * c < 16 := by omega
  rw [shiftRows, List.getD_eq_getElem?_getD, List.getElem?_map, List.getElem?_range hlt,
    Option.map_some, Option.getD_some, show (r + 4 * c) % 4 = r by omega,
    show (r + 4 * c) / 4 = c by omega]

/-- The state of the round before MixColumns, at row `r` of column `c` (R134). -/
def shiftedSbox (d rk : U128) (c r : Nat) : Byte := sbox (byteOf (d ^^^ rk) (r + 4 * ((c + r) % 4)))

theorem shiftRows_subBytes_getD {d rk : U128} {c r : Nat} (hc : c < 4) (hr : r < 4) :
    (shiftRows (subBytes (bytesOf (d ^^^ rk)))).getD (r + 4 * c) 0 = shiftedSbox d rk c r := by
  rw [shiftRows_getD hc hr, subBytes_bytesOf_getD (by omega), shiftedSbox]

/-- Byte `r` of column `c` of a block is byte `r` of the mixed column (R134). -/
theorem byteOf_aesRound {d rk : U128} {c r : Nat} (hc : c < 4) (hr : r < 4) :
    byteOf (aesRound d rk) (r + 4 * c)
      = (mixColumn (shiftedSbox d rk c 0) (shiftedSbox d rk c 1) (shiftedSbox d rk c 2)
          (shiftedSbox d rk c 3)).getD r 0 := by
  have hlen := shiftRows_length (subBytes (bytesOf (d ^^^ rk)))
  have h0 := shiftRows_subBytes_getD (d := d) (rk := rk) (r := 0) hc (by decide)
  rw [Nat.zero_add] at h0
  rw [aesRound, byteOf_fromBytes (mixColumns_length (n := 4) hlen).le,
    mixColumns_getD (by omega) hr, h0, shiftRows_subBytes_getD hc (by decide),
    shiftRows_subBytes_getD hc (by decide), shiftRows_subBytes_getD hc (by decide)]

/-- Settles O14, one row of the column at a time. -/
theorem aesRoundByteByByte : Obligations.AesRoundByteByByte := by
  intro d rk c hc
  have h0 := byteOf_aesRound (d := d) (rk := rk) (r := 0) hc (by decide)
  rw [Nat.zero_add] at h0
  exact ⟨h0, byteOf_aesRound hc (by decide), byteOf_aesRound hc (by decide),
    byteOf_aesRound hc (by decide)⟩

end Sys2Proof.Machine
end

section
/-! PROOFS. The Counter, and the source's loop against the keystream (O15, O17, O18; 41_keystream.md R135,
R136, R138, R143, R144, 90_conflicts.md C12). -/

namespace Sys2Proof.Machine

/-! ## The Counter (R135) -/

@[simp] theorem counter_zero (c : Config.Params) (ctr0 : U128) : counter c ctr0 0 = ctr0 := by
  rw [counter, BitVec.zero_mul, BitVec.add_zero]

theorem counter_succ (c : Config.Params) (ctr0 : U128) (n : Nat) :
    counter c ctr0 (n + 1) = counter c ctr0 n + c.step := by
  rw [counter, counter, BitVec.ofNat_add, BitVec.add_mul, BitVec.add_assoc]
  congr 2
  exact BitVec.one_mul c.step

theorem odd_toNat_of_getLsbD_zero {x : U128} (h : x.getLsbD 0 = true) : Odd x.toNat := by
  rw [BitVec.getLsbD, Nat.testBit_zero, decide_eq_true_eq] at h
  exact Nat.odd_iff.mpr h

/-- An odd STEP is invertible modulo 2^128 (90_conflicts.md C12). -/
theorem ofNat_mul_odd_injective {x : U128} (hodd : x.getLsbD 0 = true) {n m : Nat} (hn : n < 2 ^ 128)
    (hm : m < 2 ^ 128) (h : BitVec.ofNat 128 n * x = BitVec.ofNat 128 m * x) : n = m := by
  have hcop : Nat.gcd (2 ^ 128) x.toNat = 1 :=
    Nat.Coprime.pow_left _ (Nat.coprime_two_left.mpr (odd_toNat_of_getLsbD_zero hodd))
  have hmod : n * x.toNat ≡ m * x.toNat [MOD 2 ^ 128] := by
    simpa [Nat.ModEq, Nat.mod_eq_of_lt hn, Nat.mod_eq_of_lt hm] using congrArg BitVec.toNat h
  exact (Nat.ModEq.cancel_right_of_coprime hcop hmod).eq_of_lt_of_lt hn hm

/-- Settles O15: two equal Counters differ from CTR0 by equal multiples of STEP. -/
theorem counterNeverRepeats : Obligations.CounterNeverRepeats := by
  intro c ctr0 n m hodd hn hm h
  exact ofNat_mul_odd_injective hodd hn hm ((BitVec.add_right_inj _).mp h)

/-! ## The round keys of the loop (R143) -/

/-- The working round keys that stand `n` advances after the start of an invocation (R143). -/
def roundKeysAt (c : Config.Params) (key ctr0 : U128) (n : Nat) : RoundKeys :=
  { rka := key + counter c ctr0 n, rkb := key + c.delta + counter c ctr0 n }

theorem pipeStart_eq (c : Config.Params) (key ctr0 : U128) :
    pipeStart c key ctr0 = roundKeysAt c key ctr0 0 := by
  rw [roundKeysAt, counter_zero, pipeStart]

/-- One advance of both round keys is one advance of the Counter. -/
theorem pipeAdvance_roundKeysAt (c : Config.Params) (key ctr0 : U128) (n : Nat) :
    pipeAdvance c (roundKeysAt c key ctr0 n) = roundKeysAt c key ctr0 (n + 1) := by
  rw [roundKeysAt, roundKeysAt, pipeAdvance, counter_succ, BitVec.add_assoc, BitVec.add_assoc]

/-- Rounds of the loop evaluate the blocks of the next Counter values, stream A before stream B, and each
round advances the round keys twice (R136, R143). -/
theorem pipeRounds_roundKeysAt (c : Config.Params) (key ctr0 : U128) (j n : Nat) :
    pipeRounds c j (roundKeysAt c key ctr0 n)
      = ((List.range (4 * j)).map fun t => block c key ctr0 (n + t / 2) (t % 2 == 1),
          roundKeysAt c key ctr0 (n + 2 * j)) := by
  induction j generalizing n with
  | zero => rfl
  | succ j ih =>
    have htail : (List.range (4 * j)).map (fun t => block c key ctr0 (n + 1 + 1 + t / 2) (t % 2 == 1))
        = ((List.range (4 * j)).map (4 + ·)).map fun t => block c key ctr0 (n + t / 2) (t % 2 == 1) := by
      refine .trans (List.map_congr_left fun t _ => ?_) List.map_map.symm
      rw [Function.comp_apply, show n + (4 + t) / 2 = n + 1 + 1 + t / 2 by omega,
        show (4 + t) % 2 = t % 2 by omega]
    rw [pipeRounds, pipeAdvance_roundKeysAt, pipeAdvance_roundKeysAt, ih, htail,
      show 4 * (j + 1) = 4 + 4 * j by omega, List.range_add, List.map_append,
      show n + 2 * (j + 1) = n + 1 + 1 + 2 * j by omega]
    rfl

/-! ## The loop -/

/-- The outer iteration that starts at Unit `u` yields that Unit, from its 16 blocks, and leaves the round
keys at the next (R138, R143). -/
theorem pipeUnit_roundKeysAt (c : Config.Params) (key ctr0 : U128) (T : U16) (u : Nat) :
    pipeUnit c T (roundKeysAt c key ctr0 (8 * u))
      = (unitBytes c key ctr0 u T, roundKeysAt c key ctr0 (8 * (u + 1))) := by
  rw [pipeUnit, pipeRounds_roundKeysAt]
  rfl

/-- The loop from Unit `u` on yields Units `u`, `u + 1`, … (R141, R143). -/
theorem pipeInvocation_roundKeysAt (c : Config.Params) (key ctr0 : U128) (T : U16) (n u : Nat) :
    pipeInvocation c T n (roundKeysAt c key ctr0 (8 * u))
      = (List.range n).flatMap fun i => unitBytes c key ctr0 (u + i) T := by
  induction n generalizing u with
  | zero => rfl
  | succ n ih =>
    rw [pipeInvocation, pipeUnit_roundKeysAt, ih, List.range_succ_eq_map, List.flatMap_cons,
      List.flatMap_map]
    simp only [Nat.add_zero, Nat.succ_eq_add_one, Nat.add_assoc, Nat.add_comm 1]

/-- Settles O17: the loop that starts at Unit 0 yields the Units in order. -/
theorem pipelineComputesTheKeystream : Obligations.PipelineComputesTheKeystream := by
  intro c key ctr0 T n
  have h := pipeInvocation_roundKeysAt c key ctr0 T n 0
  simp only [Nat.zero_add] at h
  rw [pipeStart_eq, keystreamBytes]
  exact h

/-- After `n` Units the round keys have advanced `8 n` times (R144). -/
theorem iterate_pipeUnit_roundKeysAt (c : Config.Params) (key ctr0 : U128) (T : U16) (n : Nat) :
    (fun k => (pipeUnit c T k).2)^[n] (roundKeysAt c key ctr0 0) = roundKeysAt c key ctr0 (8 * n) := by
  induction n with
  | zero => rfl
  | succ n ih => rw [Function.iterate_succ_apply', ih, pipeUnit_roundKeysAt]

/-- Settles O18: four rounds are 16 blocks, and each Unit advances the round keys eight times. -/
theorem pipelineAdvancesEightPerUnit : Obligations.PipelineAdvancesEightPerUnit := by
  intro c key ctr0 T n
  rw [pipeStart_eq, pipeRounds_roundKeysAt, iterate_pipeUnit_roundKeysAt]
  exact ⟨by rw [List.length_map, List.length_range], rfl⟩

end Sys2Proof.Machine
end

section
/-! PROOFS. Where each decision sits in the keystream (O16; 41_keystream.md R138 to R142). -/

namespace Sys2Proof.Machine

/-! ## Units in the keystream (R141) -/

theorem keystreamBytes_succ (c : Config.Params) (key ctr0 : U128) (T : U16) (n : Nat) :
    keystreamBytes c key ctr0 T (n + 1) = keystreamBytes c key ctr0 T n ++ unitBytes c key ctr0 n T := by
  simp only [keystreamBytes, List.range_succ, List.flatMap_append, List.flatMap_singleton]

/-- Byte `16 u + m` of the keystream is byte `m` of Unit `u` (R141). -/
theorem keystreamBytes_getElem? {c : Config.Params} {key ctr0 : U128} {T : U16} {n u m : Nat} (hu : u < n)
    (hm : m < 16) :
    (keystreamBytes c key ctr0 T n)[16 * u + m]? = (unitBytes c key ctr0 u T)[m]? := by
  induction n with
  | zero => omega
  | succ n ih =>
    rw [keystreamBytes_succ]
    by_cases h : u < n
    · rw [List.getElem?_append_left (by rw [keystreamBytes_length]; omega), ih h]
    · obtain rfl : u = n := by omega
      rw [List.getElem?_append_right (by rw [keystreamBytes_length]; omega), keystreamBytes_length,
        Nat.add_sub_cancel_left]

/-! ## Bytes of a Unit (R140) -/

/-- Each accumulator is two bytes, its high byte first (R140). -/
theorem packAccumulators_getElem? {accs : List U16} {l : Nat} {a : U16} (h : accs[l]? = some a) :
    (packAccumulators accs)[2 * l]? = some (a.extractLsb' 8 8) ∧
    (packAccumulators accs)[2 * l + 1]? = some (a.extractLsb' 0 8) := by
  induction accs generalizing l with
  | nil => simp at h
  | cons b accs ih =>
    cases l with
    | zero =>
      cases h
      exact ⟨rfl, rfl⟩
    | succ l => exact ih h

/-- Byte `q` of lane `l` in a Unit: bits `15 - 8q` to `8 - 8q` of that lane's accumulator (R140). -/
theorem unitBytes_getElem? {c : Config.Params} {key ctr0 : U128} {u l q : Nat} {T : U16} (hl : l < 8)
    (hq : q < 2) :
    (unitBytes c key ctr0 u T)[2 * l + q]?
      = some ((accumulator (unitBlocks c key ctr0 u) T l).extractLsb' (8 - 8 * q) 8) := by
  have hacc : ((List.range Config.lanes).map (accumulator (unitBlocks c key ctr0 u) T))[l]?
      = some (accumulator (unitBlocks c key ctr0 u) T l) := by
    rw [List.getElem?_map, List.getElem?_range (n := Config.lanes) hl, Option.map_some]
  obtain ⟨hhigh, hlow⟩ := packAccumulators_getElem? hacc
  obtain rfl | rfl : q = 0 ∨ q = 1 := by omega
  · exact hhigh
  · exact hlow

/-! ## Bits of an accumulator (R139) -/

/-- The assignment `ACC[l][15 - k] <- d` sets bit `15 - k` and no other (R139). -/
theorem getLsbD_setAccBit {acc : U16} {k j : Nat} {d : Bool} (hk : k < 16) (hj : j < 16) :
    (setAccBit acc k d).getLsbD (15 - j) = (acc.getLsbD (15 - j) || (d && decide (j = k))) := by
  cases d with
  | false => simp [setAccBit]
  | true =>
    have hone : ((1 : U16) <<< (15 - k)).getLsbD (15 - j) = decide (j = k) := by
      change (BitVec.twoPow 16 (15 - k)).getLsbD (15 - j) = decide (j = k)
      rw [BitVec.getLsbD_twoPow, ← Bool.decide_and]
      exact decide_eq_decide.mpr (by omega)
    rw [setAccBit, if_pos rfl, BitVec.getLsbD_or, hone, Bool.true_and]

/-- The loop from sub-iteration `k` on leaves the bits before `k` alone (R139). -/
theorem getLsbD_accumulate_before {t : U16} {l j k : Nat} {xs : List U128} {acc : U16} (hj : j < k)
    (hk : k + xs.length ≤ 16) :
    (accumulate t l xs k acc).getLsbD (15 - j) = acc.getLsbD (15 - j) := by
  induction xs generalizing k acc with
  | nil => rfl
  | cons x xs ih =>
    rw [List.length_cons] at hk
    rw [accumulate, ih (by omega) (by omega), getLsbD_setAccBit (by omega) (by omega),
      decide_eq_false (by omega), Bool.and_false, Bool.or_false]

/-- The loop puts the decision of its `i`-th block in bit `15 - (k + i)` (R139). -/
theorem getLsbD_accumulate {t : U16} {l k i : Nat} {xs : List U128} {acc : U16} {x : U128}
    (hx : xs[i]? = some x) (hk : k + xs.length ≤ 16) (hacc : acc.getLsbD (15 - (k + i)) = false) :
    (accumulate t l xs k acc).getLsbD (15 - (k + i)) = decideLane (lane x l) t := by
  induction xs generalizing k i acc with
  | nil => simp at hx
  | cons y xs ih =>
    have hi : i < (y :: xs).length := (List.getElem?_eq_some_iff.mp hx).1
    rw [List.length_cons] at hk hi
    rw [accumulate]
    cases i with
    | zero =>
      cases hx
      rw [getLsbD_accumulate_before (by omega) (by omega), getLsbD_setAccBit (by omega) (by omega), hacc]
      simp
    | succ i =>
      rw [show k + (i + 1) = k + 1 + i by omega] at hacc ⊢
      refine ih hx (by omega) ?_
      rw [getLsbD_setAccBit (by omega) (by omega), hacc, decide_eq_false (by omega), Bool.and_false,
        Bool.or_false]

/-- Bit `15 - t` of the accumulator of lane `l` is the decision `(u, t, l)` (R138, R139). -/
theorem getLsbD_accumulator {c : Config.Params} {key ctr0 : U128} {T : U16} {u t l : Nat} (ht : t < 16) :
    (accumulator (unitBlocks c key ctr0 u) T l).getLsbD (15 - t)
      = decideLane (lane (subBlock c key ctr0 u t) l) T := by
  have hx : (unitBlocks c key ctr0 u)[t]? = some (subBlock c key ctr0 u t) := by
    rw [unitBlocks, List.getElem?_map, List.getElem?_range (n := Config.subIter) ht, Option.map_some]
  have hlen : (unitBlocks c key ctr0 u).length = 16 := by
    rw [unitBlocks, List.length_map, List.length_range, Config.subIter]
  have h := getLsbD_accumulate (t := T) (l := l) (k := 0) (acc := 0) hx (by omega) BitVec.getLsbD_zero
  rwa [Nat.zero_add] at h

/-! ## The bit address (R142) -/

/-- The place of the decision `(u, t, l)` in the keystream (R142). -/
theorem getLsbD_keystreamBytes {c : Config.Params} {key ctr0 : U128} {T : U16} {n u t l : Nat}
    (hu : u < n) (ht : t < 16) (hl : l < 8) :
    ((keystreamBytes c key ctr0 T n).getD (16 * u + 2 * l + t / 8) 0).getLsbD (7 - t % 8)
      = decideLane (lane (subBlock c key ctr0 u t) l) T := by
  have hq : t / 8 < 2 := by omega
  rw [List.getD_eq_getElem?_getD, Nat.add_assoc, keystreamBytes_getElem? hu (by omega),
    unitBytes_getElem? hl hq, Option.getD_some, BitVec.getLsbD_extractLsb', ← getLsbD_accumulator ht,
    show 8 - 8 * (t / 8) + (7 - t % 8) = 15 - t by omega, decide_eq_true (by omega), Bool.true_and]

/-- Settles O16: the decision in a given bit is found by turning its place around. -/
theorem bitAddressOfADecision : Obligations.BitAddressOfADecision := by
  intro c key ctr0 T n u hu
  refine ⟨fun t l ht hl => getLsbD_keystreamBytes hu ht hl, fun k m hk hm => ?_⟩
  have h := getLsbD_keystreamBytes (c := c) (key := key) (ctr0 := ctr0) (T := T)
    (t := 8 * (m % 2) + k) (l := m / 2) hu (by omega) (by omega)
  rw [show 16 * u + 2 * (m / 2) + (8 * (m % 2) + k) / 8 = 16 * u + m by omega,
    show (8 * (m % 2) + k) % 8 = k by omega] at h
  exact h

end Sys2Proof.Machine
end

section
/-! PROOFS. The KEYSTREAM command's acceptance, and the Unit step (O19, O27; 41_keystream.md R145, R146). -/

namespace Sys2Proof.Machine

/-! ## The CMD write (R146) -/

theorem exec_keystream {s : State} (hb : blocked s = false) :
    exec .keystream s = .next (acceptKeystream s) := by
  rw [exec, execKeystream, unlessBlocked, hb, if_neg Bool.false_ne_true]

theorem exec_keystream_accepted {s : State} (hb : blocked s = false) (hw : wraps s.regs = false)
    (hr : badUnitRange s.regs = false) :
    exec .keystream s
      = .next { accept (takeSnapshot .keystream s) s with queue := keystreamQueue s.regs } := by
  rw [exec_keystream hb, acceptKeystream, hw, hr, if_neg Bool.false_ne_true, if_neg Bool.false_ne_true]

/-- Settles O19: neither of R212's checks for KEYSTREAM fails. -/
theorem keystreamIsAccepted : Obligations.KeystreamIsAccepted := by
  intro s hbusy hfault hspace hle hsize
  have hw : wraps s.regs = false := decide_eq_false (by omega)
  have hr : badUnitRange s.regs = false := decide_eq_false (by omega)
  exact exec_keystream_accepted (blocked_eq_false hbusy hfault) hw hr

/-! ## The Unit step (R145) -/

/-- An engine with a Unit left may write it, while no fault is pending (R145). -/
theorem unit_mem_agentMoves {s : State} {sn : Snapshot} {sh : Shard} {e u : Nat} (hs : s.snap = some sn)
    (hp : s.pending = none) (he : s.engines[e]? = some (.running sh u)) (hu : sh.start + u < sh.limit) :
    Move.unit e ∈ agentMoves s := by
  obtain ⟨hlt, -⟩ := List.getElem?_eq_some_iff.mp he
  have hunit : Move.unit e ∈ unitMoves s := by
    refine List.mem_map_of_mem (List.mem_filter.mpr ⟨List.mem_range.mpr hlt, ?_⟩)
    rw [List.getD_eq_getElem?_getD, he, Option.getD_some]
    exact decide_eq_true hu
  simp only [agentMoves, hs, hp]
  exact List.mem_append_left _ (List.mem_append_left _ (List.mem_append_right _ hunit))

/-- A transaction's bytes stand at its address afterwards. -/
theorem memRead_memWriteBytes_inside {bs : List Byte} {m : Memory} {a j : Nat} (hj : j < bs.length) :
    memRead (memWriteBytes m a bs) (a + j) = bs[j]? := by
  rw [memRead_memWriteBytes, if_pos (by omega), Nat.add_sub_cancel_left]

/-- A transaction leaves every byte outside it. -/
theorem memRead_memWriteBytes_outside {bs : List Byte} {m : Memory} {a x : Nat}
    (hx : x < a ∨ a + bs.length ≤ x) : memRead (memWriteBytes m a bs) x = memRead m x := by
  rw [memRead_memWriteBytes, if_neg (by omega)]

/-- Settles O27: the step is enabled, and what it stores is one transaction. -/
theorem unitStepWritesOneUnit : Obligations.UnitStepWritesOneUnit := by
  intro s e sn sh u hs hp he hu ha
  refine ⟨unit_mem_agentMoves hs hp he hu, _, congrArg _ (unitStep_admitted hs he ha), ?_, ?_⟩
  · exact fun j hj => memRead_memWriteBytes_inside (by rwa [unitBytes_length])
  · exact fun x hx => memRead_memWriteBytes_outside (by rwa [unitBytes_length])

end Sys2Proof.Machine
end

section
/-! PROOFS. What a running command has left to write (42_shard.md R173 to R178, 41_keystream.md R145,
43_generate.md R193). At every point of a run whose host keeps its duty, a byte of the target range holds the
command's value, or a queued shard, an engine or the fill agent still has it to write. -/

namespace Sys2Proof.Machine

/-! ## What is left to write -/

/-- The address `x` is in a Unit that the engine has left to write (R145). -/
def EngineOwes (sn : Snapshot) (x : Nat) : Engine → Prop
  | .idle         => False
  | .running sh u => unitAddr sn sh u ≤ x ∧ x < sn.out.toNat + 16 * sh.limit

/-- The address `x` is left to write: in a queued shard, by an engine, or by the fill agent. -/
inductive Owed (s : State) (sn : Snapshot) (x : Nat) : Prop
  | queue (sh : Shard) (h : sh ∈ s.queue) (ho : EngineOwes sn x (.running sh 0))
  | engine (en : Engine) (h : en ∈ s.engines) (ho : EngineOwes sn x en)
  | fill (f : FillAgent) (h : s.fill = some f) (ho : sn.out.toNat + 16 * f.k ≤ x)

/-- Host memory has the command's byte at `x`, or it is left to write. -/
def Settled (s : State) (sn : Snapshot) (x : Nat) : Prop :=
  memRead s.mem x = commandByte s.cfg sn x ∨ Owed s sn x

/-- What holds along the run of a command whose host keeps its duty. While a fault is pending the command
cannot complete any more (R213), and bytes may stay unwritten. -/
structure Progress (s : State) (sn : Snapshot) : Prop where
  inv : MachineInv s
  snap : s.snap = some sn
  unraced : s.raced = []
  settled : s.pending = none → ∀ x, inTarget sn x = true → Settled s sn x

/-- The state at the end of a command: if it completed, its target range holds the command's bytes. -/
def EndsWritten (sn : Snapshot) (t : State) : Prop :=
  t.status.busy = false ∧
    (t.status.done = true → ∀ x, inTarget sn x = true → memRead t.mem x = commandByte t.cfg sn x)

/-- Work that is carried over to `t` is still owed there. -/
theorem Settled.of_keeps {s t : State} {sn : Snapshot} {x : Nat} (h : Settled s sn x)
    (hmem : memRead t.mem x = memRead s.mem x) (hk : KeepsRun s t) : Settled t sn x := by
  rcases h with hw | ⟨sh, h, ho⟩ | ⟨en, h, ho⟩ | ⟨f, h, ho⟩
  · exact .inl (by rw [hmem, hk.cfg, hw])
  · exact .inr (.queue sh (hk.queue ▸ h) ho)
  · exact .inr (.engine en (hk.engines ▸ h) ho)
  · exact .inr (.fill f (hk.fill ▸ h) ho)

/-! ## The host's steps (70_reset_and_hazards.md R244) -/

theorem regWrite_memory (r : Reg) (d : U32) (s : State) :
    (regWrite r d s).mem = s.mem ∧ (regWrite r d s).raced = s.raced := by
  cases r
  case status =>
    simp only [regWrite, writeStatus]
    split <;> exact ⟨rfl, rfl⟩
  all_goals exact ⟨rfl, rfl⟩

/-- While BUSY = 1 no write to the window reaches host memory (R29, log 8). -/
theorem writeOffset_memory {s t : State} {off : Nat} {w : U32} (hb : s.status.busy = true)
    (h : writeOffset off w s = .next t) : t.mem = s.mem ∧ t.raced = s.raced := by
  have hbl : blocked s = true := by rw [blocked, hb, Bool.true_or]
  unfold writeOffset at h
  split at h
  · rw [commandWrite_blocked w hbl] at h
    cases h
    exact ⟨rfl, rfl⟩
  · cases h
    exact regWrite_memory _ _ _
  · cases h
    exact ⟨rfl, rfl⟩

/-- An event that keeps the host's duty leaves the target range alone, and notes no race (R244). -/
theorem hostEvent_keepsOff {s t : State} {sn : Snapshot} {ev : HostEvent} (hs : s.snap = some sn)
    (hb : s.status.busy = true) (hoff : KeepsOff s.cfg sn ev) (h : hostEvent ev s = .next t) :
    t.raced = s.raced ∧ ∀ x, inTarget sn x = true → memRead t.mem x = memRead s.mem x := by
  have same : t.mem = s.mem ∧ t.raced = s.raced →
      t.raced = s.raced ∧ ∀ x, inTarget sn x = true → memRead t.mem x = memRead s.mem x :=
    fun ⟨hmem, hraced⟩ => ⟨hraced, fun x _ => by rw [hmem]⟩
  cases ev with
  | read addr n =>
    simp only [hostEvent, hostRead] at h
    split at h
    · cases h
      exact same ⟨rfl, rfl⟩
    · split at h
      · cases h
        exact same ⟨rfl, rfl⟩
      · split at h
        · cases h
        · cases h
          obtain ⟨cs, d, hread⟩ := hostReadBytes_state addr.toNat n s
          refine same ?_
          rw [hread]
          exact ⟨rfl, rfl⟩
  | write addr bytes =>
    simp only [hostEvent, hostWrite] at h
    split at h
    · exact same (writeOffset_memory (s := answer .written s) hb h)
    · split at h
      · cases h
        exact same ⟨rfl, rfl⟩
      · rename_i hwin
        split at h
        · cases h
        · cases h
          have hbytes := hoff.resolve_left hwin
          refine ⟨?_, fun x hx => memRead_memWriteBytes_outside ?_⟩
          · simp only [answer_raced, hostWriteBytes, hs]
            exact raceWrite_off sn hbytes
          · by_contra hin
            have := hbytes (x - addr.toNat) (by omega)
            rw [show addr.toNat + (x - addr.toNat) = x by omega, hx] at this
            cases this
  | wait =>
    cases h
    refine same ?_
    simp only [hostWait, hb, if_true]
    exact ⟨rfl, rfl⟩
  | reset => exact hoff.elim

/-- Progress survives a step that keeps the run and the target range. -/
theorem Progress.of_keeps {s t : State} {sn : Snapshot} (hp : Progress s sn) (hi : MachineInv t)
    (hk : KeepsRun s t) (hr : t.raced = s.raced)
    (hmem : ∀ x, inTarget sn x = true → memRead t.mem x = memRead s.mem x) : Progress t sn where
  inv := hi
  snap := hk.snap.trans hp.snap
  unraced := hr.trans hp.unraced
  settled := fun h x hx => (hp.settled (hk.pending ▸ h) x hx).of_keeps (hmem x hx) hk

theorem Progress.of_same {s t : State} {sn : Snapshot} (hp : Progress s sn) (h : SameButChoices s t) :
    Progress t sn := by
  have hi := (h.invStep hp.inv).inv
  have hk := h.keepsRun
  obtain ⟨cs, d, rfl⟩ := h
  exact hp.of_keeps hi hk rfl fun _ _ => rfl

theorem Progress.busy {s : State} {sn : Snapshot} (hp : Progress s sn) : s.status.busy = true :=
  (hp.inv.running sn hp.snap).flags.1

/-- A step of the host that keeps its duty makes no progress undone. -/
theorem hostStep_progress {s t : State} {sn : Snapshot} (hp : Progress s sn)
    (hduty : ∀ ev, s.bus.head? = some ev → KeepsOff s.cfg sn ev) (h : hostStep s = .next t) :
    Progress t sn := by
  have hi := (hostStep_invStep hp.inv h).inv
  unfold hostStep at h
  split at h
  · rename_i ev rest hbus
    have hoff : KeepsOff s.cfg sn ev := hduty ev (by rw [hbus]; rfl)
    have hreset : ev ≠ .reset := by
      rintro rfl
      exact hoff
    obtain ⟨hraced, hmem⟩ := hostEvent_keepsOff (s := { s with bus := rest }) hp.snap hp.busy hoff h
    obtain ⟨hk, -⟩ := hostEvent_keepsRun (s := { s with bus := rest }) hp.busy hreset h
    exact hp.of_keeps hi ⟨hk.snap, hk.queue, hk.engines, hk.fill, hk.pending, hk.busy, hk.cfg⟩ hraced hmem
  · cases h
    exact hp

/-! ## The steps of KSG's agents -/

/-- Where an engine is replaced, every other engine stays. -/
theorem mem_set_or_eq {es : List Engine} {e : Nat} {old new en : Engine} (hold : es[e]? = some old)
    (h : en ∈ es) : en = old ∨ en ∈ es.set e new := by
  obtain ⟨i, hi⟩ := List.mem_iff_getElem?.mp h
  by_cases hie : e = i
  · subst hie
    exact .inl (Option.some.inj (hi.symm.trans hold))
  · exact .inr (List.mem_of_getElem? ((List.getElem?_set_ne hie).trans hi))

/-- Where a shard is taken out of the queue, every other shard stays. -/
theorem mem_eraseIdx_or_eq {q : List Shard} {j : Nat} {old sh : Shard} (hold : q[j]? = some old)
    (h : sh ∈ q) : sh = old ∨ sh ∈ q.eraseIdx j := by
  obtain ⟨i, hi⟩ := List.mem_iff_getElem?.mp h
  by_cases hij : i = j
  · subst hij
    exact .inl (Option.some.inj (hi.symm.trans hold))
  · exact .inr (List.mem_eraseIdx_iff_getElem?.mpr ⟨i, hij, hi⟩)

/-- A dispatched shard is owed by its engine instead of by the queue (R173). -/
theorem dispatchStep_settled {s : State} {sn : Snapshot} {e j x : Nat} (he : s.engines[e]? = some .idle)
    (hj : j < s.queue.length) (h : Settled s sn x) : Settled (dispatchStep e j s) sn x := by
  have hq := List.getElem?_eq_getElem hj
  obtain ⟨hlt, -⟩ := List.getElem?_eq_some_iff.mp he
  rw [dispatchStep_eq hq]
  rcases h with hw | ⟨sh, h, ho⟩ | ⟨en, h, ho⟩ | ⟨f, h, ho⟩
  · exact .inl hw
  · rcases mem_eraseIdx_or_eq hq h with rfl | h
    · exact .inr (.engine _ (List.mem_set hlt _) ho)
    · exact .inr (.queue sh h ho)
  · rcases mem_set_or_eq he h with rfl | h
    · exact ho.elim
    · exact .inr (.engine en h ho)
  · exact .inr (.fill f h ho)

/-- An admitted Unit step writes the command's bytes of its Unit (R145, R178). -/
theorem memRead_unit {c : Config.Params} {sn : Snapshot} {sh : Shard} {u x : Nat} {m : Memory}
    (hf : ShardFits c sn sh) (hu : sh.start + u < sh.limit) (hlo : unitAddr sn sh u ≤ x)
    (hhi : x < unitAddr sn sh u + 16) :
    memRead (memWriteBytes m (unitAddr sn sh u) (unitBytes c sn.key sh.ctr0 u sn.t)) x
      = commandByte c sn x := by
  obtain ⟨j, rfl⟩ := Nat.exists_eq_add_of_le hlo
  have hj : j < (unitBytes c sn.key sh.ctr0 u sn.t).length := by rw [unitBytes_length]; omega
  have hbyte := hf.bytes (sh.start + u) j (by omega) hu (by omega)
  rw [memRead_memWriteBytes_inside hj, unitAddr, hbyte, Nat.add_sub_cancel_left,
    List.getD_eq_getElem _ _ hj, List.getElem?_eq_getElem hj]

/-- What an engine owed beyond the Unit it has just written, it still owes (R145). -/
theorem afterUnit_owes {sn : Snapshot} {sh : Shard} {u x : Nat}
    (ho : EngineOwes sn x (.running sh u)) (hx : unitAddr sn sh u + 16 ≤ x) :
    EngineOwes sn x (afterUnit sh u) := by
  obtain ⟨-, hhi⟩ := ho
  unfold unitAddr at hx
  unfold afterUnit
  split
  · omega
  · exact ⟨by unfold unitAddr; omega, hhi⟩

/-- R145, for an admitted transaction. -/
theorem unitStep_settled {s : State} {sn : Snapshot} {sh : Shard} {e u x : Nat}
    (hs : s.snap = some sn) (he : s.engines[e]? = some (.running sh u)) (hf : ShardFits s.cfg sn sh)
    (hu : sh.start + u < sh.limit) (ha : admits s.cfg (unitAddr sn sh u) 16 = true)
    (h : Settled s sn x) : Settled (unitStep e s) sn x := by
  have heq := unitStep_admitted hs he ha
  have hmem : (unitStep e s).mem
      = memWriteBytes s.mem (unitAddr sn sh u) (unitBytes s.cfg sn.key sh.ctr0 u sn.t) := by rw [heq]
  have hcfg : (unitStep e s).cfg = s.cfg := by rw [heq]
  by_cases hx : unitAddr sn sh u ≤ x ∧ x < unitAddr sn sh u + 16
  · exact .inl (by rw [hmem, hcfg, memRead_unit hf hu hx.1 hx.2])
  rcases h with hw | ⟨sh', h, ho⟩ | ⟨en, h, ho⟩ | ⟨f, h, ho⟩
  · refine .inl ?_
    rw [hmem, hcfg, memRead_memWriteBytes_outside (by rw [unitBytes_length]; omega), hw]
  · exact .inr (.queue sh' (by rw [heq]; exact h) ho)
  · have hlen : e < s.engines.length := (List.getElem?_eq_some_iff.mp he).1
    have hengines : (unitStep e s).engines = s.engines.set e (afterUnit sh u) := by rw [heq]
    rcases mem_set_or_eq he h with rfl | h
    · have hlo : unitAddr sn sh u ≤ x := ho.1
      exact .inr (.engine _ (hengines ▸ List.mem_set hlen _) (afterUnit_owes ho (by omega)))
    · exact .inr (.engine en (hengines ▸ h) ho)
  · exact .inr (.fill f (by rw [heq]; exact h) ho)

/-- R193, for an admitted transaction. -/
theorem chunkStep_settled {s : State} {sn : Snapshot} {f : FillAgent} {x : Nat}
    (hr : Running s sn) (hs : s.snap = some sn) (hf : s.fill = some f)
    (ha : admits s.cfg (sn.out.toNat + 16 * f.k) (chunkLength sn.size.toNat f.k) = true)
    (hx : inTarget sn x = true) (h : Settled s sn x) : Settled (chunkStep s) sn x := by
  obtain ⟨hop, -, hbyte⟩ := hr.fill f hf
  have hend : x < sn.out.toNat + sn.size.toNat := by
    simpa only [targetRange, hop] using (inTarget_iff.mp hx).2
  rw [chunkStep_admitted hs hf ha]
  by_cases hin : sn.out.toNat + 16 * f.k ≤ x ∧ x < sn.out.toNat + 16 * f.k + chunkLength sn.size.toNat f.k
  · refine .inl ?_
    rw [memRead_memWriteBytes, List.length_replicate, if_pos hin, hbyte x hx,
      List.getElem?_replicate_of_lt (by omega)]
  rcases h with hw | ⟨sh, h, ho⟩ | ⟨en, h, ho⟩ | ⟨g, h, ho⟩
  · exact .inl ((memRead_memWriteBytes_outside (by rw [List.length_replicate]; omega)).trans hw)
  · exact .inr (.queue sh h ho)
  · exact .inr (.engine en h ho)
  · cases hf.symm.trans h
    unfold chunkLength at hin
    exact .inr (.fill _ rfl (by simp only; omega))

/-- A refused transaction leaves a fault pending (R213). -/
theorem recordRefused_pending (a : Nat) (s : State) : (recordRefused a s).pending ≠ none := by
  unfold recordRefused
  split
  · exact Option.some_ne_none _
  · rename_i hp
    simp [hp]

/-- Where nothing is left to do, every byte of the target range is written (R176). -/
theorem not_owed_of_workDone {s : State} {sn : Snapshot} {x : Nat} (hr : Running s sn)
    (hw : workDone sn s = true) (hx : inTarget sn x = true) : ¬ Owed s sn x := by
  simp only [workDone, Bool.and_eq_true, List.isEmpty_iff, List.all_eq_true, Bool.not_eq_true'] at hw
  obtain ⟨⟨⟨-, hqueue⟩, hidle⟩, hchunk⟩ := hw
  rintro (⟨sh, h, -⟩ | ⟨en, h, ho⟩ | ⟨f, h, ho⟩)
  · simp [hqueue] at h
  · have := hidle en h
    cases en with
    | idle => exact ho
    | running sh u => cases this
  · obtain ⟨hop, -, -⟩ := hr.fill f h
    have hend : x < sn.out.toNat + sn.size.toNat := by
      simpa only [targetRange, hop] using (inTarget_iff.mp hx).2
    simp only [fillHasChunk, h] at hchunk
    have hk := of_decide_eq_false hchunk
    unfold chunkCount at hk
    omega

/-- A step of a command's work that settles no less than before makes progress. -/
theorem Progress.of_work {s t : State} {sn : Snapshot} (hp : Progress s sn) (hpend : s.pending = none)
    (hi : MachineInv t) (hs : t.snap = s.snap) (hr : t.raced = s.raced)
    (h : t.pending = none → ∀ x, inTarget sn x = true → Settled s sn x → Settled t sn x) :
    Progress t sn where
  inv := hi
  snap := hs.trans hp.snap
  unraced := hr.trans hp.unraced
  settled := fun ht x hx => h ht x hx (hp.settled hpend x hx)

/-- After a refused transaction nothing is left to settle, since the command cannot complete (R213). -/
theorem Progress.of_refused {s t : State} {sn : Snapshot} {a : Nat} (hp : Progress s sn)
    (hpend : s.pending = none) (hi : MachineInv (recordRefused a t)) (hs : t.snap = s.snap)
    (hr : t.raced = s.raced) : Progress (recordRefused a t) sn := by
  obtain ⟨p, h⟩ := recordRefused_state a t
  refine hp.of_work hpend hi ?_ ?_ fun hnone => absurd hnone (recordRefused_pending a t)
  · rw [h]
    exact hs
  · rw [h]
    exact hr

theorem dispatchStep_progress {s : State} {sn : Snapshot} {e j : Nat} (hp : Progress s sn)
    (hpend : s.pending = none) (he : s.engines[e]? = some .idle) (hj : j < s.queue.length) :
    Progress (dispatchStep e j s) sn := by
  have heq := dispatchStep_eq (e := e) (List.getElem?_eq_getElem hj)
  exact hp.of_work hpend (dispatchStep_invStep hp.inv hp.snap hj).inv (by rw [heq]) (by rw [heq])
    fun _ _ _ => dispatchStep_settled he hj

theorem unitStep_progress {s : State} {sn : Snapshot} {sh : Shard} {e u : Nat} (hp : Progress s sn)
    (hpend : s.pending = none) (he : s.engines[e]? = some (.running sh u))
    (hu : sh.start + u < sh.limit) : Progress (unitStep e s) sn := by
  have hi := (unitStep_invStep hp.inv hp.snap he hu).inv
  obtain ⟨hfit, -⟩ : EngineFits s.cfg sn (.running sh u) :=
    (hp.inv.running sn hp.snap).engines _ (List.mem_of_getElem? he)
  cases ha : admits s.cfg (unitAddr sn sh u) 16 with
  | true =>
    have heq := unitStep_admitted hp.snap he ha
    exact hp.of_work hpend hi (by rw [heq]) (by rw [heq])
      fun _ _ _ => unitStep_settled hp.snap he hfit hu ha
  | false =>
    rw [unitStep_refused hp.snap he ha] at hi ⊢
    exact hp.of_refused hpend hi rfl rfl

theorem chunkStep_progress {s : State} {sn : Snapshot} {f : FillAgent} (hp : Progress s sn)
    (hpend : s.pending = none) (hf : s.fill = some f) (hk : f.k < chunkCount sn.size.toNat) :
    Progress (chunkStep s) sn := by
  have hi := (chunkStep_invStep hp.inv hp.snap hf hk).inv
  cases ha : admits s.cfg (sn.out.toNat + 16 * f.k) (chunkLength sn.size.toNat f.k) with
  | true =>
    have heq := chunkStep_admitted hp.snap hf ha
    exact hp.of_work hpend hi (by rw [heq]) (by rw [heq])
      fun _ _ hx => chunkStep_settled (hp.inv.running sn hp.snap) hp.snap hf ha hx
  | false =>
    rw [chunkStep_refused hp.snap hf ha] at hi ⊢
    exact hp.of_refused hpend hi rfl rfl

/-- A command that completes with no race to settle has written its target range (R176). -/
theorem completeStep_endsWritten {s : State} {sn : Snapshot} (hp : Progress s sn)
    (hpend : s.pending = none) (hw : workDone sn s = true) : EndsWritten sn (completeStep s) := by
  rw [completeStep, endRaces_of_none hp.unraced]
  exact ⟨rfl, fun _ x hx => (hp.settled hpend x hx).resolve_right
    (not_owed_of_workDone (hp.inv.running sn hp.snap) hw hx)⟩

/-- Fault entry leaves DONE = 0 (R214). -/
theorem takeFaultStep_endsWritten {s : State} {sn : Snapshot} {p : PendingFault} (hs : s.snap = some sn)
    (hpend : s.pending = some p) : EndsWritten sn (takeFaultStep s) := by
  rw [takeFaultStep_eq hs hpend]
  exact ⟨rfl, nofun⟩

/-- An enabled step of KSG's agents makes progress, or ends the command. -/
theorem agentMove_progress {s t : State} {sn : Snapshot} {m : Move} (hp : Progress s sn)
    (hm : m ∈ agentMoves s) (h : runMove m s = .next t) : Progress t sn ∨ EndsWritten sn t := by
  obtain ⟨sn', hs, hcase⟩ := mem_agentMoves hm
  cases hp.snap.symm.trans hs
  rcases hcase with ⟨rfl, hpend⟩ |
    ⟨hpend, ⟨e, j, rfl, he, hj⟩ | ⟨e, sh, u, rfl, he, hu⟩ | ⟨rfl, f, hf, hk⟩ | ⟨rfl, hw⟩⟩
  · obtain ⟨p, hpend⟩ := Option.isSome_iff_exists.mp hpend
    cases h
    exact .inr (takeFaultStep_endsWritten hs hpend)
  · cases h
    exact .inl (dispatchStep_progress hp hpend he hj)
  · cases h
    exact .inl (unitStep_progress hp hpend he hu)
  · cases h
    exact .inl (chunkStep_progress hp hpend hf hk)
  · cases h
    exact .inr (completeStep_endsWritten hp hpend hw)

end Sys2Proof.Machine
end

section
/-! PROOFS. The run of a command: one that completes has written every byte of its target range (O51;
42_shard.md R178, 41_keystream.md R146). -/

namespace Sys2Proof.Machine

/-! ## The run -/

theorem mem_moves {s : State} {m : Move} (h : m ∈ moves s) : m = .host ∨ m ∈ agentMoves s := by
  refine (List.mem_append.mp h).imp_left fun h => ?_
  unfold hostMoves at h
  split at h
  · cases h
  · exact List.mem_singleton.mp h

/-- Any step of the run makes progress, or ends the command. -/
theorem step_progress {s t : State} {sn : Snapshot} (hp : Progress s sn)
    (hduty : ∀ s' ev, nextMove s = some (.host, s') → s.bus.head? = some ev → KeepsOff s.cfg sn ev)
    (h : step s = .next t) : Progress t sn ∨ EndsWritten sn t := by
  cases hn : nextMove s with
  | none =>
    simp only [step, takeStep, hn] at h
    cases h
    exact .inl hp
  | some p =>
    obtain ⟨m, s'⟩ := p
    obtain ⟨hm, hsame⟩ := nextMove_some hn
    rw [step_nextMove hn] at h
    have hp' := hp.of_same hsame
    rcases mem_moves hm with rfl | hm
    · have hduty' := fun ev => hduty s' ev hn
      obtain ⟨cs, d, rfl⟩ := hsame
      exact .inl (hostStep_progress hp' hduty' h)
    · rw [← agentMoves_of_same hsame] at hm
      exact agentMove_progress hp' hm h

/-- A run from a state of progress is in one, or at the end of its command. -/
theorem runWhileBusy_progress {n : Nat} {s t : State} {sn : Snapshot} (hp : Progress s sn)
    (hduty : KeepsDuty sn n s) (h : runWhileBusy n s = some t) :
    t.cfg = s.cfg ∧ (Progress t sn ∨ EndsWritten sn t) := by
  induction n generalizing s with
  | zero =>
    cases h
    exact ⟨rfl, .inl hp⟩
  | succ n ih =>
    obtain ⟨hnow, hlater⟩ := hduty
    rw [runWhileBusy, hp.busy, if_pos rfl] at h
    split at h
    · rename_i s' hstep
      have hcfg := (step_invStep hp.inv hstep).cfg
      rcases step_progress hp hnow hstep with hp' | hend
      · obtain ⟨hcfg', hcase⟩ := ih hp' (hlater s' hstep) h
        exact ⟨hcfg'.trans hcfg, hcase⟩
      · cases n with
        | zero =>
          cases h
          exact ⟨hcfg, .inr hend⟩
        | succ n =>
          rw [runWhileBusy, hend.1] at h
          cases h
    · cases h
    · cases h

/-! ## Acceptance -/

/-- A KEYSTREAM's shard owes its whole target range (R146). -/
theorem keystreamQueue_owes {s : State} {x : Nat} (hx : inTarget (takeSnapshot .keystream s) x = true) :
    ∃ sh ∈ keystreamQueue s.regs, EngineOwes (takeSnapshot .keystream s) x (.running sh 0) := by
  obtain ⟨hlo, hhi⟩ := inTarget_iff.mp hx
  simp only [targetRange, takeSnapshot] at hlo hhi
  have hlt : (startOf s.regs).toNat < (limitOf s.regs).toNat := by omega
  rw [keystreamQueue, if_pos hlt]
  exact ⟨_, List.mem_singleton.mpr rfl, hlo, hhi⟩

/-- The shards of a keystream-path GENERATE owe its whole target range (R171, R195). -/
theorem generateQueue_owes {c : Config.Params} {sn : Snapshot} {x : Nat} (ho : sn.op = .generate)
    (hsize : sn.size.toNat % 16 = 0) (hx : inTarget sn x = true) :
    ∃ sh ∈ generateQueue c sn.mode (sn.size.toNat / 16) sn.shardUnits.toNat,
      EngineOwes sn x (.running sh 0) := by
  obtain ⟨hlo, hhi⟩ := inTarget_iff.mp hx
  simp only [targetRange, ho] at hlo hhi
  have hg : (x - sn.out.toNat) / 16 < sn.size.toNat / 16 := by omega
  obtain ⟨a, b, hab, hag, hgb⟩ := shardRanges_cover (S := sn.shardUnits.toNat) hg
  refine ⟨_, List.mem_map_of_mem hab, ?_, ?_⟩
  · simp only [unitAddr]
    omega
  · simp only
    omega

/-- The fill agent of a degenerate GENERATE owes its whole target range (R193). -/
theorem acceptFill_owed {s : State} {byte : Byte} {x : Nat}
    (hx : inTarget (takeSnapshot .generate s) x = true) :
    Owed (acceptFill byte s) (takeSnapshot .generate s) x :=
  .fill { byte := byte, k := 0 } rfl (inTarget_iff.mp hx).1

/-- Right after acceptance the whole target range is left to write (R93). -/
theorem exec_owed {i : Instr} {s t : State} {sn : Snapshot} {x : Nat} (hb : blocked s = false)
    (h : exec i s = .next t) (hs : t.snap = some sn) (hx : inTarget sn x = true) : Owed t sn x := by
  rcases exec_cases hb h with ⟨code, rfl⟩ | ⟨-, -, rfl⟩ | ⟨-, -, -, rfl⟩ |
    ⟨-, -, ⟨-, rfl⟩ | ⟨-, rfl⟩ | ⟨-, hsize, rfl⟩⟩
  · cases hs
  · cases hs
    obtain ⟨hlo, hhi⟩ := inTarget_iff.mp hx
    exact absurd hlo (Nat.not_le.mpr hhi)
  · cases hs
    obtain ⟨sh, hsh, ho⟩ := keystreamQueue_owes hx
    exact .queue sh hsh ho
  · cases hs
    exact acceptFill_owed hx
  · cases hs
    exact acceptFill_owed hx
  · cases hs
    obtain ⟨sh, hsh, ho⟩ := generateQueue_owes rfl hsize hx
    exact .queue sh hsh ho

theorem exec_unraced {i : Instr} {s t : State} (hb : blocked s = false) (h : exec i s = .next t) :
    t.raced = [] := by
  rcases exec_cases hb h with ⟨code, rfl⟩ | ⟨-, -, rfl⟩ | ⟨-, -, -, rfl⟩ |
    ⟨-, -, ⟨-, rfl⟩ | ⟨-, rfl⟩ | ⟨-, -, rfl⟩⟩ <;> rfl

theorem exec_progress {i : Instr} {s t : State} {sn : Snapshot} (hi : MachineInv s)
    (hb : blocked s = false) (h : exec i s = .next t) (hs : t.snap = some sn) : Progress t sn where
  inv := (exec_invStep hi h).inv
  snap := hs
  unraced := exec_unraced hb h
  settled := fun _ _ hx => .inr (exec_owed hb h hs hx)

/-- R178, for every command and every schedule: a command that completes has put the command's byte at
every address of its target range. -/
theorem CommandEnds.target_written {i : Instr} {s t : State} {sn : Snapshot} {x : Nat}
    (h : CommandEnds i s sn t) (hdone : t.status.done = true) (hx : inTarget sn x = true) :
    memRead t.mem x = commandByte s.cfg sn x := by
  obtain ⟨⟨hi, hb, s1, n, hexec, hs, hduty, hrun⟩, hbusy⟩ := h
  obtain ⟨hcfg, hp | hend⟩ := runWhileBusy_progress (exec_progress hi hb hexec hs) hduty hrun
  · cases hbusy.symm.trans hp.busy
  · rw [hend.2 hdone x hx, hcfg, (exec_invStep hi hexec).cfg]

/-! ## KEYSTREAM (R146) -/

/-- The snapshot of a KEYSTREAM's run holds its operands and THRESH as they were at the CMD write. -/
theorem CommandReaches.keystream_snapshot {s t : State} {sn : Snapshot}
    (h : CommandReaches .keystream s sn t) : sn = takeSnapshot .keystream s := by
  obtain ⟨-, hb, s1, n, hexec, hs, -, -⟩ := h
  rcases exec_cases hb hexec with ⟨code, rfl⟩ | ⟨hi, -⟩ | ⟨-, -, -, rfl⟩ | ⟨hi, -⟩
  · cases hs
  · cases hi
  · exact (Option.some.inj hs).symm
  · cases hi

/-- Settles O51: the target range is written, and byte `j` of Unit `start + u` is that of Unit `u`. -/
theorem keystreamBufferIsFixed : Obligations.KeystreamBufferIsFixed := by
  intro s t sn hends hdone u j hu hj
  have hsn := hends.1.keystream_snapshot
  subst hsn
  have hbyte := commandByte_keystream (c := s.cfg) (sn := takeSnapshot .keystream s) rfl
    (Nat.le_add_right (startOf s.regs).toNat u) hu hj
  have hlen : j < (unitBytes s.cfg (keyOf s.regs) (ctr0Of s.regs) u s.thresh).length := by
    rwa [unitBytes_length]
  calc memRead t.mem ((outOf s.regs).toNat + 16 * ((startOf s.regs).toNat + u) + j)
    _ = commandByte s.cfg (takeSnapshot .keystream s)
          ((outOf s.regs).toNat + 16 * ((startOf s.regs).toNat + u) + j) :=
      hends.target_written hdone (inTarget_of_commandByte hbyte)
    _ = some ((unitBytes s.cfg (keyOf s.regs) (ctr0Of s.regs)
          ((startOf s.regs).toNat + u - (startOf s.regs).toNat) s.thresh).getD j 0) := hbyte
    _ = (unitBytes s.cfg (keyOf s.regs) (ctr0Of s.regs) u s.thresh)[j]? := by
      rw [Nat.add_sub_cancel_left, List.getD_eq_getElem _ _ hlen, List.getElem?_eq_getElem hlen]

end Sys2Proof.Machine
end

section
/-! PROOFS. The shard plan: its formula, the partition of the Units, and a shard's initial Counter (O24, O25;
42_shard.md R171, R172). -/

namespace Sys2Proof.Machine

/-! ## The formula (R171) -/

theorem shardRanges_zero (S : Nat) : shardRanges 0 S = [] := if_pos rfl

theorem shardRanges_single {U S : Nat} (hU : 0 < U) (h : S = 0 ∨ U ≤ S) : shardRanges U S = [(0, U)] := by
  rw [shardRanges, if_neg (by omega), if_pos h]

/-- Shard `k` of a plan in shards of `S` Units. -/
def shardRange (U S k : Nat) : Nat × Nat := (k * S, min ((k + 1) * S) U)

theorem shardRanges_many {U S : Nat} (hS : 0 < S) (h : S < U) :
    shardRanges U S = (List.range ((U + S - 1) / S)).map (shardRange U S) := by
  rw [shardRanges, if_neg (by omega), if_neg (by omega)]
  rfl

/-! ## The partition -/

/-- The Units of a range, in order. -/
def unitsOf (r : Nat × Nat) : List Nat := List.range' r.1 (r.2 - r.1)

/-- The first `n` shards list the Units below `n * S`. -/
theorem flatMap_unitsOf_shardRange (U S n : Nat) :
    (List.range n).flatMap (fun k => unitsOf (shardRange U S k)) = List.range (min (n * S) U) := by
  induction n with
  | zero => simp
  | succ n ih =>
    rw [List.range_succ, List.flatMap_append, List.flatMap_singleton, ih, unitsOf, shardRange]
    have hstep : (n + 1) * S = n * S + S := Nat.add_one_mul n S
    rcases Nat.le_total (n * S) U with h | h
    · have hjoin := List.range'_append_1 (s := 0) (m := n * S) (n := min ((n + 1) * S) U - n * S)
      rw [Nat.zero_add, Nat.add_sub_of_le (by omega)] at hjoin
      rw [Nat.min_eq_left h, List.range_eq_range', List.range_eq_range', hjoin]
    · rw [Nat.min_eq_right h, Nat.min_eq_right (by omega), Nat.sub_eq_zero_of_le h, List.range'_zero,
        List.append_nil]

/-- There are shards enough to reach U. -/
theorem le_ceilDiv_mul {U S : Nat} (hS : 0 < S) : U ≤ (U + S - 1) / S * S := by
  have := Nat.lt_div_mul_add hS (a := U + S - 1)
  omega

/-- Every shard but the last is full. -/
theorem shardRange_full {U S k : Nat} (hS : 0 < S) (hk : k + 1 < (U + S - 1) / S) :
    (shardRange U S k).2 - (shardRange U S k).1 = S := by
  have hnext : (k + 2) * S ≤ U + S - 1 := (Nat.le_div_iff_mul_le hS).mp hk
  rw [Nat.add_mul] at hnext
  simp only [shardRange, Nat.add_mul]
  omega

theorem flatMap_unitsOf_shardRanges (U S : Nat) :
    (shardRanges U S).flatMap unitsOf = List.range U := by
  rcases Nat.eq_zero_or_pos U with rfl | hU
  · rw [shardRanges_zero]
    rfl
  by_cases h : S = 0 ∨ U ≤ S
  · rw [shardRanges_single hU h, List.flatMap_singleton, unitsOf, Nat.sub_zero, List.range_eq_range']
  · rw [shardRanges_many (by omega) (by omega), List.flatMap_map, flatMap_unitsOf_shardRange,
      Nat.min_eq_right (le_ceilDiv_mul (by omega))]

theorem shardRanges_dropLast_full {U S : Nat} :
    ∀ r ∈ (shardRanges U S).dropLast, r.2 - r.1 = S := by
  intro r hr
  rcases Nat.eq_zero_or_pos U with rfl | hU
  · rw [shardRanges_zero] at hr
    cases hr
  by_cases h : S = 0 ∨ U ≤ S
  · rw [shardRanges_single hU h] at hr
    cases hr
  · have hS : 0 < S := by omega
    rw [shardRanges_many hS (by omega), ← List.map_dropLast] at hr
    obtain ⟨k, hk, rfl⟩ := List.mem_map.mp hr
    refine shardRange_full hS ?_
    have : k < (U + S - 1) / S - 1 := by simpa [List.dropLast_eq_take, List.take_range] using hk
    omega

/-- Settles O24, by the three branches of the formula. -/
theorem shardsPartitionTheUnits : Obligations.ShardsPartitionTheUnits := by
  intro U S
  refine ⟨?_, shardRanges_single, fun hS h k hk => ?_, fun r hr => (shardRanges_mem hr).1,
    flatMap_unitsOf_shardRanges U S, shardRanges_dropLast_full⟩
  · rintro rfl
    exact shardRanges_zero S
  · rw [shardRanges_many hS h, List.getElem?_map, List.getElem?_range hk, Option.map_some, shardRange]

/-! ## The initial Counter (R172) -/

theorem shardCounter_restart (c : Config.Params) (a : Nat) : shardCounter c false a = 0 := rfl

theorem shardCounter_zero (c : Config.Params) (offset : Bool) : shardCounter c offset 0 = 0 := by
  cases offset with
  | false => rfl
  | true => exact BitVec.zero_mul

theorem shardCounter_offset (c : Config.Params) (a : Nat) :
    shardCounter c true a = counter c 0 (8 * a) := (BitVec.zero_add _).symm

/-- Settles O25: the product of two 128-bit words, as numbers. -/
theorem shardInitialCounter : Obligations.ShardInitialCounter := by
  refine fun c a => ⟨shardCounter_restart c a, ?_⟩
  rw [shardCounter, if_pos rfl, BitVec.toNat_mul, BitVec.toNat_ofNat, Nat.mod_mul_mod]

/-- In OFFSET mode a shard's Counter goes on from where the Units before it end (R172, R180). -/
theorem counter_shardCounter_offset (c : Config.Params) (a n : Nat) :
    counter c (shardCounter c true a) n = counter c 0 (8 * a + n) := by
  rw [shardCounter_offset, counter, counter, counter, BitVec.ofNat_add, BitVec.add_mul, BitVec.add_assoc]

/-- Unit `g - a` of a shard that starts at Unit `a` is Unit `g` from Counter 0, in OFFSET mode (R180). -/
theorem unitBytes_offset {c : Config.Params} {key : U128} {T : U16} {a g : Nat} (h : a ≤ g) :
    unitBytes c key (shardCounter c true a) (g - a) T = unitBytes c key 0 g T := by
  have hblocks : unitBlocks c key (shardCounter c true a) (g - a) = unitBlocks c key 0 g := by
    refine List.map_congr_left fun t _ => ?_
    simp only [subBlock, block, counter_shardCounter_offset]
    rw [show 8 * a + (8 * (g - a) + t / 2) = 8 * g + t / 2 by omega]
  rw [unitBytes, hblocks, unitBytes]

end Sys2Proof.Machine
end

section
/-! PROOFS. Which steps are enabled, what dispatch and completion do, and that a busy machine always has a
step to take (O26, O30, O35, O45; 42_shard.md R173 to R176, 70_reset_and_hazards.md R249). -/

namespace Sys2Proof.Machine

/-! ## Dispatch (R173) -/

/-- Any idle engine may take any queued shard, while no fault is pending (R173). -/
theorem dispatch_mem_agentMoves {s : State} {sn : Snapshot} {e j : Nat} (hs : s.snap = some sn)
    (hp : s.pending = none) (he : s.engines[e]? = some .idle) (hj : j < s.queue.length) :
    Move.dispatch e j ∈ agentMoves s := by
  obtain ⟨hlt, -⟩ := List.getElem?_eq_some_iff.mp he
  have hidle : e ∈ enginesWhere Engine.isIdle s := by
    refine List.mem_filter.mpr ⟨List.mem_range.mpr hlt, ?_⟩
    rw [List.getD_eq_getElem?_getD, he, Option.getD_some, Engine.isIdle]
  have hdispatch : Move.dispatch e j ∈ dispatchMoves s :=
    List.mem_flatMap.mpr ⟨e, hidle, List.mem_map_of_mem (List.mem_range.mpr hj)⟩
  simp only [agentMoves, hs, hp]
  exact List.mem_append_left _ (List.mem_append_left _ (List.mem_append_left _ hdispatch))

theorem dispatch_mem_agentMoves_iff {s : State} {e j : Nat} :
    Move.dispatch e j ∈ agentMoves s ↔
      s.snap.isSome ∧ s.pending = none ∧ s.engines[e]? = some .idle ∧ j < s.queue.length := by
  constructor
  · intro h
    obtain ⟨sn, hs, ⟨hm, -⟩ | ⟨hp, hm⟩⟩ := mem_agentMoves h
    · cases hm
    · rcases hm with ⟨e', j', hm, he, hj⟩ | ⟨_, _, _, hm, -⟩ | ⟨hm, -⟩ | ⟨hm, -⟩ <;> cases hm
      exact ⟨by rw [hs, Option.isSome_some], hp, he, hj⟩
  · rintro ⟨hs, hp, he, hj⟩
    obtain ⟨sn, hs⟩ := Option.isSome_iff_exists.mp hs
    exact dispatch_mem_agentMoves hs hp he hj

/-- Settles O26: dispatch is among the enabled steps exactly as R173 says, and takes its shard. -/
theorem dispatchStepRule : Obligations.DispatchStepRule :=
  ⟨fun _ _ _ => dispatch_mem_agentMoves_iff, fun _ _ _ _ h => congrArg Host.Outcome.next (dispatchStep_eq h)⟩

/-! ## The fill agent's chunk (R193) -/

theorem fillHasChunk_iff {sn : Snapshot} {s : State} :
    fillHasChunk sn s = true ↔ ∃ f, s.fill = some f ∧ f.k < chunkCount sn.size.toNat := by
  unfold fillHasChunk
  cases s.fill with
  | none => simp
  | some f => simp

theorem chunk_mem_agentMoves {s : State} {sn : Snapshot} (hs : s.snap = some sn) (hp : s.pending = none)
    (hf : fillHasChunk sn s = true) : Move.chunk ∈ agentMoves s := by
  have hchunk : Move.chunk ∈ chunkMoves sn s := by
    rw [chunkMoves, if_pos hf]
    exact List.mem_singleton_self _
  simp only [agentMoves, hs, hp]
  exact List.mem_append_left _ (List.mem_append_right _ hchunk)

/-! ## Completion (R176) -/

theorem isIdle_iff {en : Engine} : en.isIdle = true ↔ en = .idle := by
  cases en with
  | idle => simp [Engine.isIdle]
  | running sh u => simp [Engine.isIdle]

theorem workDone_iff {sn : Snapshot} {s : State} :
    workDone sn s = true ↔ s.status.busy = true ∧ s.queue = [] ∧ (∀ e ∈ s.engines, e = .idle) ∧
      ∀ f, s.fill = some f → chunkCount sn.size.toNat ≤ f.k := by
  have hchunk : fillHasChunk sn s = false ↔ ∀ f, s.fill = some f → chunkCount sn.size.toNat ≤ f.k := by
    rw [← Bool.not_eq_true, fillHasChunk_iff]
    simp only [not_exists, not_and, Nat.not_lt]
  simp only [workDone, Bool.and_eq_true, Bool.not_eq_true', List.isEmpty_iff, List.all_eq_true, isIdle_iff,
    hchunk, and_assoc]

theorem complete_mem_agentMoves {s : State} {sn : Snapshot} (hs : s.snap = some sn) (hp : s.pending = none)
    (hw : workDone sn s = true) : Move.complete ∈ agentMoves s := by
  have hcomplete : Move.complete ∈ completeMoves sn s := by
    rw [completeMoves, if_pos hw]
    exact List.mem_singleton_self _
  simp only [agentMoves, hs, hp]
  exact List.mem_append_right _ hcomplete

theorem complete_mem_agentMoves_iff {s : State} {sn : Snapshot} (hs : s.snap = some sn) :
    Move.complete ∈ agentMoves s ↔ s.pending = none ∧ workDone sn s = true := by
  constructor
  · intro h
    obtain ⟨sn', hs', ⟨hm, -⟩ | ⟨hp, hm⟩⟩ := mem_agentMoves h
    · cases hm
    · cases hs.symm.trans hs'
      rcases hm with ⟨_, _, hm, -⟩ | ⟨_, _, _, hm, -⟩ | ⟨hm, -⟩ | ⟨-, hw⟩
      · cases hm
      · cases hm
      · cases hm
      · exact ⟨hp, hw⟩
  · rintro ⟨hp, hw⟩
    exact complete_mem_agentMoves hs hp hw

/-- Settles O30: completion is enabled when nothing is left to do, and differs from R176's effect at most in
the races that it settles. -/
theorem completionStepRule : Obligations.CompletionStepRule := by
  refine ⟨fun s sn hs => ?_, fun s => ?_⟩
  · rw [complete_mem_agentMoves_iff hs, workDone_iff]
  · obtain ⟨m, cs, d, h⟩ := endRaces_state false s
    have hmem : s.raced = [] → m = s.mem := fun hr => by
      simpa using congrArg State.mem (h.symm.trans (endRaces_of_none hr))
    exact ⟨_, congrArg (fun u => Host.Outcome.next (completeCommand u)) h, rfl, rfl, rfl, rfl, rfl, rfl, rfl,
      rfl, rfl, rfl, hmem⟩

/-! ## The choice of the next step (R175) -/

/-- The settled choice of a step's place in the list takes that step (log 3). -/
theorem nextMove_settled {s : State} {m : Move} {k : Nat} (h : (moves s)[k]? = some m) :
    nextMove { s with choices := k :: s.choices } = some (m, s) := by
  obtain ⟨hk, -⟩ := List.getElem?_eq_some_iff.mp h
  have hm : moves { s with choices := k :: s.choices } = moves s := rfl
  simp only [nextMove, hm]
  cases hms : moves s with
  | nil => rw [hms] at hk; cases hk
  | cons m0 ms =>
    rw [hms] at h hk
    rw [List.length_cons] at hk
    simp only [choose_settled _ k s.choices { s with choices := k :: s.choices } rfl, Nat.mod_eq_of_lt hk,
      List.getD_eq_getElem?_getD, h, Option.getD_some]

/-- Settles O35: an enabled step has a place in the list that a settled choice can name; a step that was
taken is an enabled one. -/
theorem anyEnabledStepMayComeNext : Obligations.AnyEnabledStepMayComeNext := by
  refine ⟨fun s m hm => ?_, fun s t h => ?_⟩
  · obtain ⟨k, hk⟩ := List.mem_iff_getElem?.mp hm
    exact ⟨k, step_nextMove (nextMove_settled hk)⟩
  · rcases step_cases h with hnone | ⟨m, hm, s', ⟨cs, d, rfl⟩, hrun⟩
    · exact .inl hnone
    · exact .inr ⟨m, hm, cs, d, hrun⟩

/-! ## A busy machine is never stuck (R249) -/

theorem takeFault_mem_agentMoves {s : State} {sn : Snapshot} {p : PendingFault} (hs : s.snap = some sn)
    (hp : s.pending = some p) : Move.takeFault ∈ agentMoves s := by
  simp only [agentMoves, hs, hp]
  exact List.mem_singleton_self _

theorem MachineInv.snap_of_busy {s : State} (hi : MachineInv s) (hb : s.status.busy = true) :
    ∃ sn, s.snap = some sn := by
  cases hs : s.snap with
  | none => cases hb.symm.trans (hi.resting hs).busy
  | some sn => exact ⟨sn, rfl⟩

/-- An engine that is not idle has a Unit left to write (R44). -/
theorem Running.unit_mem_agentMoves {s : State} {sn : Snapshot} {en : Engine} (hr : Running s sn)
    (hs : s.snap = some sn) (hp : s.pending = none) (hen : en ∈ s.engines) (hne : en ≠ .idle) :
    ∃ e, Move.unit e ∈ agentMoves s := by
  cases en with
  | idle => exact absurd rfl hne
  | running sh u =>
    obtain ⟨e, he⟩ := List.mem_iff_getElem?.mp hen
    obtain ⟨-, hu⟩ : EngineFits s.cfg sn (.running sh u) := hr.engines _ hen
    exact ⟨e, Machine.unit_mem_agentMoves hs hp he hu⟩

/-- With no fault pending the command has a step: a Unit where an engine runs, else a dispatch where a shard
is queued, else a chunk where one is left, else completion. -/
theorem agentMove_of_busy {s : State} {sn : Snapshot} (hi : MachineInv s) (hb : s.status.busy = true)
    (hs : s.snap = some sn) (hp : s.pending = none) : ∃ m, m ∈ agentMoves s := by
  by_cases hidle : ∀ en ∈ s.engines, en = .idle
  · by_cases hq : s.queue = []
    · cases hc : fillHasChunk sn s with
      | true => exact ⟨_, chunk_mem_agentMoves hs hp hc⟩
      | false =>
        refine ⟨_, complete_mem_agentMoves hs hp (workDone_iff.mpr ⟨hb, hq, hidle, fun f hf => ?_⟩)⟩
        by_contra hk
        rw [fillHasChunk_iff.mpr ⟨f, hf, Nat.lt_of_not_le hk⟩] at hc
        cases hc
    · have hlen := List.length_pos_of_ne_nil hi.hasEngine
      have he : s.engines[0]? = some .idle := by
        rw [List.getElem?_eq_getElem hlen, hidle _ (List.getElem_mem hlen)]
      exact ⟨_, dispatch_mem_agentMoves hs hp he (List.length_pos_of_ne_nil hq)⟩
  · push Not at hidle
    obtain ⟨en, hen, hne⟩ := hidle
    obtain ⟨e, he⟩ := (hi.running sn hs).unit_mem_agentMoves hs hp hen hne
    exact ⟨_, he⟩

/-- Settles O45: fault entry is enabled while a fault is pending, and a step of the work otherwise. -/
theorem busyMachineIsNeverStuck : Obligations.BusyMachineIsNeverStuck := by
  intro s hi hb
  obtain ⟨sn, hs⟩ := hi.snap_of_busy hb
  cases hp : s.pending with
  | some p => exact List.ne_nil_of_mem (takeFault_mem_agentMoves hs hp)
  | none =>
    obtain ⟨m, hm⟩ := agentMove_of_busy hi hb hs hp
    exact List.ne_nil_of_mem hm

end Sys2Proof.Machine
end

section
/-! PROOFS. A command that completes has put in its target range the bytes its snapshot fixes, and changed no
other (O48, O55; 42_shard.md R178, 43_generate.md R193, R196 to R198, 41_keystream.md R146). -/

namespace Sys2Proof.Machine

/-! ## Every target byte is defined -/

/-- A byte that a fitting shard has left to write is one that the command gives (R178). -/
theorem ShardFits.commandByte_isSome {c : Config.Params} {sn : Snapshot} {sh : Shard} {u x : Nat}
    (hf : ShardFits c sn sh) (ho : EngineOwes sn x (.running sh u)) : (commandByte c sn x).isSome := by
  obtain ⟨hlo, hhi⟩ := ho
  unfold unitAddr at hlo
  have hbyte := hf.bytes ((x - sn.out.toNat) / 16) ((x - sn.out.toNat) % 16) (by omega) (by omega) (by omega)
  rw [show sn.out.toNat + 16 * ((x - sn.out.toNat) / 16) + (x - sn.out.toNat) % 16 = x by omega] at hbyte
  rw [hbyte, Option.isSome_some]

/-- A target byte that is left to write is one that the command gives. -/
theorem Owed.commandByte_isSome {s : State} {sn : Snapshot} {x : Nat} (ho : Owed s sn x)
    (hr : Running s sn) (hx : inTarget sn x = true) : (commandByte s.cfg sn x).isSome := by
  rcases ho with ⟨sh, h, ho⟩ | ⟨en, h, ho⟩ | ⟨f, h, -⟩
  · exact (hr.queue sh h).commandByte_isSome ho
  · cases en with
    | idle => exact ho.elim
    | running sh u =>
      obtain ⟨hfit, -⟩ : EngineFits s.cfg sn (.running sh u) := hr.engines _ h
      exact hfit.commandByte_isSome ho
  · obtain ⟨-, -, hbyte⟩ := hr.fill f h
    rw [hbyte x hx, Option.isSome_some]

/-- An accepted command gives a byte to every address of its target range: right after acceptance each one
is left to write. -/
theorem CommandReaches.commandByte_isSome {i : Instr} {s t : State} {sn : Snapshot} {x : Nat}
    (h : CommandReaches i s sn t) (hx : inTarget sn x = true) : (commandByte s.cfg sn x).isSome := by
  obtain ⟨hi, hb, s1, -, hexec, hs, -, -⟩ := h
  obtain ⟨inv, cfg, -⟩ := exec_invStep hi hexec
  rw [← cfg]
  exact (exec_owed hb hexec hs hx).commandByte_isSome (inv.running sn hs) hx

/-! ## Bytes outside the target range (R196) -/

/-- The byte at `x` reads as `v`, and no write of it is pending. -/
structure ByteIsLeft (x : Nat) (v : Option Byte) (s : State) : Prop where
  value : memRead s.mem x = v
  pending : HostLeavesByte s x

/-- While BUSY = 1 an event other than a reset changes host memory only as the host's own write of it. -/
theorem hostEvent_mem {s t : State} {ev : HostEvent} (hb : s.status.busy = true) (hreset : ev ≠ .reset)
    (h : hostEvent ev s = .next t) :
    t.mem = s.mem ∨ ∃ addr bytes, ev = .write addr bytes ∧ t.mem = memWriteBytes s.mem addr.toNat bytes := by
  cases ev with
  | read addr n =>
    simp only [hostEvent, hostRead] at h
    split at h
    · cases h
      exact .inl rfl
    · split at h
      · cases h
        exact .inl rfl
      · split at h
        · cases h
        · cases h
          obtain ⟨cs, d, hread⟩ := hostReadBytes_state addr.toNat n s
          rw [hread]
          exact .inl rfl
  | write addr bytes =>
    simp only [hostEvent, hostWrite] at h
    split at h
    · exact .inl (writeOffset_memory (s := answer .written s) hb h).1
    · split at h
      · cases h
        exact .inl rfl
      · split at h
        · cases h
        · cases h
          exact .inr ⟨addr, bytes, rfl, rfl⟩
  | wait =>
    cases h
    rw [hostWait, if_pos hb]
    exact .inl rfl
  | reset => exact absurd rfl hreset

theorem hostStep_leavesByte {s t : State} {sn : Snapshot} {x : Nat} {v : Option Byte}
    (hb : s.status.busy = true) (hduty : ∀ ev, s.bus.head? = some ev → KeepsOff s.cfg sn ev)
    (hl : ByteIsLeft x v s) (h : hostStep s = .next t) : ByteIsLeft x v t := by
  unfold hostStep at h
  split at h
  · rename_i ev rest hbus
    have hreset : ev ≠ .reset := by
      rintro rfl
      exact hduty .reset (by rw [hbus]; rfl)
    have hnow : ∀ addr bytes, ev = .write addr bytes → x < addr.toNat ∨ addr.toNat + bytes.length ≤ x := by
      rintro addr bytes rfl
      exact hl.pending addr bytes (hbus ▸ List.mem_cons_self)
    obtain ⟨-, hpend⟩ := hostEvent_keepsRun (s := { s with bus := rest }) hb hreset h
    refine ⟨?_, fun addr bytes hw => ?_⟩
    · rcases hostEvent_mem (s := { s with bus := rest }) hb hreset h with hmem | ⟨addr, bytes, hev, hmem⟩
      · rw [hmem, hl.value]
      · rw [hmem, memRead_memWriteBytes_outside (hnow addr bytes hev), hl.value]
    · rcases hpend _ hw with heq | hw
      · exact hnow addr bytes heq.symm
      · exact hl.pending addr bytes (hbus ▸ List.mem_cons_of_mem _ hw)
  · cases h
    exact hl

/-- An enabled step of KSG's agents writes nothing outside the target range. -/
theorem agentMove_leavesByte {s t : State} {sn : Snapshot} {m : Move} {x : Nat} {v : Option Byte}
    (hp : Progress s sn) (hm : m ∈ agentMoves s) (hx : inTarget sn x = false) (hl : ByteIsLeft x v s)
    (h : runMove m s = .next t) : ByteIsLeft x v t := by
  have hmem := agentsStayInTargetRange s t sn m hp.inv hp.snap hm h x hx
  obtain ⟨-, -, -, -, -, hbus, -⟩ := agentFrame s t m hm h
  exact ⟨hmem.trans hl.value, fun addr bytes hw => hl.pending addr bytes (hbus ▸ hw)⟩

/-! ## The run -/

/-- What the host does next, if the next step is its own, keeps its duty: `KeepsDuty` for one step. -/
def KeepsDutyNow (sn : Snapshot) (s : State) : Prop :=
  ∀ s' ev, nextMove s = some (.host, s') → s.bus.head? = some ev → KeepsOff s.cfg sn ev

/-- The inversion of a step of a run whose host keeps its duty: nothing happened, or, the choice settled, the
host took its step or one of KSG's agents an enabled one. -/
theorem step_cases_of_duty {s t : State} {sn : Snapshot} (hduty : KeepsDutyNow sn s)
    (h : step s = .next t) :
    t = s ∨ ∃ s', SameButChoices s s' ∧
      (((∀ ev, s'.bus.head? = some ev → KeepsOff s'.cfg sn ev) ∧ hostStep s' = .next t) ∨
        ∃ m ∈ agentMoves s', runMove m s' = .next t) := by
  cases hn : nextMove s with
  | none =>
    simp only [step, takeStep, hn] at h
    cases h
    exact .inl rfl
  | some p =>
    obtain ⟨m, s'⟩ := p
    obtain ⟨hm, hsame⟩ := nextMove_some hn
    rw [step_nextMove hn] at h
    refine .inr ⟨s', hsame, ?_⟩
    rcases mem_moves hm with rfl | hm
    · have hnow := fun ev => hduty s' ev hn
      obtain ⟨cs, d, rfl⟩ := hsame
      exact .inl ⟨hnow, h⟩
    · exact .inr ⟨m, agentMoves_of_same hsame ▸ hm, h⟩

/-- A step of the run leaves a byte outside the target range that the host has no write pending for. -/
theorem step_leavesByte {s t : State} {sn : Snapshot} {x : Nat} {v : Option Byte} (hp : Progress s sn)
    (hduty : KeepsDutyNow sn s) (hx : inTarget sn x = false) (hl : ByteIsLeft x v s)
    (h : step s = .next t) : ByteIsLeft x v t := by
  rcases step_cases_of_duty hduty h with rfl | ⟨s', hsame, hcase⟩
  · exact hl
  · have hp' := hp.of_same hsame
    obtain ⟨cs, d, rfl⟩ := hsame
    have hl' : ByteIsLeft x v { s with choices := cs, draws := d } := ⟨hl.value, hl.pending⟩
    rcases hcase with ⟨hnow, h⟩ | ⟨m, hm, h⟩
    · exact hostStep_leavesByte hp'.busy hnow hl' h
    · exact agentMove_leavesByte hp' hm hx hl' h

/-- What every step of a command's run keeps, the run keeps. -/
theorem runWhileBusy_keeps {P : State → Prop} {sn : Snapshot}
    (hP : ∀ s t, Progress s sn → KeepsDutyNow sn s → P s → step s = .next t → P t)
    {n : Nat} {s t : State} (hp : Progress s sn) (hduty : KeepsDuty sn n s) (hs : P s)
    (h : runWhileBusy n s = some t) : P t := by
  induction n generalizing s with
  | zero =>
    cases h
    exact hs
  | succ n ih =>
    obtain ⟨hnow, hlater⟩ := hduty
    rw [runWhileBusy, hp.busy, if_pos rfl] at h
    split at h
    · rename_i s' hstep
      have hs' := hP s s' hp hnow hs hstep
      rcases step_progress hp hnow hstep with hp' | hend
      · exact ih hp' (hlater s' hstep) hs' h
      · cases n with
        | zero =>
          cases h
          exact hs'
        | succ n =>
          rw [runWhileBusy, hend.1] at h
          cases h
    · cases h
    · cases h

/-- Acceptance changes neither host memory nor what the host has pending (R93). -/
theorem exec_mem_bus {i : Instr} {s t : State} (hb : blocked s = false) (h : exec i s = .next t) :
    t.mem = s.mem ∧ t.bus = s.bus := by
  rcases exec_cases hb h with ⟨code, rfl⟩ | ⟨-, -, rfl⟩ | ⟨-, -, -, rfl⟩ |
    ⟨-, -, ⟨-, rfl⟩ | ⟨-, rfl⟩ | ⟨-, -, rfl⟩⟩ <;> exact ⟨rfl, rfl⟩

/-- A command's run leaves every byte outside its target range that the host has no write pending for. -/
theorem CommandReaches.leavesByte {i : Instr} {s t : State} {sn : Snapshot} {x : Nat}
    (h : CommandReaches i s sn t) (hx : inTarget sn x = false) (hl : HostLeavesByte s x) :
    memRead t.mem x = memRead s.mem x := by
  obtain ⟨hi, hb, s1, n, hexec, hs, hduty, hrun⟩ := h
  obtain ⟨hmem, hbus⟩ := exec_mem_bus hb hexec
  have hstart : ByteIsLeft x (memRead s.mem x) s1 :=
    ⟨by rw [hmem], fun addr bytes hw => hl addr bytes (hbus ▸ hw)⟩
  have hend := runWhileBusy_keeps (fun _ _ hp hnow hleft => step_leavesByte hp hnow hx hleft)
    (exec_progress hi hb hexec hs) hduty hstart hrun
  exact hend.value

/-- Settles O48: the target range is written as `target_written` says, and the run leaves the rest. -/
theorem completedCommandWritesItsTarget : Obligations.CompletedCommandWritesItsTarget := by
  intro i s t sn hends hdone
  exact ⟨fun x hx => ⟨hends.1.commandByte_isSome hx, hends.target_written hdone hx⟩,
    fun x => hends.1.leavesByte⟩

/-! ## Determinism (R198) -/

/-- Of the parameters a command's bytes depend on DELTA, STEP and EPS only (R178). -/
theorem commandByte_congr {c c' : Config.Params} (hdelta : c.delta = c'.delta) (hstep : c.step = c'.step)
    (heps : c.eps = c'.eps) (sn : Snapshot) (x : Nat) : commandByte c sn x = commandByte c' sn x := by
  obtain ⟨delta, step, eps, regBase, refuse⟩ := c
  cases hdelta
  cases hstep
  cases heps
  rfl

/-- Settles O55: both runs leave the command's bytes, which are the same. -/
theorem equalSnapshotsGiveEqualBytes : Obligations.EqualSnapshotsGiveEqualBytes := by
  intro i s t s' t' sn hends hends' hdone hdone' hdelta hstep heps x hx
  rw [hends.target_written hdone hx, hends'.target_written hdone' hx, commandByte_congr hdelta hstep heps]

end Sys2Proof.Machine
end

section
/-! PROOFS. The buffer of a completed keystream-path GENERATE, by shards, in either mode and with one shard
(O49, O52, O53, O54; 42_shard.md R178 to R181, 43_generate.md R195). -/

namespace Sys2Proof.Machine

/-! ## The run's snapshot (R195) -/

/-- The snapshot of a keystream-path GENERATE holds the Threshold that was computed (40_threshold.md R111). -/
def generateSnapshot (s : State) : Snapshot :=
  { takeSnapshot .generate s with t := computeThreshold s.regs.prob }

/-- The run of a GENERATE of class NORMAL has that snapshot, and its buffer is whole Units (R195). -/
theorem CommandReaches.generate_snapshot {s t : State} {sn : Snapshot}
    (h : CommandReaches .generate s sn t) (hc : classify s.cfg.eps s.regs.prob = .normal) :
    sn = generateSnapshot s ∧ (outSizeOf s.regs).toNat % 16 = 0 := by
  obtain ⟨-, hb, s1, n, hexec, hs, -, -⟩ := h
  rcases exec_cases hb hexec with ⟨code, rfl⟩ | ⟨hi, -⟩ | ⟨hi, -⟩ |
    ⟨-, -, ⟨hlow, -⟩ | ⟨hhigh, -⟩ | ⟨-, hsize, rfl⟩⟩
  · cases hs
  · cases hi
  · cases hi
  · cases hc.symm.trans hlow
  · cases hc.symm.trans hhigh
  · exact ⟨(Option.some.inj hs).symm, hsize⟩

/-! ## By shards (R178) -/

theorem generateUnit_length (c : Config.Params) (sn : Snapshot) (g : Nat) :
    (generateUnit c sn g).length = 16 := unitBytes_length ..

/-- Unit `g` of the shard `r` is Unit `g - r.1` from that shard's Counter (R178). -/
theorem generateUnit_of_shard {c : Config.Params} {sn : Snapshot} {r : Nat × Nat} {g : Nat}
    (hr : r ∈ shardRanges (sn.size.toNat / 16) sn.shardUnits.toNat) (hlo : r.1 ≤ g) (hhi : g < r.2) :
    generateUnit c sn g = unitBytes c sn.key (shardCounter c sn.mode r.1) (g - r.1) sn.t := by
  obtain ⟨-, -, hstart⟩ := shardRanges_mem hr
  rw [generateUnit, hstart g hlo hhi]

/-- Settles O49: the target range is written, and the Unit is that of its shard. -/
theorem generateBufferIsFixed : Obligations.GenerateBufferIsFixed := by
  intro s t sn hends hdone hc r hr g j hlo hhi hj
  obtain ⟨rfl, -⟩ := hends.1.generate_snapshot hc
  obtain ⟨-, hend, -⟩ := shardRanges_mem hr
  have hbyte := commandByte_generate (c := s.cfg) (sn := generateSnapshot s) rfl hc
    (Nat.lt_of_lt_of_le hhi hend) hj
  have hlen : j < (generateUnit s.cfg (generateSnapshot s) g).length := by rwa [generateUnit_length]
  calc memRead t.mem ((outOf s.regs).toNat + 16 * g + j)
    _ = commandByte s.cfg (generateSnapshot s) ((outOf s.regs).toNat + 16 * g + j) :=
      hends.target_written hdone (inTarget_of_commandByte hbyte)
    _ = some ((generateUnit s.cfg (generateSnapshot s) g).getD j 0) := hbyte
    _ = (generateUnit s.cfg (generateSnapshot s) g)[j]? := by
      rw [List.getD_eq_getElem _ _ hlen, List.getElem?_eq_getElem hlen]
    _ = (unitBytes s.cfg (keyOf s.regs) (shardCounter s.cfg s.regs.ctrMode r.1) (g - r.1)
          (computeThreshold s.regs.prob))[j]? :=
      congrArg (·[j]?) (generateUnit_of_shard (sn := generateSnapshot s) hr hlo hhi)

/-- Memory that holds Units 0 to `n - 1` from `base` on holds the keystream there (R141). -/
theorem memRead_eq_keystreamBytes {c : Config.Params} {key ctr0 : U128} {T : U16} {m : Memory}
    {base n i : Nat}
    (h : ∀ u j, u < n → j < 16 → memRead m (base + 16 * u + j) = (unitBytes c key ctr0 u T)[j]?)
    (hi : i < 16 * n) : memRead m (base + i) = (keystreamBytes c key ctr0 T n)[i]? := by
  have hu : i / 16 < n := by omega
  have hj : i % 16 < 16 := by omega
  have hsplit : 16 * (i / 16) + i % 16 = i := Nat.div_add_mod i 16
  have hunit := h (i / 16) (i % 16) hu hj
  rw [← keystreamBytes_getElem? hu hj, Nat.add_assoc, hsplit] at hunit
  exact hunit

/-! ## RESTART mode (R179) -/

/-- With shards of one Unit, every Unit starts its own. -/
theorem shardStart_one {U g : Nat} (hg : g < U) : shardStart U 1 g = g := by
  unfold shardStart
  split <;> omega

section Restart

variable {s t : State} {sn : Snapshot} (hends : CommandEnds .generate s sn t)
  (hdone : t.status.done = true) (hc : classify s.cfg.eps s.regs.prob = .normal)
  (hmode : s.regs.ctrMode = false)

include hends hdone hc hmode

/-- In RESTART mode every shard holds the keystream from Counter 0. -/
theorem restart_shard {r : Nat × Nat}
    (hr : r ∈ shardRanges ((outSizeOf s.regs).toNat / 16) (shardUnitsOf s.regs).toNat) {i : Nat}
    (hi : i < 16 * (r.2 - r.1)) :
    memRead t.mem ((outOf s.regs).toNat + 16 * r.1 + i)
      = (keystreamBytes s.cfg (keyOf s.regs) 0 (computeThreshold s.regs.prob) (r.2 - r.1))[i]? := by
  refine memRead_eq_keystreamBytes (fun u j hu hj => ?_) hi
  have hunit := generateBufferIsFixed s t sn hends hdone hc r hr (r.1 + u) j (by omega) (by omega) hj
  rw [hmode, shardCounter_restart, Nat.add_sub_cancel_left, Nat.mul_add, ← Nat.add_assoc] at hunit
  exact hunit

/-- In RESTART mode with shards of one Unit, every Unit is Unit 0 from Counter 0. -/
theorem restart_unit_of_shardUnits_one (hS : (shardUnitsOf s.regs).toNat = 1) {g j : Nat}
    (hg : g < (outSizeOf s.regs).toNat / 16) (hj : j < 16) :
    memRead t.mem ((outOf s.regs).toNat + 16 * g + j)
      = (unitBytes s.cfg (keyOf s.regs) 0 0 (computeThreshold s.regs.prob))[j]? := by
  obtain ⟨a, b, hr, hlo, hhi⟩ := shardRanges_cover (S := (shardUnitsOf s.regs).toNat) hg
  have hunit := generateBufferIsFixed s t sn hends hdone hc (a, b) hr g j hlo hhi hj
  obtain ⟨-, -, hstart⟩ := shardRanges_mem hr
  have ha : g = a := by rw [← hstart g hlo hhi, hS, shardStart_one hg]
  rw [hmode, shardCounter_restart, ← ha, Nat.sub_self] at hunit
  exact hunit

end Restart

/-- Settles O52: a shard's bytes depend on its length alone. -/
theorem restartRepeatsTheKeystream : Obligations.RestartRepeatsTheKeystream := by
  intro s t sn hends hdone hc hmode
  refine ⟨fun r hr i => restart_shard hends hdone hc hmode hr, fun r hr r' hr' hlen i hi => ?_,
    fun hS g j hg hj => ?_⟩
  · rw [restart_shard hends hdone hc hmode hr hi, restart_shard hends hdone hc hmode hr' (hlen ▸ hi), hlen]
  · have hfirst := restart_unit_of_shardUnits_one hends hdone hc hmode hS (g := 0) (by omega) hj
    rw [Nat.mul_zero, Nat.add_zero] at hfirst
    rw [restart_unit_of_shardUnits_one hends hdone hc hmode hS hg hj, hfirst]

/-! ## OFFSET mode (R180) -/

/-- In OFFSET mode Unit `g` is Unit `g` from Counter 0, whatever shard it is in. -/
theorem offset_unit {s t : State} {sn : Snapshot} (hends : CommandEnds .generate s sn t)
    (hdone : t.status.done = true) (hc : classify s.cfg.eps s.regs.prob = .normal)
    (hmode : s.regs.ctrMode = true) {g j : Nat} (hg : g < (outSizeOf s.regs).toNat / 16) (hj : j < 16) :
    memRead t.mem ((outOf s.regs).toNat + 16 * g + j)
      = (unitBytes s.cfg (keyOf s.regs) 0 g (computeThreshold s.regs.prob))[j]? := by
  obtain ⟨a, b, hr, hlo, hhi⟩ := shardRanges_cover (S := (shardUnitsOf s.regs).toNat) hg
  have hunit := generateBufferIsFixed s t sn hends hdone hc (a, b) hr g j hlo hhi hj
  rw [hmode, unitBytes_offset hlo] at hunit
  exact hunit

/-- Settles O53: the Units of the buffer are those of one keystream, and N is whole Units. -/
theorem offsetModeIsShardInvariant : Obligations.OffsetModeIsShardInvariant := by
  intro s t sn hends hdone hc hmode
  obtain ⟨-, hsize⟩ := hends.1.generate_snapshot hc
  exact ⟨fun g j => offset_unit hends hdone hc hmode,
    fun i hi => memRead_eq_keystreamBytes (fun u j => offset_unit hends hdone hc hmode) (by omega)⟩

/-! ## One shard (R181) -/

/-- Settles O54: the one shard starts at Unit 0, whose Counter is 0 in both modes. -/
theorem singleShardAgreesInBothModes : Obligations.SingleShardAgreesInBothModes := by
  intro s t sn hends hdone hc hS i hi
  obtain ⟨-, hsize⟩ := hends.1.generate_snapshot hc
  refine memRead_eq_keystreamBytes (fun u j hu hj => ?_) (by omega)
  have hr : (0, (outSizeOf s.regs).toNat / 16)
      ∈ shardRanges ((outSizeOf s.regs).toNat / 16) (shardUnitsOf s.regs).toNat := by
    rw [shardRanges_single (by omega) hS]
    exact List.mem_singleton_self _
  have hunit := generateBufferIsFixed s t sn hends hdone hc _ hr u j (Nat.zero_le u) hu hj
  rw [shardCounter_zero, Nat.sub_zero] at hunit
  exact hunit

end Sys2Proof.Machine
end

section
/-! PROOFS. The class of p and the acceptance of a GENERATE (O21, O22, O23; 43_generate.md R192, R193, R195,
60_exceptions.md R212). -/

namespace Sys2Proof.Machine

/-! ## The class of p (R192) -/

/-- The comparisons of R192 for a real p, in their order. -/
theorem classify_real {eps : Nat} {p : U32} {m : Int} (h : f32 p = .real m) :
    classify eps p
      = if m ≤ eps then .low
        else if (m - 2 ^ 149).natAbs ≤ eps then .high
        else if 2 ^ 149 + (eps : Int) < m then .range
        else .normal := by
  have hone : (oneUnits : Int) = 2 ^ 149 := by norm_num [oneUnits]
  have habs : (m - 2 ^ 149 ≤ (eps : Int) ∧ 2 ^ 149 - m ≤ (eps : Int)) ↔ (m - 2 ^ 149).natAbs ≤ eps := by
    omega
  simp only [classify, h, hone, habs]

theorem classify_eq_low_iff {eps : Nat} {p : U32} :
    classify eps p = .low ↔ f32 p = .negInf ∨ ∃ m, f32 p = .real m ∧ m ≤ eps := by
  cases h : f32 p with
  | real m =>
    simp only [classify_real h, Binary32.real.injEq, exists_eq_left', reduceCtorEq, false_or]
    split_ifs <;> simp only [*]
  | _ => simp [classify, h]

theorem classify_eq_high_iff {eps : Nat} {p : U32} :
    classify eps p = .high ↔ ∃ m, f32 p = .real m ∧ ¬ m ≤ eps ∧ (m - 2 ^ 149).natAbs ≤ eps := by
  cases h : f32 p with
  | real m =>
    simp only [classify_real h, Binary32.real.injEq, exists_eq_left']
    split_ifs <;> simp only [*, not_true, not_false_eq_true, false_and, and_self, and_false]
  | _ => simp [classify, h]

/-- A real p above `1 + EPS` is not within EPS of 1. -/
theorem classify_eq_range_iff {eps : Nat} {p : U32} :
    classify eps p = .range ↔ f32 p = .nan ∨ f32 p = .posInf ∨
      ∃ m, f32 p = .real m ∧ ¬ m ≤ eps ∧ 2 ^ 149 + (eps : Int) < m := by
  cases h : f32 p with
  | real m =>
    simp only [classify_real h, Binary32.real.injEq, exists_eq_left', reduceCtorEq, false_or]
    split_ifs <;> simp only [false_iff, true_iff] <;> omega
  | _ => simp [classify, h]

/-- A NORMAL p lies between EPS and `1 - EPS`, and so between 0 and 1. -/
theorem real_of_classify_normal {eps : Nat} {p : U32} (hc : classify eps p = .normal) :
    ∃ m, f32 p = .real m ∧ (eps : Int) < m ∧ m < 2 ^ 149 - (eps : Int) ∧ 0 < m ∧ m < 2 ^ 149 := by
  cases h : f32 p with
  | real m =>
    rw [classify_real h] at hc
    split_ifs at hc
    exact ⟨m, rfl, by omega, by omega, by omega, by omega⟩
  | _ => simp [classify, h] at hc

/-- The sign bit of a positive real number is clear. -/
theorem sign_clear_of_pos {p : U32} {m : Int} (h : f32 p = .real m) (hm : 0 < m) :
    p.getLsbD 31 = false := by
  by_contra hs
  unfold f32 signOf at h
  rw [Bool.eq_true_of_not_eq_false hs] at h
  split at h
  · split at h <;> cases h
  · cases h
    rw [if_pos rfl] at hm
    omega

/-- With the default EPS, a HIGH pattern lies between those of `1 - 2^-23` and `1 + 2^-23`. -/
theorem pattern_bounds_of_high {p : U32} (hc : classify Config.defaultEps p = .high) :
    0x3F7FFFFE ≤ p.toNat ∧ p.toNat ≤ 0x3F800001 := by
  obtain ⟨m, hf, hlow, hhigh⟩ := classify_eq_high_iff.mp hc
  unfold Config.defaultEps at hlow hhigh
  have hs := sign_clear_of_pos hf (by omega)
  have hm := eq_magnitudeOf_of_nonneg hf (by omega)
  have hfirst : magnitudeOf 0x3F7FFFFE = 2 ^ 149 - 2 ^ 126 := by decide +kernel
  have hlast : magnitudeOf 0x3F800001 = 2 ^ 149 + 2 ^ 126 := by decide +kernel
  exact ⟨(magnitudeOf_le_iff (p := 0x3F7FFFFE) (by decide) hs).mp (by omega),
    (magnitudeOf_le_iff (q := 0x3F800001) hs (by decide)).mp (by omega)⟩

theorem classify_default_eq_high_iff {p : U32} : classify Config.defaultEps p = .high ↔
    p = 0x3F7FFFFE ∨ p = 0x3F7FFFFF ∨ p = 0x3F800000 ∨ p = 0x3F800001 := by
  constructor
  · intro hc
    obtain ⟨hlo, hhi⟩ := pattern_bounds_of_high hc
    bv_omega
  · rintro (rfl | rfl | rfl | rfl) <;> decide +kernel

/-! ## The CMD write (R195) -/

theorem wraps_eq_false {r : Operands} (h : (outOf r).toNat + (outSizeOf r).toNat ≤ 2 ^ 64) :
    wraps r = false :=
  decide_eq_false (Nat.not_lt.mpr h)

theorem exec_generate {s : State} (hb : blocked s = false) :
    exec .generate s = .next (acceptGenerate s) := by
  rw [exec, execGenerate, unlessBlocked, hb, if_neg Bool.false_ne_true]

section Classes

variable {s : State} (hw : wraps s.regs = false)
include hw

theorem acceptGenerate_low (hc : classify s.cfg.eps s.regs.prob = .low) :
    acceptGenerate s = acceptFill 0x00 s := by
  simp only [acceptGenerate, hw, Bool.false_eq_true, if_false, hc]

theorem acceptGenerate_high (hc : classify s.cfg.eps s.regs.prob = .high) :
    acceptGenerate s = acceptFill 0xFF s := by
  simp only [acceptGenerate, hw, Bool.false_eq_true, if_false, hc]

theorem acceptGenerate_range (hc : classify s.cfg.eps s.regs.prob = .range) :
    acceptGenerate s = faultEntry .probRange (opcode .generate) 0 s := by
  simp only [acceptGenerate, hw, Bool.false_eq_true, if_false, hc]

theorem acceptGenerate_normal (hc : classify s.cfg.eps s.regs.prob = .normal)
    (hsize : (outSizeOf s.regs).toNat % 16 = 0) : acceptGenerate s = acceptShards s := by
  simp only [acceptGenerate, hw, Bool.false_eq_true, if_false, hc, hsize, ne_eq, not_true]

end Classes

/-- Settles O21, each class from its comparisons. -/
theorem classOfProbability : Obligations.ClassOfProbability := by
  refine ⟨fun eps p => ⟨classify_eq_low_iff, classify_eq_high_iff, classify_eq_range_iff,
    real_of_classify_normal⟩, fun p => classify_default_eq_high_iff, fun s hbusy hfault hspace hc => ?_⟩
  rw [exec_generate (blocked_eq_false hbusy hfault), acceptGenerate_range (wraps_eq_false hspace) hc]
  rfl

/-- Settles O22: with neither check of R212 failing, the class decides the fill byte. -/
theorem generateFillIsAccepted : Obligations.GenerateFillIsAccepted := by
  intro s hbusy hfault hspace F hF
  have hw := wraps_eq_false hspace
  rw [exec_generate (blocked_eq_false hbusy hfault)]
  rcases hF with ⟨hc, rfl⟩ | ⟨hc, rfl⟩
  · rw [acceptGenerate_low hw hc]
    rfl
  · rw [acceptGenerate_high hw hc]
    rfl

/-- Settles O23: none of R212's three checks fails. -/
theorem generateShardsAreAccepted : Obligations.GenerateShardsAreAccepted := by
  intro s hbusy hfault hspace hc hsize
  rw [exec_generate (blocked_eq_false hbusy hfault), acceptGenerate_normal (wraps_eq_false hspace) hc hsize]
  rfl

end Sys2Proof.Machine
end

section
/-! PROOFS. The chunk step of the fill agent (O28; 43_generate.md R193). -/

namespace Sys2Proof.Machine

/-- A chunk is left exactly while it starts inside the N bytes (R193). -/
theorem lt_chunkCount_iff {n k : Nat} : k < chunkCount n ↔ 16 * k < n := by
  unfold chunkCount
  omega

/-- Settles O28: the step is enabled, and what it stores is one transaction of equal bytes. -/
theorem chunkStepWritesOneChunk : Obligations.ChunkStepWritesOneChunk := by
  intro s sn f hs hp hf hk ha
  have hchunk : fillHasChunk sn s = true := fillHasChunk_iff.mpr ⟨f, hf, lt_chunkCount_iff.mpr hk⟩
  refine ⟨chunk_mem_agentMoves hs hp hchunk, _, congrArg _ (chunkStep_admitted hs hf ha), ?_, ?_⟩
  · intro j hj
    rw [memRead_memWriteBytes_inside (by rwa [List.length_replicate])]
    exact List.getElem?_replicate_of_lt hj
  · exact fun x hx => memRead_memWriteBytes_outside (by rwa [List.length_replicate])

end Sys2Proof.Machine
end

section
/-! PROOFS. The run of a degenerate GENERATE, and of a command whose target range host memory admits (O50,
O58; 43_generate.md R193, R195, R197, 20_memory.md R68). -/

namespace Sys2Proof.Machine

/-! ## Host steps that keep their duty (70_reset_and_hazards.md R244) -/

/-- A host step that keeps its duty is nothing, or the next event, which is no reset. -/
theorem hostStep_cases_of_duty {s t : State} {sn : Snapshot}
    (hduty : ∀ ev, s.bus.head? = some ev → KeepsOff s.cfg sn ev) (h : hostStep s = .next t) :
    t = s ∨ ∃ ev rest, s.bus = ev :: rest ∧ ev ≠ .reset ∧ hostEvent ev { s with bus := rest } = .next t := by
  unfold hostStep at h
  split at h
  · rename_i ev rest hbus
    refine .inr ⟨ev, rest, hbus, ?_, h⟩
    rintro rfl
    exact hduty .reset (by rw [hbus]; rfl)
  · cases h
    exact .inl rfl

/-- While BUSY = 1 such a step leaves the running command as it is (R42, R77). -/
theorem hostStep_keepsRun {s t : State} {sn : Snapshot} (hb : s.status.busy = true)
    (hduty : ∀ ev, s.bus.head? = some ev → KeepsOff s.cfg sn ev) (h : hostStep s = .next t) :
    KeepsRun s t := by
  rcases hostStep_cases_of_duty hduty h with rfl | ⟨ev, rest, -, hreset, h⟩
  · exact .rfl'
  · obtain ⟨hk, -⟩ := hostEvent_keepsRun (s := { s with bus := rest }) hb hreset h
    exact ⟨hk.snap, hk.queue, hk.engines, hk.fill, hk.pending, hk.busy, hk.cfg⟩

/-- A property that says nothing of the choices, and that each step of the host and of KSG's agents keeps,
holds all along the run. -/
theorem runWhileBusy_keeps_of_moves {P : State → Prop} {sn : Snapshot}
    (hchoice : ∀ s t, SameButChoices s t → P s → P t)
    (hhost : ∀ s t, Progress s sn → (∀ ev, s.bus.head? = some ev → KeepsOff s.cfg sn ev) → P s →
      hostStep s = .next t → P t)
    (hagent : ∀ s t m, Progress s sn → m ∈ agentMoves s → P s → runMove m s = .next t → P t)
    {n : Nat} {s t : State} (hp : Progress s sn) (hduty : KeepsDuty sn n s) (hs : P s)
    (h : runWhileBusy n s = some t) : P t := by
  refine runWhileBusy_keeps (fun s t hp hnow hs h => ?_) hp hduty hs h
  rcases step_cases_of_duty hnow h with rfl | ⟨s', hsame, ⟨hnow, h⟩ | ⟨m, hm, h⟩⟩
  · exact hs
  · exact hhost s' t (hp.of_same hsame) hnow (hchoice s s' hsame hs) h
  · exact hagent s' t m (hp.of_same hsame) hm (hchoice s s' hsame hs) h

/-! ## THRESH (R195) -/

/-- A host read changes the choices, and adds its answer. -/
theorem hostRead_state {s t : State} {addr : U64} {n : Nat} (h : hostRead addr n s = .next t) :
    ∃ r u, SameButChoices s u ∧ t = answer r u := by
  unfold hostRead at h
  split at h
  · cases h
    exact ⟨_, s, .rfl', rfl⟩
  · split at h
    · cases h
      exact ⟨_, s, .rfl', rfl⟩
    · split at h
      · cases h
      · cases h
        exact ⟨_, _, hostReadBytes_state addr.toNat n s, rfl⟩

/-- Of the host's events only a write or a reset changes THRESH (R31, R240). -/
theorem hostEvent_thresh {s t : State} {ev : HostEvent} (hreset : ev ≠ .reset)
    (hwrite : ∀ addr bytes, ev ≠ .write addr bytes) (h : hostEvent ev s = .next t) :
    t.thresh = s.thresh := by
  cases ev with
  | read addr n =>
    obtain ⟨r, u, ⟨cs, d, rfl⟩, rfl⟩ := hostRead_state h
    rfl
  | write addr bytes => exact absurd rfl (hwrite addr bytes)
  | wait =>
    cases h
    unfold hostWait
    split <;> rfl
  | reset => exact absurd rfl hreset

/-- THRESH holds `v`, and no write of the host is pending. -/
structure ThreshIsLeft (v : U16) (s : State) : Prop where
  value : s.thresh = v
  pending : HostWritesNothing s

theorem ThreshIsLeft.of_same {s t : State} {v : U16} (h : SameButChoices s t) (hl : ThreshIsLeft v s) :
    ThreshIsLeft v t := by
  obtain ⟨cs, d, rfl⟩ := h
  exact ⟨hl.value, hl.pending⟩

theorem hostStep_leavesThresh {s t : State} {sn : Snapshot} {v : U16} (hb : s.status.busy = true)
    (hduty : ∀ ev, s.bus.head? = some ev → KeepsOff s.cfg sn ev) (hl : ThreshIsLeft v s)
    (h : hostStep s = .next t) : ThreshIsLeft v t := by
  rcases hostStep_cases_of_duty hduty h with rfl | ⟨ev, rest, hbus, hreset, h⟩
  · exact hl
  · have hwrite : ∀ addr bytes, ev ≠ .write addr bytes := by
      rintro addr bytes rfl
      exact hl.pending addr bytes (hbus ▸ List.mem_cons_self)
    obtain ⟨-, hpend⟩ := hostEvent_keepsRun (s := { s with bus := rest }) hb hreset h
    refine ⟨(hostEvent_thresh hreset hwrite h).trans hl.value, fun addr bytes hw => ?_⟩
    rcases hpend _ hw with heq | hw
    · exact hwrite addr bytes heq.symm
    · exact hl.pending addr bytes (hbus ▸ List.mem_cons_of_mem _ hw)

theorem agentMove_leavesThresh {s t : State} {m : Move} {v : U16} (hm : m ∈ agentMoves s)
    (hl : ThreshIsLeft v s) (h : runMove m s = .next t) : ThreshIsLeft v t := by
  obtain ⟨-, hthresh, -, -, -, hbus, -⟩ := agentFrame s t m hm h
  exact ⟨hthresh.trans hl.value, fun addr bytes hw => hl.pending addr bytes (hbus ▸ hw)⟩

/-! ## Degenerate GENERATE (R193) -/

/-- The class of p is LOW and the fill byte 0x00, or HIGH and 0xFF (R192, R193). -/
def FillByte (s : State) (F : Byte) : Prop :=
  (classify s.cfg.eps s.regs.prob = .low ∧ F = 0x00) ∨
    (classify s.cfg.eps s.regs.prob = .high ∧ F = 0xFF)

/-- A degenerate GENERATE that runs was accepted with its fill byte (R195). -/
theorem exec_generate_fill {s s1 : State} {sn : Snapshot} {F : Byte} (hb : blocked s = false)
    (hF : FillByte s F) (h : exec .generate s = .next s1) (hs : s1.snap = some sn) :
    s1 = acceptFill F s := by
  rcases exec_cases hb h with ⟨code, rfl⟩ | ⟨hi, -⟩ | ⟨hi, -⟩ |
    ⟨-, -, ⟨hc, rfl⟩ | ⟨hc, rfl⟩ | ⟨hc, -⟩⟩
  · cases hs
  · cases hi
  · cases hi
  · rcases hF with ⟨-, rfl⟩ | ⟨hhigh, -⟩
    · rfl
    · cases hc.symm.trans hhigh
  · rcases hF with ⟨hlow, -⟩ | ⟨-, rfl⟩
    · cases hc.symm.trans hlow
    · rfl
  · rcases hF with ⟨hlow, -⟩ | ⟨hhigh, -⟩
    · cases hc.symm.trans hlow
    · cases hc.symm.trans hhigh

/-- Its every target byte is the fill byte. -/
theorem commandByte_fill {s : State} {F : Byte} {x : Nat} (hF : FillByte s F)
    (hx : inTarget (takeSnapshot .generate s) x = true) :
    commandByte s.cfg (takeSnapshot .generate s) x = some F := by
  rcases hF with ⟨hc, rfl⟩ | ⟨hc, rfl⟩
  · exact commandByte_low rfl hc hx
  · exact commandByte_high rfl hc hx

/-- The run of a degenerate GENERATE leaves THRESH, where the host had no write pending. -/
theorem CommandReaches.fill_thresh {s t : State} {sn : Snapshot} {F : Byte}
    (h : CommandReaches .generate s sn t) (hF : FillByte s F) (hw : HostWritesNothing s) :
    t.thresh = s.thresh := by
  obtain ⟨hi, hb, s1, n, hexec, hs, hduty, hrun⟩ := h
  have hprog := exec_progress hi hb hexec hs
  cases exec_generate_fill hb hF hexec hs
  have hstart : ThreshIsLeft s.thresh (acceptFill F s) := ⟨rfl, hw⟩
  have hend := runWhileBusy_keeps_of_moves (fun _ _ => .of_same)
    (fun _ _ hp => hostStep_leavesThresh hp.busy) (fun _ _ _ _ => agentMove_leavesThresh)
    hprog hduty hstart hrun
  exact hend.value

theorem CommandReaches.fill_snapshot {s t : State} {sn : Snapshot} {F : Byte}
    (h : CommandReaches .generate s sn t) (hF : FillByte s F) : sn = takeSnapshot .generate s := by
  obtain ⟨-, hb, s1, -, hexec, hs, -, -⟩ := h
  cases exec_generate_fill hb hF hexec hs
  exact (Option.some.inj hs).symm

/-- Settles O50: the buffer is the target range, and each of its bytes is the fill byte. -/
theorem degenerateGenerateFills : Obligations.DegenerateGenerateFills := by
  intro s t sn F hends hdone hF
  refine ⟨fun i hi => ?_, hends.1.fill_thresh hF⟩
  obtain rfl := hends.1.fill_snapshot hF
  have hx : inTarget (takeSnapshot .generate s) ((outOf s.regs).toNat + i) = true :=
    inTarget_iff.mpr ⟨Nat.le_add_right _ _, Nat.add_lt_add_left hi _⟩
  rw [hends.target_written hdone hx, commandByte_fill hF hx]

/-! ## Admitted target ranges (R68, R197) -/

/-- Host memory admits every transaction of 1 to 16 bytes inside the target range. -/
def AdmitsTarget (c : Config.Params) (sn : Snapshot) : Prop :=
  ∀ a n, 0 < n → n ≤ 16 → (targetRange sn).1 ≤ a → a + n ≤ (targetRange sn).2 → admits c a n = true

/-- It admits a transaction each of whose bytes is a target byte. -/
theorem AdmitsTarget.admits_of_inTarget {c : Config.Params} {sn : Snapshot} {a n : Nat}
    (h : AdmitsTarget c sn) (hn : 0 < n) (h16 : n ≤ 16) (hx : ∀ i, i < n → inTarget sn (a + i) = true) :
    admits c a n = true := by
  obtain ⟨hlo, -⟩ := inTarget_iff.mp (hx 0 hn)
  obtain ⟨-, hhi⟩ := inTarget_iff.mp (hx (n - 1) (by omega))
  exact h a n hn h16 hlo (by omega)

/-- Nothing was refused: no fault is pending, and the command runs or has completed. -/
structure Unrefused (sn : Snapshot) (s : State) : Prop where
  admitted : AdmitsTarget s.cfg sn
  pending : s.pending = none
  outcome : s.status.busy = true ∨ s.status.done = true

theorem Unrefused.of_same {s t : State} {sn : Snapshot} (h : SameButChoices s t) (hu : Unrefused sn s) :
    Unrefused sn t := by
  obtain ⟨cs, d, rfl⟩ := h
  exact ⟨hu.admitted, hu.pending, hu.outcome⟩

/-- A step of the command's work after which no fault is pending. -/
theorem Unrefused.of_work {s t : State} {sn : Snapshot} (hu : Unrefused sn s) (hk : WorkKeeps s t)
    (hp : t.pending = none) : Unrefused sn t :=
  ⟨hk.cfg ▸ hu.admitted, hp, hk.status ▸ hu.outcome⟩

/-- With every transaction admitted, an enabled step of KSG's agents raises no fault. -/
theorem agentMove_unrefused {s t : State} {sn : Snapshot} {m : Move} (hp : Progress s sn)
    (hm : m ∈ agentMoves s) (hu : Unrefused sn s) (h : runMove m s = .next t) : Unrefused sn t := by
  obtain ⟨sn', hs, hcase⟩ := mem_agentMoves hm
  cases hp.snap.symm.trans hs
  have hr := hp.inv.running sn hs
  rcases hcase with ⟨-, hpend⟩ |
    ⟨-, ⟨e, j, rfl, -, hj⟩ | ⟨e, sh, u, rfl, he, hunit⟩ | ⟨rfl, f, hf, hk⟩ | ⟨rfl, -⟩⟩
  · rw [hu.pending] at hpend
    cases hpend
  · cases h
    refine hu.of_work (dispatchStep_keeps hj) ?_
    rw [dispatchStep_eq (List.getElem?_eq_getElem hj)]
    exact hu.pending
  · cases h
    obtain ⟨hfit, -⟩ : EngineFits s.cfg sn (.running sh u) := hr.engines _ (List.mem_of_getElem? he)
    have ha : admits s.cfg (unitAddr sn sh u) 16 = true :=
      hu.admitted.admits_of_inTarget (by decide) le_rfl fun i => unitBytes_inTarget hfit hunit
    refine hu.of_work (unitStep_keeps hs he) ?_
    rw [unitStep_admitted hs he ha]
    exact hu.pending
  · cases h
    obtain ⟨hop, -, -⟩ := hr.fill f hf
    have hleft := lt_chunkCount_iff.mp hk
    have ha : admits s.cfg (sn.out.toNat + 16 * f.k) (chunkLength sn.size.toNat f.k) = true :=
      hu.admitted.admits_of_inTarget (by unfold chunkLength; omega) (Nat.min_le_left _ _)
        fun i => chunkBytes_inTarget hop
    refine hu.of_work (chunkStep_keeps hs hf) ?_
    rw [chunkStep_admitted hs hf ha]
    exact hu.pending
  · cases h
    rw [completeStep, endRaces_of_none hp.unraced]
    exact ⟨hu.admitted, hu.pending, .inr rfl⟩

/-- A host step that keeps its duty raises no fault either (R213). -/
theorem hostStep_unrefused {s t : State} {sn : Snapshot} (hp : Progress s sn)
    (hduty : ∀ ev, s.bus.head? = some ev → KeepsOff s.cfg sn ev) (hu : Unrefused sn s)
    (h : hostStep s = .next t) : Unrefused sn t := by
  have hk := hostStep_keepsRun hp.busy hduty h
  exact ⟨hk.cfg ▸ hu.admitted, hk.pending.trans hu.pending, .inl (hk.busy.trans hp.busy)⟩

/-- No fault is pending right after a CMD write that was not dropped (R226). -/
theorem exec_pending {i : Instr} {s t : State} (hi : MachineInv s) (hb : blocked s = false)
    (h : exec i s = .next t) : t.pending = none := by
  obtain ⟨-, rest⟩ := hi.rest_of_not_blocked hb
  rcases exec_cases hb h with ⟨code, rfl⟩ | ⟨-, -, rfl⟩ | ⟨-, -, -, rfl⟩ |
    ⟨-, -, ⟨-, rfl⟩ | ⟨-, rfl⟩ | ⟨-, -, rfl⟩⟩
  · rfl
  all_goals exact rest.pending

/-- Settles O58: the run raises no fault, so the step that cleared BUSY set DONE. -/
theorem admittedCommandsComplete : Obligations.AdmittedCommandsComplete := by
  rintro i s t sn ⟨⟨hi, hb, s1, n, hexec, hs, hduty, hrun⟩, hbusy⟩ hadmits
  have hprog := exec_progress hi hb hexec hs
  have hstart : Unrefused sn s1 :=
    ⟨(exec_invStep hi hexec).cfg ▸ hadmits, exec_pending hi hb hexec, .inl hprog.busy⟩
  have hend := runWhileBusy_keeps_of_moves (fun _ _ => .of_same) (fun _ _ => hostStep_unrefused)
    (fun _ _ _ => agentMove_unrefused) hprog hduty hstart hrun
  exact hend.outcome.resolve_left (by rw [hbusy]; exact Bool.false_ne_true)

end Sys2Proof.Machine
end

section
/-! PROOFS. The faults that a command takes in its own CMD write (O20, O57; 60_exceptions.md R212, R214 to
R216). -/

namespace Sys2Proof.Machine

/-! ## The order of the checks (R216) -/

theorem wraps_eq_true {r : Operands} (h : 2 ^ 64 < (outOf r).toNat + (outSizeOf r).toNat) :
    wraps r = true :=
  decide_eq_true h

/-- ADDR_WRAP comes before every other check of KEYSTREAM. -/
theorem acceptKeystream_wraps {s : State} (hw : wraps s.regs = true) :
    acceptKeystream s = faultEntry .addrWrap (opcode .keystream) 0 s := by
  rw [acceptKeystream, if_pos hw]

theorem acceptKeystream_badRange {s : State} (hw : wraps s.regs = false)
    (hr : badUnitRange s.regs = true) :
    acceptKeystream s = faultEntry .unitRange (opcode .keystream) 0 s := by
  rw [acceptKeystream, hw, if_neg Bool.false_ne_true, if_pos hr]

/-- ADDR_WRAP comes before every other check of GENERATE, the class of p included. -/
theorem acceptGenerate_wraps {s : State} (hw : wraps s.regs = true) :
    acceptGenerate s = faultEntry .addrWrap (opcode .generate) 0 s := by
  rw [acceptGenerate, if_pos hw]

theorem acceptGenerate_unaligned {s : State} (hw : wraps s.regs = false)
    (hc : classify s.cfg.eps s.regs.prob = .normal) (hsize : (outSizeOf s.regs).toNat % 16 ≠ 0) :
    acceptGenerate s = faultEntry .sizeAlign (opcode .generate) 0 s := by
  rw [acceptGenerate, hw, if_neg Bool.false_ne_true, hc]
  exact if_pos hsize

/-- Settles O20, one check after the other. -/
theorem preCheckFaultsInOrder : Obligations.PreCheckFaultsInOrder := by
  intro s hbusy hfault
  rw [exec_keystream (blocked_eq_false hbusy hfault), exec_generate (blocked_eq_false hbusy hfault)]
  refine ⟨fun hwrap => ?_, fun hspace => ⟨fun hr => ?_, fun hc => ?_, fun hc hsize => ?_⟩⟩
  · have hw := wraps_eq_true hwrap
    exact ⟨congrArg _ (acceptKeystream_wraps hw), congrArg _ (acceptGenerate_wraps hw)⟩
  · exact congrArg _ (acceptKeystream_badRange (wraps_eq_false hspace) (decide_eq_true hr))
  · exact congrArg _ (acceptGenerate_range (wraps_eq_false hspace) hc)
  · exact congrArg _ (acceptGenerate_unaligned (wraps_eq_false hspace) hc hsize)

/-! ## What such a fault changes (R215(a)) -/

/-- A CMD write that is not dropped and ends with FAULT = 1 took fault entry with address 0: acceptance leaves
FAULT as it was, 0. -/
theorem exec_faultEntry {i : Instr} {s t : State} (hb : blocked s = false) (h : exec i s = .next t)
    (hf : t.status.fault = true) : ∃ code, t = faultEntry code (opcode i) 0 s := by
  have hfault : s.status.fault = false := (Bool.or_eq_false_iff.mp hb).2
  rcases exec_cases hb h with hentry | ⟨-, -, rfl⟩ | ⟨-, -, -, rfl⟩ |
    ⟨-, -, ⟨-, rfl⟩ | ⟨-, rfl⟩ | ⟨-, -, rfl⟩⟩
  · exact hentry
  all_goals cases hfault.symm.trans hf

/-- Where no command runs, fault entry finds nothing to discard: it changes STATUS and the record only
(R214, R226). -/
theorem faultEntry_of_resting {s : State} (hs : s.snap = none) (rest : Resting s) (code : Cause) (op : Byte)
    (a : U64) :
    faultEntry code op a s = { s with
      status := { s.status with busy := false, done := false, fault := true }
      record := { code := code, op := op, addr := a } } := by
  have hengines : s.engines.map (fun _ => Engine.idle) = s.engines :=
    (List.map_congr_left fun e he => (rest.engines e he).symm).trans (List.map_id _)
  simp only [faultEntry, hengines, hs, rest.queue, rest.fill, rest.pending, rest.before, rest.raced]

theorem MachineInv.snap_of_not_blocked {s : State} (hi : MachineInv s) (hb : blocked s = false) :
    s.snap = none := by
  have hbusy : s.status.busy = false := (Bool.or_eq_false_iff.mp hb).1
  cases hs : s.snap with
  | none => rfl
  | some sn => cases hbusy.symm.trans (hi.running sn hs).flags.1

/-- Settles O57: the write took fault entry, in a machine in which no command ran. -/
theorem preCheckFaultsArePrecise : Obligations.PreCheckFaultsArePrecise := by
  intro i s t hi hb h hf
  obtain ⟨code, rfl⟩ := exec_faultEntry hb h hf
  exact ⟨faultEntry_of_resting (hi.snap_of_not_blocked hb) (hi.rest_of_not_blocked hb).2 .., rfl, rfl⟩

end Sys2Proof.Machine
end

section
/-! PROOFS. Refused transactions, and fault entry (O29, O31; 60_exceptions.md R210, R213, R214). -/

namespace Sys2Proof.Machine

/-! ## Refused transactions (R213) -/

/-- The first refused transaction is the one that stays recorded. -/
theorem recordRefused_eq (a : Nat) (s : State) :
    recordRefused a s
      = { s with pending := some (s.pending.getD ⟨.busError, BitVec.ofNat 64 a⟩) } := by
  obtain ⟨_, _, _, _, _, _, pending, _, _, _, _, _, _, _, _, _, _⟩ := s
  cases pending with
  | none => rfl
  | some p => rfl

/-- While a fault is pending the one enabled step of KSG's agents is fault entry. -/
theorem agentMoves_of_pending {s : State} {sn : Snapshot} {p : PendingFault} (hs : s.snap = some sn)
    (hp : s.pending = some p) : agentMoves s = [.takeFault] := by
  simp only [agentMoves, hs, hp]

/-- Settles O29: a refused Unit or chunk stops its agent and is recorded. -/
theorem refusedWriteBecomesPending : Obligations.RefusedWriteBecomesPending := by
  refine ⟨fun s e sn sh u hs he ha => ?_, fun s sn f hs hf ha => ?_, fun s p m hp hm => ?_⟩
  · rw [runMove, unitStep_refused hs he ha, recordRefused_eq]
    cases s.pending <;> rfl
  · rw [runMove, chunkStep_refused hs hf ha, recordRefused_eq]
    cases s.pending <;> rfl
  · obtain ⟨sn, hs, -⟩ := mem_agentMoves hm
    rw [agentMoves_of_pending hs hp] at hm
    exact List.mem_singleton.mp hm

/-! ## Fault entry (R214) -/

/-- Settles O31: fault entry field by field, and the coordinator's step as fault entry once the races are
settled. -/
theorem faultEntryRule : Obligations.FaultEntryRule := by
  refine ⟨⟨rfl, rfl, rfl, rfl, rfl, rfl, rfl⟩, fun s code op faddr => ?_, fun s sn p hs hp => ?_⟩
  · exact ⟨rfl, by simp, by simp, rfl, rfl, rfl, rfl, rfl, halves_append faddr, rfl, rfl, rfl⟩
  · refine ⟨agentMoves_of_pending hs hp, endRaces true s,
      congrArg Host.Outcome.next (takeFaultStep_eq hs hp), ?_⟩
    have hmem : s.raced = [] → (endRaces true s).mem = s.mem := fun hr => by rw [endRaces_of_none hr]
    obtain ⟨m, cs, d, h⟩ := endRaces_state true s
    rw [h] at hmem ⊢
    exact ⟨rfl, rfl, rfl, rfl, rfl, rfl, hmem⟩

end Sys2Proof.Machine
end

section
/-! PROOFS. The run of a command that ends with BUS_ERROR (O56; 60_exceptions.md R210, R213, R215(b)). -/

namespace Sys2Proof.Machine

/-! ## Old or new bytes (R215(b)) -/

/-- The byte at `x` holds `old` or what the command gives it. -/
def OldOrNew (sn : Snapshot) (x : Nat) (old : Option Byte) (s : State) : Prop :=
  memRead s.mem x = old ∨ memRead s.mem x = commandByte s.cfg sn x

/-- A step that keeps the parameters, and keeps the byte or gives it the command's value, keeps it old or
new. -/
theorem OldOrNew.of_step {s t : State} {sn : Snapshot} {x : Nat} {old : Option Byte}
    (ho : OldOrNew sn x old s) (hcfg : t.cfg = s.cfg) (h : OldOrNew sn x (memRead s.mem x) t) :
    OldOrNew sn x old t := by
  rcases h with hkept | hnew
  · unfold OldOrNew
    rw [hkept, hcfg]
    exact ho
  · exact .inr hnew

theorem unitStep_oldOrNew {s : State} {sn : Snapshot} {sh : Shard} {e u : Nat} (x : Nat)
    (hs : s.snap = some sn) (he : s.engines[e]? = some (.running sh u)) (hf : ShardFits s.cfg sn sh)
    (hu : sh.start + u < sh.limit) : OldOrNew sn x (memRead s.mem x) (unitStep e s) := by
  unfold OldOrNew
  cases ha : admits s.cfg (unitAddr sn sh u) 16 with
  | true =>
    have heq := unitStep_admitted hs he ha
    have hmem : (unitStep e s).mem
        = memWriteBytes s.mem (unitAddr sn sh u) (unitBytes s.cfg sn.key sh.ctr0 u sn.t) := by rw [heq]
    have hcfg : (unitStep e s).cfg = s.cfg := by rw [heq]
    rw [hmem, hcfg]
    by_cases hx : unitAddr sn sh u ≤ x ∧ x < unitAddr sn sh u + 16
    · exact .inr (memRead_unit hf hu hx.1 hx.2)
    · exact .inl (memRead_memWriteBytes_outside (by rw [unitBytes_length]; omega))
  | false =>
    rw [unitStep_refused hs he ha, recordRefused_mem]
    exact .inl rfl

theorem chunkStep_oldOrNew {s : State} {sn : Snapshot} {f : FillAgent} {x : Nat} (hr : Running s sn)
    (hs : s.snap = some sn) (hf : s.fill = some f) (hx : inTarget sn x = true) :
    OldOrNew sn x (memRead s.mem x) (chunkStep s) := by
  unfold OldOrNew
  cases ha : admits s.cfg (sn.out.toNat + 16 * f.k) (chunkLength sn.size.toNat f.k) with
  | true =>
    obtain ⟨-, -, hbyte⟩ := hr.fill f hf
    rw [chunkStep_admitted hs hf ha]
    by_cases hin : sn.out.toNat + 16 * f.k ≤ x ∧ x < sn.out.toNat + 16 * f.k + chunkLength sn.size.toNat f.k
    · refine .inr ?_
      rw [memRead_memWriteBytes, List.length_replicate, if_pos hin, hbyte x hx,
        List.getElem?_replicate_of_lt (by omega)]
    · exact .inl (memRead_memWriteBytes_outside (by rw [List.length_replicate]; omega))
  | false =>
    rw [chunkStep_refused hs hf ha, recordRefused_mem]
    exact .inl rfl

/-- An enabled step of KSG's agents leaves a target byte, or gives it the command's value. -/
theorem agentMove_oldOrNew {s t : State} {sn : Snapshot} {m : Move} {x : Nat} (hp : Progress s sn)
    (hm : m ∈ agentMoves s) (hx : inTarget sn x = true) (h : runMove m s = .next t) :
    OldOrNew sn x (memRead s.mem x) t := by
  obtain ⟨sn', hs, hcase⟩ := mem_agentMoves hm
  cases hp.snap.symm.trans hs
  have hr := hp.inv.running sn hs
  rcases hcase with ⟨rfl, hpend⟩ |
    ⟨-, ⟨e, j, rfl, -, hj⟩ | ⟨e, sh, u, rfl, he, hu⟩ | ⟨rfl, f, hf, -⟩ | ⟨rfl, -⟩⟩
  · refine .inl ?_
    rw [earlyEnd_mem hs (.inl ⟨hpend, h⟩), endRaces_of_none hp.unraced]
  · cases h
    rw [dispatchStep_eq (List.getElem?_eq_getElem hj)]
    exact .inl rfl
  · cases h
    obtain ⟨hfit, -⟩ : EngineFits s.cfg sn (.running sh u) := hr.engines _ (List.mem_of_getElem? he)
    exact unitStep_oldOrNew x hs he hfit hu
  · cases h
    exact chunkStep_oldOrNew hr hs hf hx
  · cases h
    rw [completeStep, endRaces_of_none hp.unraced]
    exact .inl rfl

/-- A host step that keeps its duty leaves the target range (R244). -/
theorem hostStep_target_mem {s t : State} {sn : Snapshot} {x : Nat} (hp : Progress s sn)
    (hduty : ∀ ev, s.bus.head? = some ev → KeepsOff s.cfg sn ev) (hx : inTarget sn x = true)
    (h : hostStep s = .next t) : memRead t.mem x = memRead s.mem x := by
  rcases hostStep_cases_of_duty hduty h with rfl | ⟨ev, rest, hbus, -, h⟩
  · rfl
  · have hoff : KeepsOff s.cfg sn ev := hduty ev (by rw [hbus]; rfl)
    exact (hostEvent_keepsOff (s := { s with bus := rest }) hp.snap hp.busy hoff h).2 x hx

/-- A command's run keeps the parameters (R5). -/
theorem CommandReaches.cfg_eq {i : Instr} {s t : State} {sn : Snapshot} (h : CommandReaches i s sn t) :
    t.cfg = s.cfg := by
  obtain ⟨hi, hb, s1, n, hexec, hs, hduty, hrun⟩ := h
  obtain ⟨hcfg, -⟩ := runWhileBusy_progress (exec_progress hi hb hexec hs) hduty hrun
  exact hcfg.trans (exec_invStep hi hexec).cfg

/-- At every point of a command's run a byte of its target range holds its value before the command or the
command's. -/
theorem CommandReaches.old_or_new {i : Instr} {s t : State} {sn : Snapshot} {x : Nat}
    (h : CommandReaches i s sn t) (hx : inTarget sn x = true) :
    memRead t.mem x = memRead s.mem x ∨ memRead t.mem x = commandByte s.cfg sn x := by
  have hcfg := h.cfg_eq
  obtain ⟨hi, hb, s1, n, hexec, hs, hduty, hrun⟩ := h
  have hprog := exec_progress hi hb hexec hs
  have hstart : OldOrNew sn x (memRead s.mem x) s1 := .inl (by rw [(exec_mem_bus hb hexec).1])
  have hend : OldOrNew sn x (memRead s.mem x) t := by
    refine runWhileBusy_keeps_of_moves ?_ ?_ ?_ hprog hduty hstart hrun
    · rintro u _ ⟨cs, d, rfl⟩ ho
      exact ho
    · intro u v hp hnow ho h
      exact ho.of_step (hostStep_keepsRun hp.busy hnow h).cfg (.inl (hostStep_target_mem hp hnow hx h))
    · intro u v m hp hm ho h
      exact ho.of_step (agentMove_invStep hp.inv hm h).cfg (agentMove_oldOrNew hp hm hx h)
  rwa [OldOrNew, hcfg] at hend

/-! ## The refused transaction (R210, R213) -/

/-- At `a` a transaction of 1 to 16 bytes inside the target range starts that host memory refuses. -/
def RefusedInTarget (c : Config.Params) (sn : Snapshot) (a : Nat) : Prop :=
  inTarget sn a = true ∧
    ∃ n, 0 < n ∧ n ≤ 16 ∧ a + n ≤ (targetRange sn).2 ∧ admits c a n = false

theorem refusedInTarget_of_bytes {c : Config.Params} {sn : Snapshot} {a n : Nat} (hn : 0 < n)
    (h16 : n ≤ 16) (hx : ∀ i, i < n → inTarget sn (a + i) = true) (ha : admits c a n = false) :
    RefusedInTarget c sn a := by
  obtain ⟨-, hhi⟩ := inTarget_iff.mp (hx (n - 1) (by omega))
  exact ⟨hx 0 hn, n, hn, h16, by omega, ha⟩

/-- A pending fault is a refused transaction of the command, and so is a recorded one: BUS_ERROR with the
command's opcode. -/
structure FaultsByRefusal (sn : Snapshot) (s : State) : Prop where
  pending : ∀ p, s.pending = some p → RefusedInTarget s.cfg sn p.addr.toNat
  recorded : s.status.fault = true → s.record.code = .busError ∧ s.record.op = opcode sn.op ∧
    RefusedInTarget s.cfg sn s.record.addr.toNat

/-- While the command runs FAULT is 0, and only the pending fault matters (R27). -/
theorem FaultsByRefusal.of_progress {s : State} {sn : Snapshot} (hp : Progress s sn)
    (h : ∀ p, s.pending = some p → RefusedInTarget s.cfg sn p.addr.toNat) : FaultsByRefusal sn s := by
  obtain ⟨-, -, hfault⟩ := (hp.inv.running sn hp.snap).flags
  exact ⟨h, fun hf => by cases hfault.symm.trans hf⟩

theorem hostStep_faultsByRefusal {s t : State} {sn : Snapshot} (hp : Progress s sn)
    (hduty : ∀ ev, s.bus.head? = some ev → KeepsOff s.cfg sn ev) (hf : FaultsByRefusal sn s)
    (h : hostStep s = .next t) : FaultsByRefusal sn t := by
  have hk := hostStep_keepsRun hp.busy hduty h
  refine .of_progress (hostStep_progress hp hduty h) fun p hpend => ?_
  rw [hk.cfg]
  exact hf.pending p (hk.pending.symm.trans hpend)

/-- Recording a refused transaction of the target range (R213). -/
theorem recordRefused_faultsByRefusal {s : State} {sn : Snapshot} {a : Nat}
    (hp : Progress (recordRefused a s) sn) (hnone : s.pending = none)
    (ha : RefusedInTarget s.cfg sn a) : FaultsByRefusal sn (recordRefused a s) := by
  have hlt : a < 2 ^ 64 := (inTarget_iff.mp ha.1).2.trans_le (hp.inv.running sn hp.snap).space
  refine .of_progress hp ?_
  rw [recordRefused_eq, hnone]
  rintro p ⟨⟩
  rwa [Option.getD_none, BitVec.toNat_ofNat, Nat.mod_eq_of_lt hlt]

theorem unitStep_faultsByRefusal {s : State} {sn : Snapshot} {sh : Shard} {e u : Nat} (hp : Progress s sn)
    (hpend : s.pending = none) (he : s.engines[e]? = some (.running sh u))
    (hu : sh.start + u < sh.limit) : FaultsByRefusal sn (unitStep e s) := by
  have hprog := unitStep_progress hp hpend he hu
  obtain ⟨hfit, -⟩ : EngineFits s.cfg sn (.running sh u) :=
    (hp.inv.running sn hp.snap).engines _ (List.mem_of_getElem? he)
  cases ha : admits s.cfg (unitAddr sn sh u) 16 with
  | true =>
    refine .of_progress hprog ?_
    rw [unitStep_admitted hp.snap he ha, hpend]
    nofun
  | false =>
    rw [unitStep_refused hp.snap he ha] at hprog ⊢
    exact recordRefused_faultsByRefusal hprog hpend
      (refusedInTarget_of_bytes (by decide) le_rfl (fun _ => unitBytes_inTarget hfit hu) ha)

theorem chunkStep_faultsByRefusal {s : State} {sn : Snapshot} {f : FillAgent} (hp : Progress s sn)
    (hpend : s.pending = none) (hf : s.fill = some f) (hk : f.k < chunkCount sn.size.toNat) :
    FaultsByRefusal sn (chunkStep s) := by
  have hprog := chunkStep_progress hp hpend hf hk
  obtain ⟨hop, -, -⟩ := (hp.inv.running sn hp.snap).fill f hf
  have hlen : 0 < chunkLength sn.size.toNat f.k := by
    have := lt_chunkCount_iff.mp hk
    unfold chunkLength
    omega
  cases ha : admits s.cfg (sn.out.toNat + 16 * f.k) (chunkLength sn.size.toNat f.k) with
  | true =>
    refine .of_progress hprog ?_
    rw [chunkStep_admitted hp.snap hf ha, hpend]
    nofun
  | false =>
    rw [chunkStep_refused hp.snap hf ha] at hprog ⊢
    exact recordRefused_faultsByRefusal hprog hpend
      (refusedInTarget_of_bytes hlen (Nat.min_le_left _ _) (fun _ => chunkBytes_inTarget hop) ha)

/-- Fault entry records the pending BUS_ERROR with the running command's opcode (R210, R214). -/
theorem takeFaultStep_faultsByRefusal {s : State} {sn : Snapshot} {p : PendingFault} (hp : Progress s sn)
    (hpend : s.pending = some p) (hf : FaultsByRefusal sn s) : FaultsByRefusal sn (takeFaultStep s) := by
  obtain ⟨hcode, -⟩ := (hp.inv.running sn hp.snap).pending p hpend
  rw [takeFaultStep_eq hp.snap hpend, endRaces_of_none hp.unraced]
  exact ⟨nofun, fun _ => ⟨hcode, rfl, hf.pending p hpend⟩⟩

/-- An enabled step of KSG's agents raises no other fault than BUS_ERROR at a refused transaction. -/
theorem agentMove_faultsByRefusal {s t : State} {sn : Snapshot} {m : Move} (hp : Progress s sn)
    (hm : m ∈ agentMoves s) (hf : FaultsByRefusal sn s) (h : runMove m s = .next t) :
    FaultsByRefusal sn t := by
  obtain ⟨sn', hs, hcase⟩ := mem_agentMoves hm
  cases hp.snap.symm.trans hs
  rcases hcase with ⟨rfl, hpend⟩ |
    ⟨hpend, ⟨e, j, rfl, he, hj⟩ | ⟨e, sh, u, rfl, he, hu⟩ | ⟨rfl, f, hfill, hk⟩ | ⟨rfl, -⟩⟩
  · obtain ⟨p, hpend⟩ := Option.isSome_iff_exists.mp hpend
    cases h
    exact takeFaultStep_faultsByRefusal hp hpend hf
  · cases h
    refine .of_progress (dispatchStep_progress hp hpend he hj) ?_
    rw [dispatchStep_eq (List.getElem?_eq_getElem hj)]
    exact hf.pending
  · cases h
    exact unitStep_faultsByRefusal hp hpend he hu
  · cases h
    exact chunkStep_faultsByRefusal hp hpend hfill hk
  · cases h
    rw [completeStep, endRaces_of_none hp.unraced]
    exact ⟨hf.pending, hf.recorded⟩

/-- The snapshot's opcode is the accepted command's (R42). -/
theorem exec_snapshot_op {i : Instr} {s t : State} {sn : Snapshot} (hb : blocked s = false)
    (h : exec i s = .next t) (hs : t.snap = some sn) : sn.op = i := by
  rcases exec_cases hb h with ⟨code, rfl⟩ | ⟨rfl, -, rfl⟩ | ⟨rfl, -, -, rfl⟩ |
    ⟨rfl, -, ⟨-, rfl⟩ | ⟨-, rfl⟩ | ⟨-, -, rfl⟩⟩ <;> cases hs
  all_goals rfl

/-- A fault in a command's run is BUS_ERROR at a transaction that host memory refused (R212, R213). -/
theorem CommandReaches.fault_refused {i : Instr} {s t : State} {sn : Snapshot}
    (h : CommandReaches i s sn t) (hfault : t.status.fault = true) :
    t.record.code = .busError ∧ t.record.op = opcode i ∧
      RefusedInTarget s.cfg sn t.record.addr.toNat := by
  have hcfg := h.cfg_eq
  obtain ⟨hi, hb, s1, n, hexec, hs, hduty, hrun⟩ := h
  have hprog := exec_progress hi hb hexec hs
  have hstart : FaultsByRefusal sn s1 := by
    refine .of_progress hprog fun p hp => ?_
    cases (exec_pending hi hb hexec).symm.trans hp
  have hend : FaultsByRefusal sn t := by
    refine runWhileBusy_keeps_of_moves ?_ (fun _ _ => hostStep_faultsByRefusal)
      (fun _ _ _ => agentMove_faultsByRefusal) hprog hduty hstart hrun
    rintro u _ ⟨cs, d, rfl⟩ hf
    exact ⟨hf.pending, hf.recorded⟩
  have hrec := hend.recorded hfault
  rwa [hcfg, exec_snapshot_op hb hexec hs] at hrec

/-- Settles O56: the fault is a refused transaction of the command, and the run leaves the target range old
or new and the rest alone. -/
theorem busErrorLeavesOldOrNewBytes : Obligations.BusErrorLeavesOldOrNewBytes := by
  rintro i s t sn ⟨hreach, -⟩ hfault
  exact ⟨hreach.fault_refused hfault, fun x => hreach.old_or_new, fun x => hreach.leavesByte⟩

end Sys2Proof.Machine
end

section
/-! PROOFS. How a command's run ends, and a reset that comes before (O47, O59; 70_reset_and_hazards.md R240,
R241, R248, R251). -/

namespace Sys2Proof.Machine

/-! ## Runs -/

theorem runWhileBusy_succ {n : Nat} {s t : State} :
    runWhileBusy (n + 1) s = some t ↔
      s.status.busy = true ∧ ∃ u, step s = .next u ∧ runWhileBusy n u = some t := by
  rw [runWhileBusy]
  cases s.status.busy with
  | false => simp
  | true => cases step s <;> simp

/-- A run keeps the invariant, whatever the host does. -/
theorem runWhileBusy_inv {n : Nat} {s t : State} (hi : MachineInv s) (h : runWhileBusy n s = some t) :
    MachineInv t := by
  induction n generalizing s with
  | zero =>
    cases h
    exact hi
  | succ n ih =>
    obtain ⟨-, u, hstep, hrun⟩ := runWhileBusy_succ.mp h
    exact ih (step_invStep hi hstep).inv hrun

theorem MachineInv.resting_of_not_busy {s : State} (hi : MachineInv s) (hb : s.status.busy = false) :
    Resting s := by
  cases hs : s.snap with
  | none => exact hi.resting hs
  | some sn => cases hb.symm.trans (hi.running sn hs).flags.1

/-! ## The end (R248, R251) -/

/-- The command still runs, or it has ended with DONE or with FAULT. -/
def RunsOrEnded (s : State) : Prop :=
  s.status.busy = true ∨ s.status.done = true ∨ s.status.fault = true

/-- The agents' step that ends the command sets DONE or FAULT (R176, R214); any other leaves BUSY = 1. -/
theorem agentMove_runsOrEnded {s t : State} {sn : Snapshot} {m : Move} (hp : Progress s sn)
    (hm : m ∈ agentMoves s) (h : runMove m s = .next t) : RunsOrEnded t := by
  rcases agentMove_keeps hm h with ⟨rfl | rfl, -⟩ | hk
  · cases h
    exact .inr (.inl rfl)
  · obtain ⟨sn', hs, ⟨-, hpend⟩ | ⟨-, hcase⟩⟩ := mem_agentMoves hm
    · obtain ⟨p, hpend⟩ := Option.isSome_iff_exists.mp hpend
      cases h
      rw [takeFaultStep_eq hs hpend]
      exact .inr (.inr rfl)
    · simp at hcase
  · exact .inl (hk.status ▸ hp.busy)

theorem CommandReaches.runsOrEnded {i : Instr} {s t : State} {sn : Snapshot}
    (h : CommandReaches i s sn t) : RunsOrEnded t := by
  obtain ⟨hi, hb, s1, n, hexec, hs, hduty, hrun⟩ := h
  have hprog := exec_progress hi hb hexec hs
  refine runWhileBusy_keeps_of_moves ?_ ?_ ?_ hprog hduty (.inl hprog.busy) hrun
  · rintro u _ ⟨cs, d, rfl⟩ hu
    exact hu
  · intro u v hp hnow _ h
    exact .inl ((hostStep_keepsRun hp.busy hnow h).busy.trans hp.busy)
  · intro u v m hp hm _ h
    exact agentMove_runsOrEnded hp hm h

theorem CommandReaches.inv {i : Instr} {s t : State} {sn : Snapshot} (h : CommandReaches i s sn t) :
    MachineInv t := by
  obtain ⟨hi, -, s1, n, hexec, -, -, hrun⟩ := h
  exact runWhileBusy_inv (exec_invStep hi hexec).inv hrun

/-- Settles O47: the step that cleared BUSY set DONE or FAULT, and the invariant excludes both and leaves a
resting machine. -/
theorem commandEndsDoneOrFaulted : Obligations.CommandEndsDoneOrFaulted := by
  rintro i s t sn ⟨hreach, hbusy⟩
  have hi := hreach.inv
  have hdone : t.status.fault = true → t.status.done = false := fun hf => (hi.recordSet hf).2
  have hended : t.status.done = true ∨ t.status.fault = true :=
    hreach.runsOrEnded.resolve_left (by rw [hbusy]; exact Bool.false_ne_true)
  cases hf : t.status.fault with
  | true => exact ⟨.inr ⟨hdone hf, rfl⟩, fun hd => by cases hd.symm.trans (hdone hf)⟩
  | false =>
    rw [hf] at hended
    exact ⟨.inl ⟨hended.resolve_right Bool.false_ne_true, rfl⟩,
      fun _ ho => { hi.resting_of_not_busy hbusy with fault := hf, overrun := ho }⟩

/-! ## A reset before the end (R240, R241) -/

/-- While the command runs, its host keeping its duty, there is no race to settle (R73, R244). -/
theorem CommandReaches.unraced {i : Instr} {s t : State} {sn : Snapshot} (h : CommandReaches i s sn t)
    (hbusy : t.status.busy = true) : t.raced = [] := by
  obtain ⟨hi, hb, s1, n, hexec, hs, hduty, hrun⟩ := h
  obtain ⟨-, hp | hend⟩ := runWhileBusy_progress (exec_progress hi hb hexec hs) hduty hrun
  · exact hp.unraced
  · cases hbusy.symm.trans hend.1

/-- Settles O59: with no race to settle the reset leaves host memory as the run had it, where each target
byte is old or new. -/
theorem resetDuringACommand : Obligations.ResetDuringACommand := by
  rintro i s t r sn hreach hbusy ⟨⟩
  have hmem : (resetStep t).mem = t.mem := by rw [resetStep, endRaces_of_none (hreach.unraced hbusy)]; rfl
  rw [hmem]
  exact ⟨rfl, fun x => hreach.old_or_new, fun x _ => rfl⟩

end Sys2Proof.Machine
end

section
/-! PROOFS. A bound on the steps of its own that KSG has left to take for a command: what it is right after
acceptance, and that each of those steps takes one off (42_shard.md R171, R173, R176, 41_keystream.md R145,
43_generate.md R193, 60_exceptions.md R213, 70_reset_and_hazards.md R249). -/

namespace Sys2Proof.Machine

/-! ## The steps that are left (R249) -/

/-- A queued shard takes a dispatch and its Units (R171, R173). -/
def shardSteps (sh : Shard) : Nat := sh.limit - sh.start + 1

/-- An engine takes the Units it has left (R145). -/
def engineSteps : Engine → Nat
  | .idle         => 0
  | .running sh u => sh.limit - (sh.start + u)

/-- The fill of `size` bytes takes the chunks it has left (R193). -/
def fillSteps (size : Nat) : Option FillAgent → Nat
  | none   => 0
  | some f => chunkCount size - f.k

/-- The steps of the command's work. -/
def workSteps (sn : Snapshot) (s : State) : Nat :=
  (s.queue.map shardSteps).sum + (s.engines.map engineSteps).sum + fillSteps sn.size.toNat s.fill

/-- A bound on the steps that KSG has left to take: the work and its completion, or fault entry alone where
a fault is pending (R176, R213). -/
def stepsLeft (s : State) : Nat :=
  match s.snap, s.pending with
  | none, _         => 0
  | some _, some _  => 1
  | some sn, none   => workSteps sn s + 1

theorem stepsLeft_idle {s : State} (hs : s.snap = none) : stepsLeft s = 0 := by
  simp only [stepsLeft, hs]

theorem stepsLeft_faulting {s : State} {sn : Snapshot} {p : PendingFault} (hs : s.snap = some sn)
    (hp : s.pending = some p) : stepsLeft s = 1 := by
  simp only [stepsLeft, hs, hp]

theorem stepsLeft_working {s : State} {sn : Snapshot} (hs : s.snap = some sn) (hp : s.pending = none) :
    stepsLeft s = workSteps sn s + 1 := by
  simp only [stepsLeft, hs, hp]

/-- A step of the work that leaves fewer such steps. -/
theorem stepsLeft_lt_of_work {s t : State} {sn : Snapshot} (hs : s.snap = some sn) (hp : s.pending = none)
    (hs' : t.snap = s.snap) (hp' : t.pending = s.pending) (h : workSteps sn t < workSteps sn s) :
    stepsLeft t < stepsLeft s := by
  rw [stepsLeft_working hs hp, stepsLeft_working (hs'.trans hs) (hp'.trans hp)]
  exact Nat.add_lt_add_right h 1

/-- A refused transaction leaves fault entry alone (R213). -/
theorem stepsLeft_lt_of_refused {s t : State} {sn : Snapshot} {a : Nat} (hs : s.snap = some sn)
    (hp : s.pending = none) (hs' : t.snap = s.snap) (h : 0 < workSteps sn s) :
    stepsLeft (recordRefused a t) < stepsLeft s := by
  rw [stepsLeft_working hs hp, recordRefused_eq]
  refine lt_of_eq_of_lt (stepsLeft_faulting (hs'.trans hs) rfl) ?_
  exact Nat.add_lt_add_right h 1

theorem stepsLeft_pos {s : State} (hi : MachineInv s) (hb : s.status.busy = true) : 0 < stepsLeft s := by
  obtain ⟨sn, hs⟩ := hi.snap_of_busy hb
  cases hp : s.pending with
  | none => rw [stepsLeft_working hs hp]; omega
  | some p => rw [stepsLeft_faulting hs hp]; omega

theorem KeepsRun.stepsLeft_eq {s t : State} (h : KeepsRun s t) : stepsLeft t = stepsLeft s := by
  simp only [stepsLeft, workSteps, h.snap, h.pending, h.queue, h.engines, h.fill]

/-! ## Each step of KSG's agents takes one off -/

theorem sum_map_eraseIdx {α : Type} {l : List α} {i : Nat} {a : α} (f : α → Nat) (h : l[i]? = some a) :
    (l.map f).sum = f a + ((l.eraseIdx i).map f).sum := by
  obtain ⟨hi, rfl⟩ := List.getElem?_eq_some_iff.mp h
  rw [← ((List.getElem_cons_eraseIdx_perm hi).map f).sum_eq, List.map_cons, List.sum_cons]

theorem sum_map_set {α : Type} {l : List α} {i : Nat} {a : α} (f : α → Nat) (b : α) (h : l[i]? = some a) :
    ((l.set i b).map f).sum + f a = (l.map f).sum + f b := by
  obtain ⟨hi, -⟩ := List.getElem?_eq_some_iff.mp h
  have hset := ((List.set_perm_cons_eraseIdx hi b).map f).sum_eq
  rw [List.map_cons, List.sum_cons] at hset
  rw [hset, sum_map_eraseIdx f h]
  omega

/-- R173: the dispatched shard's Units are its engine's now. -/
theorem dispatchStep_stepsLeft {s : State} {sn : Snapshot} {e j : Nat} (hs : s.snap = some sn)
    (hp : s.pending = none) (he : s.engines[e]? = some .idle) (hj : j < s.queue.length) :
    stepsLeft (dispatchStep e j s) < stepsLeft s := by
  have hq := List.getElem?_eq_getElem hj
  have hqueue := sum_map_eraseIdx shardSteps hq
  have hengines := sum_map_set engineSteps (.running s.queue[j] 0) he
  rw [dispatchStep_eq hq]
  refine stepsLeft_lt_of_work hs hp rfl rfl ?_
  simp only [workSteps, engineSteps, shardSteps] at hqueue hengines ⊢
  omega

theorem engineSteps_afterUnit {sh : Shard} {u : Nat} (hu : sh.start + u < sh.limit) :
    engineSteps (afterUnit sh u) < engineSteps (.running sh u) := by
  unfold afterUnit
  split
  · simp only [engineSteps]; omega
  · simp only [engineSteps]; omega

/-- R145: the engine has a Unit less; R213: or only fault entry is left. -/
theorem unitStep_stepsLeft {s : State} {sn : Snapshot} {sh : Shard} {e u : Nat} (hs : s.snap = some sn)
    (hp : s.pending = none) (he : s.engines[e]? = some (.running sh u)) (hu : sh.start + u < sh.limit) :
    stepsLeft (unitStep e s) < stepsLeft s := by
  have hless := engineSteps_afterUnit hu
  have hengines := sum_map_set engineSteps (afterUnit sh u) he
  cases ha : admits s.cfg (unitAddr sn sh u) 16 with
  | true =>
    rw [unitStep_admitted hs he ha]
    refine stepsLeft_lt_of_work hs hp rfl rfl ?_
    simp only [workSteps]
    omega
  | false =>
    rw [unitStep_refused hs he ha]
    refine stepsLeft_lt_of_refused hs hp rfl ?_
    rw [workSteps]
    omega

/-- R193: the fill has a chunk less; R213: or only fault entry is left. -/
theorem chunkStep_stepsLeft {s : State} {sn : Snapshot} {f : FillAgent} (hs : s.snap = some sn)
    (hp : s.pending = none) (hf : s.fill = some f) (hk : f.k < chunkCount sn.size.toNat) :
    stepsLeft (chunkStep s) < stepsLeft s := by
  cases ha : admits s.cfg (sn.out.toNat + 16 * f.k) (chunkLength sn.size.toNat f.k) with
  | true =>
    rw [chunkStep_admitted hs hf ha]
    refine stepsLeft_lt_of_work hs hp rfl rfl ?_
    simp only [workSteps, hf, fillSteps]
    omega
  | false =>
    rw [chunkStep_refused hs hf ha]
    refine stepsLeft_lt_of_refused hs hp rfl ?_
    rw [workSteps, hf, fillSteps]
    omega

theorem agentMove_stepsLeft {s t : State} {m : Move} (hm : m ∈ agentMoves s) (h : runMove m s = .next t) :
    stepsLeft t < stepsLeft s := by
  obtain ⟨sn, hs, ⟨rfl, hp⟩ |
    ⟨hp, ⟨e, j, rfl, he, hj⟩ | ⟨e, sh, u, rfl, he, hu⟩ | ⟨rfl, f, hf, hk⟩ | ⟨rfl, -⟩⟩⟩ := mem_agentMoves hm
  · obtain ⟨p, hp⟩ := Option.isSome_iff_exists.mp hp
    cases h
    rw [takeFaultStep_eq hs hp, stepsLeft_faulting hs hp, stepsLeft_idle rfl]
    exact Nat.one_pos
  · cases h
    exact dispatchStep_stepsLeft hs hp he hj
  · cases h
    exact unitStep_stepsLeft hs hp he hu
  · cases h
    exact chunkStep_stepsLeft hs hp hf hk
  · cases h
    rw [stepsLeft_working hs hp, completeStep, stepsLeft_idle rfl]
    exact Nat.succ_pos _

/-! ## Right after acceptance the steps left are within R249's bound -/

/-- The shards of a plan take a dispatch each, and U Units together (R171). -/
theorem generateQueue_steps (c : Config.Params) (offset : Bool) (U S : Nat) :
    ((generateQueue c offset U S).map shardSteps).sum = (shardRanges U S).length + U := by
  have hunits : ((shardRanges U S).map fun r => r.2 - r.1).sum = U := by
    have h := congrArg List.length (flatMap_unitsOf_shardRanges U S)
    simpa only [List.length_flatMap, unitsOf, List.length_range', List.length_range] using h
  have hsteps : ((shardRanges U S).map fun r => r.2 - r.1 + 1).sum = U + (shardRanges U S).length := by
    rw [List.sum_map_add, hunits, List.map_const', List.sum_replicate, smul_eq_mul, Nat.mul_one]
  rw [generateQueue, List.map_map, Nat.add_comm, ← hsteps]
  rfl

theorem keystreamQueue_steps (r : Operands) :
    ((keystreamQueue r).map shardSteps).sum ≤ 1 + ((limitOf r).toNat - (startOf r).toNat) := by
  unfold keystreamQueue
  split
  · simp only [List.map_cons, List.map_nil, List.sum_cons, List.sum_nil, shardSteps]
    omega
  · exact Nat.zero_le _

/-- No engine of a resting machine has a Unit left (R226). -/
theorem Resting.engines_steps {s : State} (rest : Resting s) : (s.engines.map engineSteps).sum = 0 := by
  rw [List.sum_eq_zero_iff]
  intro k hk
  obtain ⟨e, he, rfl⟩ := List.mem_map.mp hk
  rw [rest.engines e he, engineSteps]

/-- Acceptance gives no engine a Unit: dispatch is a later step (R173). -/
theorem exec_engines {i : Instr} {s t : State} (hb : blocked s = false) (h : exec i s = .next t)
    (hbusy : t.status.busy = true) : t.engines = s.engines := by
  rcases exec_cases hb h with ⟨code, rfl⟩ | ⟨-, -, rfl⟩ | ⟨-, -, -, rfl⟩ |
    ⟨-, -, ⟨-, rfl⟩ | ⟨-, rfl⟩ | ⟨-, -, rfl⟩⟩
  · cases hbusy
  all_goals rfl

/-- An accepted command has the steps of its queue and of its fill to take, and completion (R93): the table
of R249, command by command. -/
theorem exec_stepsLeft {i : Instr} {s t : State} (hi : MachineInv s) (hb : blocked s = false)
    (h : exec i s = .next t) (hbusy : t.status.busy = true) : stepsLeft t ≤ stepBound i s := by
  obtain ⟨-, rest⟩ := hi.rest_of_not_blocked hb
  obtain ⟨sn, hs⟩ := (exec_invStep hi h).inv.snap_of_busy hbusy
  rw [stepsLeft_working hs (exec_pending hi hb h), workSteps, exec_engines hb h hbusy, rest.engines_steps]
  rcases exec_cases hb h with ⟨code, rfl⟩ | ⟨rfl, -, rfl⟩ | ⟨rfl, -, -, rfl⟩ |
    ⟨rfl, -, ⟨hc, rfl⟩ | ⟨hc, rfl⟩ | ⟨hc, -, rfl⟩⟩
  · cases hbusy
  · simp only [accept_queue, accept_fill, rest.queue, rest.fill]
    exact le_rfl
  · have hqueue := keystreamQueue_steps s.regs
    simp only [accept_fill, rest.fill, fillSteps, stepBound]
    omega
  · cases hs
    simp only [acceptFill, accept_queue, rest.queue, stepBound, hc]
    exact Nat.add_le_add_right (Nat.zero_add _).le 1
  · cases hs
    simp only [acceptFill, accept_queue, rest.queue, stepBound, hc]
    exact Nat.add_le_add_right (Nat.zero_add _).le 1
  · have hqueue := generateQueue_steps s.cfg s.regs.ctrMode ((outSizeOf s.regs).toNat / 16)
      (shardUnitsOf s.regs).toNat
    simp only [acceptShards, accept_fill, rest.fill, fillSteps, stepBound, hc, hqueue]
    exact le_rfl

end Sys2Proof.Machine
end

section
/-! PROOFS. A command ends within its bound, and under weak fairness it ends (O46; 42_shard.md R175,
70_reset_and_hazards.md R249). -/

namespace Sys2Proof.Machine

/-! ## A step of a running command -/

theorem host_notMem_agentMoves (s : State) : Move.host ∉ agentMoves s := by
  intro h
  obtain ⟨_, _, ⟨h, -⟩ |
    ⟨-, ⟨_, _, h, -⟩ | ⟨_, _, _, h, -⟩ | ⟨h, -⟩ | ⟨h, -⟩⟩⟩ := mem_agentMoves h <;> cases h

/-- A step of KSG's agents always answers a next state (R214). -/
theorem runMove_agent {m : Move} (hm : m ≠ .host) (s : State) : ∃ t, runMove m s = .next t := by
  cases m with
  | host => exact absurd rfl hm
  | dispatch e j => exact ⟨_, rfl⟩
  | unit e => exact ⟨_, rfl⟩
  | chunk => exact ⟨_, rfl⟩
  | complete => exact ⟨_, rfl⟩
  | takeFault => exact ⟨_, rfl⟩

theorem ksgStepNext_of_nextMove {s s' : State} {m : Move} (hn : nextMove s = some (m, s')) :
    ksgStepNext s = true ↔ m ≠ .host := by
  cases m <;> simp [ksgStepNext, hn]

/-- While BUSY = 1 some step comes next (R175). -/
theorem exists_nextMove_of_busy {s : State} (hi : MachineInv s) (hb : s.status.busy = true) :
    ∃ m s', nextMove s = some (m, s') := by
  cases hn : nextMove s with
  | none =>
    have hmoves := (List.append_eq_nil_iff.mp (nextMove_none.mp hn)).2
    exact absurd hmoves (busyMachineIsNeverStuck s hi hb)
  | some p => exact ⟨p.1, p.2, rfl⟩

/-- A step of the outside world while BUSY = 1 leaves the run alone, or is the reset that aborts it. -/
theorem hostStep_cases_of_busy {s t : State} (hb : s.status.busy = true) (h : hostStep s = .next t) :
    KeepsRun s t ∨ t.snap = none := by
  unfold hostStep at h
  split at h
  · rename_i ev rest hbus
    by_cases hreset : ev = .reset
    · subst hreset
      cases h
      exact .inr rfl
    · obtain ⟨hk, -⟩ := hostEvent_keepsRun (s := { s with bus := rest }) hb hreset h
      exact .inl ⟨hk.snap, hk.queue, hk.engines, hk.fill, hk.pending, hk.busy, hk.cfg⟩
  · cases h
    exact .inl .rfl'

/-- The inversion of a step while BUSY = 1: it is one of KSG's own, and takes one off the steps left, or the
outside world's, which leaves the run alone or aborts it. -/
theorem step_cases_of_busy {s t : State} (hi : MachineInv s) (hb : s.status.busy = true)
    (h : step s = .next t) :
    (ksgStepNext s = true ∧ stepsLeft t < stepsLeft s) ∨
      (ksgStepNext s = false ∧ (KeepsRun s t ∨ t.snap = none)) := by
  obtain ⟨m, s', hn⟩ := exists_nextMove_of_busy hi hb
  obtain ⟨hm, hsame⟩ := nextMove_some hn
  have hk := hsame.keepsRun
  rw [step_nextMove hn] at h
  rcases mem_moves hm with rfl | hm
  · have hhost : ksgStepNext s = false := by
      rw [← Bool.not_eq_true, ksgStepNext_of_nextMove hn]
      exact fun hne => hne rfl
    refine .inr ⟨hhost, ?_⟩
    exact (hostStep_cases_of_busy (hk.busy.trans hb) h).imp_left hk.trans
  · have hksg := (ksgStepNext_of_nextMove hn).mpr (ne_of_mem_of_not_mem hm (host_notMem_agentMoves s))
    have hm' : m ∈ agentMoves s' := by rwa [agentMoves_of_same hsame]
    exact .inl ⟨hksg, (agentMove_stepsLeft hm' h).trans_eq hk.stepsLeft_eq⟩

/-! ## The run (R249) -/

theorem ksgSteps_succ {n : Nat} {s t : State} (hb : s.status.busy = true) (h : step s = .next t) :
    ksgSteps (n + 1) s = (ksgStepNext s).toNat + ksgSteps n t := by
  rw [ksgSteps, if_pos hb, h]

/-- KSG's own steps of a run come off the steps that were left. -/
theorem ksgSteps_add_stepsLeft {n : Nat} {s t : State} (hi : MachineInv s)
    (h : runWhileBusy n s = some t) : ksgSteps n s + stepsLeft t ≤ stepsLeft s := by
  induction n generalizing s with
  | zero =>
    cases h
    exact (Nat.zero_add _).le
  | succ n ih =>
    obtain ⟨hb, u, hstep, hrun⟩ := runWhileBusy_succ.mp h
    have hlater := ih (step_invStep hi hstep).inv hrun
    rw [ksgSteps_succ hb hstep]
    rcases step_cases_of_busy hi hb hstep with ⟨hksg, hlt⟩ | ⟨hhost, hk | hs⟩
    · rw [hksg, Bool.toNat_true]
      omega
    · rw [hhost, Bool.toNat_false, ← hk.stepsLeft_eq]
      omega
    · rw [stepsLeft_idle hs] at hlater
      rw [hhost, Bool.toNat_false]
      omega

/-- A run without a step of KSG's own leaves the same steps enabled, unless a reset ends it. -/
theorem agentMoves_of_ksgSteps_zero {n : Nat} {s t : State} (hi : MachineInv s)
    (h : runWhileBusy n s = some t) (hzero : ksgSteps n s = 0) (ht : t.status.busy = true) :
    agentMoves t = agentMoves s := by
  induction n generalizing s with
  | zero =>
    cases h
    rfl
  | succ n ih =>
    obtain ⟨hb, u, hstep, hrun⟩ := runWhileBusy_succ.mp h
    have hu := (step_invStep hi hstep).inv
    rw [ksgSteps_succ hb hstep] at hzero
    rw [ih hu hrun (by omega)]
    rcases step_cases_of_busy hi hb hstep with ⟨hksg, -⟩ | ⟨-, hk | hs⟩
    · rw [hksg, Bool.toNat_true] at hzero
      omega
    · exact hk.agentMoves_eq
    · have hleft := ksgSteps_add_stepsLeft hu hrun
      have hpos := stepsLeft_pos (runWhileBusy_inv hu hrun) ht
      rw [stepsLeft_idle hs] at hleft
      omega

/-- One more step of a run. -/
theorem runWhileBusy_snoc {n : Nat} {s t u : State} (h : runWhileBusy n s = some t)
    (hb : t.status.busy = true) (hstep : step t = .next u) : runWhileBusy (n + 1) s = some u := by
  rw [runWhileBusy_add, h, Option.bind_some]
  exact runWhileBusy_succ.mpr ⟨hb, u, hstep, rfl⟩

/-- Under weak fairness a run comes to its end or to a state with fewer steps left: an enabled step of KSG's
agents is taken, or it was another one of theirs that disabled it (R175). -/
theorem WeaklyFair.ends_or_stepsLeft_lt {s t : State} {n : Nat} (hi : MachineInv s) (hf : WeaklyFair s)
    (h : runWhileBusy n s = some t) (hb : t.status.busy = true) :
    ∃ k u, runWhileBusy k s = some u ∧ (u.status.busy = false ∨ stepsLeft u < stepsLeft t) := by
  have ht := runWhileBusy_inv hi h
  obtain ⟨m, hm⟩ := List.exists_mem_of_ne_nil _ (busyMachineIsNeverStuck t ht hb)
  obtain ⟨k, u, hu, hcase⟩ := hf n t m h hb hm
  cases hbu : u.status.busy with
  | false => exact ⟨n + k, u, hu, .inl hbu⟩
  | true =>
    have htu : runWhileBusy k t = some u := by rwa [runWhileBusy_add, h] at hu
    have hle := ksgSteps_add_stepsLeft ht htu
    rcases hcase with hend | hgone | ⟨u', hnext⟩
    · cases hbu.symm.trans hend
    · have hpos : ksgSteps k t ≠ 0 := fun hzero =>
        hgone (agentMoves_of_ksgSteps_zero ht htu hzero hbu ▸ hm)
      exact ⟨n + k, u, hu, .inr (by omega)⟩
    · have hne : m ≠ .host := ne_of_mem_of_not_mem hm (host_notMem_agentMoves t)
      obtain ⟨v, hv⟩ := runMove_agent hne u'
      have hstep : step u = .next v := (step_nextMove hnext).trans hv
      have hksg := (ksgStepNext_of_nextMove hnext).mpr hne
      refine ⟨_, v, runWhileBusy_snoc hu hbu hstep, .inr ?_⟩
      rcases step_cases_of_busy (runWhileBusy_inv ht htu) hbu hstep with ⟨-, hlt⟩ | ⟨hhost, -⟩
      · omega
      · cases hksg.symm.trans hhost

/-- A weakly fair run ends. -/
theorem WeaklyFair.ends {s t : State} {n : Nat} (hi : MachineInv s) (hf : WeaklyFair s)
    (h : runWhileBusy n s = some t) : ∃ k u, runWhileBusy k s = some u ∧ u.status.busy = false := by
  induction hleft : stepsLeft t using Nat.strong_induction_on generalizing n t with
  | _ left ih =>
    cases hb : t.status.busy with
    | false => exact ⟨n, t, h, hb⟩
    | true =>
      obtain ⟨k, u, hu, hend | hlt⟩ := hf.ends_or_stepsLeft_lt hi h hb
      · exact ⟨k, u, hu, hend⟩
      · exact ih _ (hleft ▸ hlt) hu rfl

/-- With nothing pending the step of a busy machine is one of KSG's own, and leaves nothing pending. -/
theorem step_of_silent_bus {s : State} (hi : MachineInv s) (hb : s.status.busy = true)
    (hbus : s.bus = []) : ∃ t, step s = .next t ∧ t.bus = [] ∧ stepsLeft t < stepsLeft s := by
  obtain ⟨m, s', hn⟩ := exists_nextMove_of_busy hi hb
  obtain ⟨hm, hsame⟩ := nextMove_some hn
  have hbus' : s'.bus = [] := by
    obtain ⟨cs, d, rfl⟩ := hsame
    exact hbus
  have hagent : m ∈ agentMoves s' := by
    rw [agentMoves_of_same hsame]
    exact (mem_moves hm).resolve_left fun hhost => host_mem_moves.mp (hhost ▸ hm) hbus
  obtain ⟨t, ht⟩ := runMove_agent (ne_of_mem_of_not_mem hagent (host_notMem_agentMoves s')) s'
  obtain ⟨-, -, -, -, -, hkept, -⟩ := agentFrame s' t m hagent ht
  exact ⟨t, (step_nextMove hn).trans ht, hkept.trans hbus',
    (agentMove_stepsLeft hagent ht).trans_eq hsame.keepsRun.stepsLeft_eq⟩

/-- With nothing pending the run ends within the steps left, whatever the schedule. -/
theorem ends_of_silent_bus {s : State} (hi : MachineInv s) (hbus : s.bus = []) :
    ∃ n t, n ≤ stepsLeft s ∧ runWhileBusy n s = some t ∧ t.status.busy = false := by
  induction hleft : stepsLeft s using Nat.strong_induction_on generalizing s with
  | _ left ih =>
    cases hb : s.status.busy with
    | false => exact ⟨0, s, Nat.zero_le _, rfl, hb⟩
    | true =>
      obtain ⟨u, hstep, hubus, hlt⟩ := step_of_silent_bus hi hb hbus
      rw [hleft] at hlt
      obtain ⟨n, t, hn, hrun, ht⟩ := ih _ hlt (step_invStep hi hstep).inv hubus rfl
      exact ⟨n + 1, t, by omega, runWhileBusy_succ.mpr ⟨hb, u, hstep, hrun⟩, ht⟩

/-- Settles O46: right after acceptance the steps left are within the bound, each step of KSG's own takes one
off, and BUSY = 1 leaves at least one. -/
theorem commandEndsWithinItsBound : Obligations.CommandEndsWithinItsBound := by
  intro i s s1 hi hb hexec hbusy
  have hi1 := (exec_invStep hi hexec).inv
  have hbound := exec_stepsLeft hi hb hexec hbusy
  refine ⟨fun n t h => ?_, fun hf => hf.ends hi1 (n := 0) rfl, fun hbus => ?_⟩
  · have hle := ksgSteps_add_stepsLeft hi1 h
    refine ⟨by omega, fun heq => ?_⟩
    rw [← Bool.not_eq_true]
    intro ht
    have hpos := stepsLeft_pos (runWhileBusy_inv hi1 h) ht
    omega
  · obtain ⟨n, t, hn, hrun, ht⟩ := ends_of_silent_bus hi1 hbus
    exact ⟨n, t, hn.trans hbound, hrun, ht⟩

end Sys2Proof.Machine
end
